-- ==== Sys2Proof/Word.lean ====
section
/-! DEFINITION. The quantities of the block: words, beats and the plain arithmetic over them
(00_scope.md section 5). All arithmetic is on unbounded non-negative integers; the places that narrow a
value to a width say so (log 2). -/

namespace Sys2Proof

/-- A W-bit word: an unsigned integer in `[0, 2^W - 1]` (00_scope.md section 5). `W` is a parameter of
the hardware, so the bound is a fact about a word (`fits`), not part of its type (log 2). -/
abbrev Word := Nat

/-- One command beat, `cmd_data`: an unsigned integer of `BW` bits (R47). -/
abbrev Beat := Nat

/-- `ceil(x / y)`, as 00_scope.md section 5 defines it: `(x + y - 1) div y`. -/
def ceilDiv (x y : Nat) : Nat := (x + y - 1) / y

/-- The all-ones word `2^W - 1` (the `M` of R116). -/
def ones (w : Nat) : Word := 2 ^ w - 1

/-- `v` is an unsigned integer of `n` bits. -/
def fits (n v : Nat) : Bool := decide (v < 2 ^ n)

end Sys2Proof
end

