-- ==== Sys2Proof/Config.lean ====
section
/-! DEFINITION. The implementation parameters (00_scope.md R6 to R10). The spec gives them no value: the
model takes them as an argument, which every State carries in its field `cfg` and no step writes (log 1). -/

namespace Sys2Proof

/-- The three parameters of the hardware, fixed for its life. -/
structure Config where
  /-- `W`, the word width in bits (R6). -/
  w : Nat
  /-- `MAXWORDS`, the number of words each bank holds (R7). -/
  maxWords : Nat
  /-- `AW`, the width in bits of every command operand (R8). -/
  aw : Nat
deriving DecidableEq, Repr

/-- `CAPBITS = W * MAXWORDS`, the largest Row length (R7, R9). -/
def Config.capBits (c : Config) : Nat := c.w * c.maxWords

/-- `BW = 4 + 2*AW + W`, the command beat width (R9, R47). -/
def Config.bw (c : Config) : Nat := 4 + 2 * c.aw + c.w

/-- `VW = max(W, AW)`, the result width (R9, R60). -/
def Config.vw (c : Config) : Nat := max c.w c.aw

/-- `RW = 3 + VW`, the response beat width (R9, R60). -/
def Config.rw (c : Config) : Nat := 3 + c.vw

/-- The constraints on the parameters: `W >= 8` (R6), `MAXWORDS >= 1` (R7), `AW >= 9` and
`2^AW > CAPBITS` (R8). -/
def Config.legal (c : Config) : Bool :=
  decide (8 ≤ c.w) && decide (1 ≤ c.maxWords) && decide (9 ≤ c.aw) && decide (c.capBits < 2 ^ c.aw)

/-- The reference configuration `REF8` (R10): an example the spec uses in every encoded vector, not the
hardware's configuration. DESIGN CHOICE (log 1): the configuration of `State.reset`. -/
def Config.ref8 : Config := { w := 8, maxWords := 8, aw := 16 }

end Sys2Proof
end

