-- ==== Sys2Proof/Syntax.lean ====
section
/-! DEFINITION. The command set EAS-1 (R3, R49): one constructor per row of the opcode table. A command
carries the operands its lanes hold, as unsigned integers (R55); lanes a command does not use are no part
of it, since two beats that differ only there are the same command (R56). -/

namespace Sys2Proof

/-- The commands. -/
inductive Instr where
  /-- CONSTRUCT `n, len, [p0, ..., p(n-1)]` (R50, R68). -/
  | construct (n len : Nat) (payload : List Word)
  /-- NEXT `rule, gens` (R51, R97). -/
  | next (rule gens : Nat)
  /-- GETW `idx` (R52, R76). -/
  | getw (idx : Nat)
  /-- GETB `i` (R53, R75). -/
  | getb (i : Nat)
  /-- LEN (R54, R77). -/
  | len
  /-- Reserved opcode `0x0` (R57). -/
  | reserved0
  /-- Reserved opcode `0x6` (R57). -/
  | reserved6
  /-- Reserved opcode `0x7` (R57). -/
  | reserved7
  /-- Reserved opcode `0x8` (R57). -/
  | reserved8
  /-- Reserved opcode `0x9` (R57). -/
  | reserved9
  /-- Reserved opcode `0xA` (R57). -/
  | reservedA
  /-- Reserved opcode `0xB` (R57). -/
  | reservedB
  /-- Reserved opcode `0xC` (R57). -/
  | reservedC
  /-- Reserved opcode `0xD` (R57). -/
  | reservedD
  /-- Reserved opcode `0xE` (R57). -/
  | reservedE
  /-- Reserved opcode `0xF` (R57). -/
  | reservedF
deriving DecidableEq, Repr

/-- The opcode of a command, `op` of its header beat (R49). -/
def Instr.opcode : Instr → Nat
  | .construct _ _ _ => 0x1
  | .next _ _ => 0x2
  | .getw _ => 0x3
  | .getb _ => 0x4
  | .len => 0x5
  | .reserved0 => 0x0
  | .reserved6 => 0x6
  | .reserved7 => 0x7
  | .reserved8 => 0x8
  | .reserved9 => 0x9
  | .reservedA => 0xA
  | .reservedB => 0xB
  | .reservedC => 0xC
  | .reservedD => 0xD
  | .reservedE => 0xE
  | .reservedF => 0xF

/-- The command has a reserved opcode (R57). -/
def Instr.isReserved : Instr → Bool
  | .construct _ _ _ => false
  | .next _ _ => false
  | .getw _ => false
  | .getb _ => false
  | .len => false
  | .reserved0 => true
  | .reserved6 => true
  | .reserved7 => true
  | .reserved8 => true
  | .reserved9 => true
  | .reservedA => true
  | .reservedB => true
  | .reservedC => true
  | .reservedD => true
  | .reservedE => true
  | .reservedF => true

end Sys2Proof
end

