-- ==== Sys2Proof/WellFormed.lean ====
section
/-! DEFINITION. What an assembler checks of a command before it emits beats (R62): every operand fits its
AW-bit lane, a CONSTRUCT has exactly `n` payload words, every payload word fits the W-bit lane. What the
hardware reports itself (a rule above 255, an index out of range, `len > W*n`) is well formed here. -/

namespace Sys2Proof

/-- The command can be encoded in beats of configuration `c` (R55, R62). -/
def WellFormed (c : Config) : Instr → Bool
  | .construct n len payload =>
    fits c.aw n && fits c.aw len && decide (payload.length = n) && payload.all (fits c.w)
  | .next rule gens => fits c.aw rule && fits c.aw gens
  | .getw idx => fits c.aw idx
  | .getb i => fits c.aw i
  | .len => true
  | .reserved0 => true
  | .reserved6 => true
  | .reserved7 => true
  | .reserved8 => true
  | .reserved9 => true
  | .reservedA => true
  | .reservedB => true
  | .reservedC => true
  | .reservedD => true
  | .reservedE => true
  | .reservedF => true

end Sys2Proof
end

