-- ==== Sys2Proof/Decode.lean ====
section
/-! DEFINITION. Decoding of command beats, and the encoder (30_encoding.md R46 to R59). A command is its
header beat and, for CONSTRUCT, the payload beats after it; which format a beat has is decided by its
position alone (R48). -/

namespace Sys2Proof

/-- Lane `op = cmd_data[3:0]` (R47). -/
def opLane (d : Beat) : Nat := d % 16

/-- Lane `a = cmd_data[AW+3:4]` (R47), unsigned (R55). -/
def aLane (c : Config) (d : Beat) : Nat := (d >>> 4) % 2 ^ c.aw

/-- Lane `b = cmd_data[2*AW+3:AW+4]` (R47), unsigned (R55). -/
def bLane (c : Config) (d : Beat) : Nat := (d >>> (c.aw + 4)) % 2 ^ c.aw

/-- Lane `w = cmd_data[BW-1:2*AW+4]` (R47), the data word of a payload beat. -/
def wLane (c : Config) (d : Beat) : Word := (d >>> (2 * c.aw + 4)) % 2 ^ c.w

/-- The length of a command in beats, told from its header alone (R59). -/
def lenBeats (c : Config) (header : Beat) : Nat :=
  if opLane header = 0x1 then 1 + aLane c header else 1

/-- Why the beats presented so far are no whole command. Neither is an error of the host: every one of the
16 opcodes is a command or fails as one (R58). -/
inductive DecodeError where
  /-- No header beat has been presented. -/
  | noHeader
  /-- A CONSTRUCT header with operands `n` and `len`, of whose `n` payload beats some are missing (R158). -/
  | payloadOutstanding (n len : Nat)
deriving DecidableEq, Repr

/-- The command at the head of the presented beats, with the beats after it (R48, R49, R59). The lane `op`
is below 16, so the last arm is opcode `0xF` alone. -/
def decode (c : Config) : List Beat → Except DecodeError (Instr × List Beat)
  | [] => .error .noHeader
  | h :: rest =>
    match opLane h with
    | 0x0 => .ok (.reserved0, rest)
    | 0x1 =>
      if rest.length < aLane c h then .error (.payloadOutstanding (aLane c h) (bLane c h))
      else .ok (.construct (aLane c h) (bLane c h) ((rest.take (aLane c h)).map (wLane c)), rest.drop (aLane c h))
    | 0x2 => .ok (.next (aLane c h) (bLane c h), rest)
    | 0x3 => .ok (.getw (aLane c h), rest)
    | 0x4 => .ok (.getb (aLane c h), rest)
    | 0x5 => .ok (.len, rest)
    | 0x6 => .ok (.reserved6, rest)
    | 0x7 => .ok (.reserved7, rest)
    | 0x8 => .ok (.reserved8, rest)
    | 0x9 => .ok (.reserved9, rest)
    | 0xA => .ok (.reservedA, rest)
    | 0xB => .ok (.reservedB, rest)
    | 0xC => .ok (.reservedC, rest)
    | 0xD => .ok (.reservedD, rest)
    | 0xE => .ok (.reservedE, rest)
    | _ => .ok (.reservedF, rest)

/-- A header beat with opcode `op` and operands `a`, `b`; the `w` lane is 0, as an assembler emits it
(R50 to R54, R56). -/
def headerBeat (c : Config) (op a b : Nat) : Beat := op ||| (a <<< 4) ||| (b <<< (c.aw + 4))

/-- A payload beat with data word `v`; the other lanes are 0 (R50, R56). -/
def payloadBeat (c : Config) (v : Word) : Beat := v <<< (2 * c.aw + 4)

/-- The beats of a command (R50 to R54, R57), ignored lanes 0 (R56). -/
def encode (c : Config) : Instr → List Beat
  | .construct n len payload => headerBeat c 0x1 n len :: payload.map (payloadBeat c)
  | .next rule gens => [headerBeat c 0x2 rule gens]
  | .getw idx => [headerBeat c 0x3 idx 0]
  | .getb i => [headerBeat c 0x4 i 0]
  | .len => [headerBeat c 0x5 0 0]
  | .reserved0 => [headerBeat c 0x0 0 0]
  | .reserved6 => [headerBeat c 0x6 0 0]
  | .reserved7 => [headerBeat c 0x7 0 0]
  | .reserved8 => [headerBeat c 0x8 0 0]
  | .reserved9 => [headerBeat c 0x9 0 0]
  | .reservedA => [headerBeat c 0xA 0 0]
  | .reservedB => [headerBeat c 0xB 0 0]
  | .reservedC => [headerBeat c 0xC 0 0]
  | .reservedD => [headerBeat c 0xD 0 0]
  | .reservedE => [headerBeat c 0xE 0 0]
  | .reservedF => [headerBeat c 0xF 0 0]

/-- The beats of the command whose bits are `v`: the header is the low `BW` bits, payload beat `k` the
`BW` bits from bit `(k+1)*BW` on, as many as the header asks for (log 18). -/
def beatsOfNumber (c : Config) (v : Nat) : List Beat :=
  (List.range (lenBeats c (v % 2 ^ c.bw))).map fun k => (v >>> (k * c.bw)) % 2 ^ c.bw

/-- The beats of an opcode-table word of `nbits` bits: every bit above them is 0. -/
def tableBeats (c : Config) (nbits v : Nat) : List Beat := beatsOfNumber c (v % 2 ^ nbits)

/-- The instruction the decoder reads from an opcode-table word, in configuration `REF8` (log 18). -/
def decodeTableWord (nbits w : Nat) : Option Instr :=
  match decode .ref8 (tableBeats .ref8 nbits w) with
  | .ok (i, _) => some i
  | .error _ => none

end Sys2Proof
end

