-- ==== Sys2Proof/Machine/State.lean ====
section
/-! DEFINITION. The state of the block as plain data (10_state.md), the reasons a step can stop, and the
state after reset (R27, R148). -/

namespace Sys2Proof.Machine

/-- One bank of the word store (R19): the words that are not 0, as (index, word) pairs with strictly rising
indices. An index that is not listed reads as 0. DESIGN CHOICE (log 3): the spec leaves a word nothing has
written unspecified (R149); no command can read one. -/
abbrev Bank := List (Nat × Word)

/-- The `status` of a response (R61). Values 6 and 7 are never produced, so there is none for them. -/
inductive Status where
  /-- 0: the command succeeded. -/
  | ok
  /-- 1: NEXT with a rule above 255 (R129). -/
  | invalidRule
  /-- 2: GETW or GETB with an index at or beyond its bound (R130). -/
  | outOfRange
  /-- 3: CONSTRUCT with `initialLength > W * n` (R131). -/
  | invalidConstruction
  /-- 4: NEXT or CONSTRUCT whose result would not fit (R132). -/
  | capacityExceeded
  /-- 5: a reserved opcode (R133). -/
  | illegalCommand
deriving DecidableEq, Repr

/-- A response (R60): its status and its value, an unsigned integer of `VW` bits. -/
structure Response where
  status : Status
  val : Nat
deriving DecidableEq, Repr

/-- The Row (R13): what a command can observe of the state. `words` has `ceil(length / W)` entries (R15). -/
structure Row where
  length : Nat
  words : List Word
deriving DecidableEq, Repr

/-- The whole state: every register the spec names, the input pins the step reads, and the record of the
responses taken. -/
structure State where
  /-- The parameters `W`, `MAXWORDS`, `AW`; no state of the block, never written (R6 to R8, R25, log 1). -/
  cfg : Config
  /-- The length register, the number of cells of the current generation (R14). -/
  length : Nat
  /-- `bank[0]` (R19). -/
  bank0 : Bank
  /-- `bank[1]` (R19). -/
  bank1 : Bank
  /-- `front`: false selects `bank[0]`, true `bank[1]` (R19). -/
  front : Bool
  /-- `carry`, the two least significant bits of the previous masked old word (R21, R114). -/
  carry : BitVec 2
  /-- `k`, the index of the word being produced (R21). -/
  k : Nat
  /-- `gens_left`, the generations still to apply (R21). -/
  gensLeft : Nat
  /-- `rule_q`, the rule of the NEXT in progress (R21). -/
  ruleQ : BitVec 8
  /-- `busy`: a command has been accepted and its response has not yet transferred (R26). -/
  busy : Bool
  /-- `payload_left`, the payload beats of the CONSTRUCT in progress still to arrive (R26). -/
  payloadLeft : Nat
  /-- `n_q`, the header's `n` (R26). -/
  nQ : Nat
  /-- `len_q`, the header's `initialLength` (R26). -/
  lenQ : Nat
  /-- `keep`: the CONSTRUCT in progress passed its checks (R26, R73). -/
  keep : Bool
  /-- The response presented to the host: `rsp_valid = 1` and `rsp_data`, or `none` for `rsp_valid = 0`
  (R46, R60, log 9). -/
  rsp : Option Response
  /-- The pin `rst` (R147, log 6). -/
  rst : Bool
  /-- The pin `rsp_ready` (R46, R154, log 6). -/
  rspReady : Bool
  /-- The command beats the host presents, first first: `cmd_valid = 1` while there is one, and
  `cmd_data` is the first (R46, log 6). -/
  cmdIn : List Beat
  /-- The responses that have transferred, oldest first: the observable outcome of a run (R164, log 6). -/
  delivered : List Response
deriving DecidableEq, Repr

/-- Why the machine stops with a fault. -/
inductive Fault where
  /-- GETW or GETB asked the bank for a word at an index that no bank has (`idx >= MAXWORDS`, R19). Raised by
  them only in a state whose length register exceeds CAPBITS, which R14 excludes. Safe: no run from a state
  within R14 meets it (log 12). -/
  | bankIndexBeyondCapacity (idx : Nat)
deriving DecidableEq, Repr

/-- Why the machine refuses. -/
inductive Refusal where
  /-- Raised by an arm of `exec` whose command has no meaning yet. Safe. -/
  | notModelled (mnemonic : String)
  /-- Raised by `step` in a state whose parameters break R6 to R8 (93_implementation_defined.md U10). Safe:
  the spec makes no claim of such a configuration (log 11). -/
  | illegalConfiguration
deriving DecidableEq, Repr

/-- The state after reset of a block of configuration `c`, its host idle and ready (R27, R148). `length`,
`front`, `carry`, `busy` and `rsp_valid` are 0 as R27 says. DESIGN CHOICE: the banks (log 3), `k`,
`gens_left`, `rule_q` (log 4), the framer's registers (log 5) and the host's side (log 6). -/
def State.resetWith (c : Config) : State where
  cfg := c
  length := 0
  bank0 := []
  bank1 := []
  front := false
  carry := 0
  k := 0
  gensLeft := 0
  ruleQ := 0
  busy := false
  payloadLeft := 0
  nQ := 0
  lenQ := 0
  keep := false
  rsp := none
  rst := false
  rspReady := true
  cmdIn := []
  delivered := []

/-- The machine right after reset, in the reference configuration `REF8` (log 1). -/
def State.reset : State := State.resetWith .ref8

end Sys2Proof.Machine
end

