-- ==== Sys2Proof/Machine/Operands.lean ====
section
/-! DEFINITION. The operand forms: how an index names a word or a bit of the store, how many words a length
needs, which bits of a word are cells (20_memory.md R28 to R38), and the rule byte (R55, R84). -/

namespace Sys2Proof.Machine

/-- The number of words a Row of `len` cells has: `ceil(len / W)` (R15). -/
def wordsFor (w len : Nat) : Nat := ceilDiv len w

/-- The word that holds Row position `i` (R29). -/
def wordOf (w i : Nat) : Nat := i / w

/-- The integer bit of its word that holds Row position `i` (R29): position 0 of a word is its most
significant bit. -/
def bitOf (w i : Nat) : Nat := w - 1 - i % w

/-- `v(L, k)`: how many cells of a Row of `len` cells lie in word `k` (R38). -/
def validBits (w len k : Nat) : Nat := min (len - k * w) w

/-- `vmask(L, k)`: ones exactly at the cell bits of word `k` (R38). -/
def vmask (w len k : Nat) : Word := (2 ^ validBits w len k - 1) <<< (w - validBits w len k)

/-- The rule byte of a rule operand that has passed the check `rule <= 255` (R55, R84). -/
def ruleByte (rule : Nat) : BitVec 8 := BitVec.ofNat 8 rule

/-- The word whose cells, leftmost first, are `f 0, ..., f (W-1)`: the sum of `f t << (W-1-t)` (R94, R126). -/
def packWord (w : Nat) (f : Nat → Bool) : Word := ((List.range w).map fun t => (f t).toNat <<< (w - 1 - t)).sum

end Sys2Proof.Machine
end

