-- ==== Sys2Proof/Machine/Flags.lean ====
section
/-! DEFINITION. The block has no flags and no condition codes (R24). The one condition a command reports is
the status of its response: this file says which, in the priority of R136. -/

namespace Sys2Proof.Machine

/-- The code of a status (R61). -/
def Status.code : Status → Nat
  | .ok => 0
  | .invalidRule => 1
  | .outOfRange => 2
  | .invalidConstruction => 3
  | .capacityExceeded => 4
  | .illegalCommand => 5

/-- The response beat: `status | (val << 3)` (R60). -/
def Response.beat (r : Response) : Nat := r.status.code ||| (r.val <<< 3)

/-- The status of NEXT: InvalidRule before CapacityExceeded (R97, R98, R100, R136). The rule is compared at the
operand's full width (R55), the sum is unbounded (R100). -/
def nextStatus (c : Config) (length rule gens : Nat) : Status :=
  if rule > 255 then .invalidRule
  else if length + 2 * gens > c.capBits then .capacityExceeded
  else .ok

/-- The status of CONSTRUCT: InvalidConstruction before CapacityExceeded (R68, R69, R72, R136). The product is
unbounded (R69). -/
def constructStatus (c : Config) (n len : Nat) : Status :=
  if len > c.w * n then .invalidConstruction
  else if wordsFor c.w len > c.maxWords then .capacityExceeded
  else .ok

/-- The status of GETW (R76, R130). -/
def getwStatus (c : Config) (length idx : Nat) : Status := if idx ≥ wordsFor c.w length then .outOfRange else .ok

/-- The status of GETB (R75, R130). -/
def getbStatus (length i : Nat) : Status := if i ≥ length then .outOfRange else .ok

end Sys2Proof.Machine
end

