-- ==== Sys2Proof/Machine/Ops.lean ====
section
/-! DEFINITION. The shared operations over the state: the word store and its two banks (R19, R20), the Row as
commands see it (R13 to R16, R29 to R31), answering a command (R60), raising an error (R128) and the transfer
of a response that ends it (R46, R140), the CONSTRUCT framer's moves (R26, R73), the sequencer's (R21), reset
(R147, R150). -/

namespace Sys2Proof.Machine

/-! ### One bank -/

/-- The word of a bank at index `k`; an index not listed reads as 0 (log 3). -/
def Bank.read : Bank → Nat → Word
  | [], _ => 0
  | (j, v) :: rest, k => if j = k then v else Bank.read rest k

/-- Lists a word at its place. -/
def Bank.insert (k : Nat) (v : Word) : Bank → Bank
  | [] => [(k, v)]
  | (j, u) :: rest => if k < j then (k, v) :: (j, u) :: rest else (j, u) :: Bank.insert k v rest

/-- The bank with word `v` at index `k`. The value an unlisted index reads as is not listed. -/
def Bank.write (b : Bank) (k : Nat) (v : Word) : Bank :=
  if v = 0 then b.filter (fun e => e.1 != k) else Bank.insert k v (b.filter (fun e => e.1 != k))

/-- The canonical form: indices strictly rising, no word 0. -/
def Bank.canonical : Bank → Bool
  | [] => true
  | [(_, v)] => v != 0
  | (j, v) :: (k, u) :: rest => v != 0 && decide (j < k) && Bank.canonical ((k, u) :: rest)

/-- A bank of a block of configuration `c`: canonical, within `MAXWORDS` words of `W` bits (R19). -/
def Bank.wf (c : Config) (b : Bank) : Bool :=
  Bank.canonical b && b.all fun e => decide (e.1 < c.maxWords) && fits c.w e.2

/-! ### The word store -/

/-- `bank[b]` (R19). -/
def State.bank (s : State) (b : Bool) : Bank := if b then s.bank1 else s.bank0

/-- `MemRead(k, 1)`: word `k` of the front bank (00_scope.md section 5, R19). -/
def State.memRead (s : State) (k : Nat) : Word := Bank.read (s.bank s.front) k

/-- `MemWrite(k, 1, v)`: write a word of `W` bits at index `k` of the back bank (00_scope.md section 5, R19). -/
def State.memWrite (s : State) (k : Nat) (v : Word) : State :=
  { s with
    bank0 := if s.front then Bank.write s.bank0 k (v % 2 ^ s.cfg.w) else s.bank0
    bank1 := if s.front then s.bank1 else Bank.write s.bank1 k (v % 2 ^ s.cfg.w) }

/-- `Swap(n)`: in one indivisible step the back bank becomes the front bank and `length <- n` (R20). -/
def State.swap (s : State) (n : Nat) : State := { s with front := !s.front, length := n }

/-- `word_count`, a function of `length` (R15). -/
def State.wordCount (s : State) : Nat := wordsFor s.cfg.w s.length

/-- The Row: `word_count` words of the front bank, and `length` (R13, R16). -/
def State.row (s : State) : Row := { length := s.length, words := (List.range s.wordCount).map s.memRead }

/-! ### The Row as cells -/

/-- `cell(i) = (words[i div W] >> (W-1-(i mod W))) & 1` (R29). -/
def Row.cell (w : Nat) (r : Row) (i : Nat) : Bool := (r.words.getD (wordOf w i) 0).testBit (bitOf w i)

/-- `bit(i)`, for every integer `i`: the cell inside the Row, 0 outside (R31). -/
def Row.bit (w : Nat) (r : Row) (i : Int) : Bool :=
  if 0 ≤ i ∧ i < r.length then r.cell w i.toNat else false

/-- The cells of the Row, leftmost first. -/
def Row.cells (w : Nat) (r : Row) : List Bool := (List.range r.length).map (r.cell w)

/-- `cell(i)` of the current Row (R29). -/
def State.cell (s : State) (i : Nat) : Bool := s.row.cell s.cfg.w i

/-- `bit(i)` of the current Row (R31). -/
def State.bit (s : State) (i : Int) : Bool := s.row.bit s.cfg.w i

/-! ### Answering a command -/

/-- `respond(v)`: end the command with `status = 0` and `val = v` (00_scope.md section 5, R60). -/
def State.respond (s : State) (v : Nat) : State := { s with busy := true, rsp := some { status := .ok, val := v } }

/-- `raise <Error>`: end the command with the error's status and `val = 0`, and change nothing else (R128). This is
all of what an exception is on this block: nothing is saved, no mode changes, nothing is masked (R139). -/
def State.raise (s : State) (e : Status) : State := { s with busy := true, rsp := some { status := e, val := 0 } }

/-- The transfer of response `r` to the host. It ends the command, and an error with it: there is no return
command (R46, R140). -/
def State.deliver (s : State) (r : Response) : State :=
  { s with busy := false, rsp := none, delivered := s.delivered ++ [r] }

/-- The output `cmd_ready`: 0 from the last beat of a command until its response has transferred, else 1
(R46, R27). -/
def State.cmdReady (s : State) : Bool := s.rsp.isNone && !(s.busy && s.payloadLeft == 0)

/-- The output `rsp_valid` (R46). -/
def State.rspValid (s : State) : Bool := s.rsp.isSome

/-- The output `rsp_data` while `rsp_valid = 1` (R46, R60); nothing is said of it otherwise (R164, log 9). -/
def State.rspData (s : State) : Option Nat := s.rsp.map Response.beat

/-! ### The command framer -/

/-- Presented beats have transferred, `rest` is still presented (R46). -/
def State.takeBeats (s : State) (rest : List Beat) : State := { s with cmdIn := rest }

/-- The header of a CONSTRUCT is accepted: its operands are copied, its checks decide `keep` (R26, R73). -/
def State.openConstruct (s : State) (n len : Nat) : State :=
  { s with busy := true, payloadLeft := n, nQ := n, lenQ := len, keep := constructStatus s.cfg n len == .ok }

/-- One payload beat has arrived (R26). -/
def State.countPayload (s : State) : State := { s with payloadLeft := s.payloadLeft - 1 }

/-- The payload word `v` arrives: written at its index of the back bank if the CONSTRUCT is kept and the Row
needs it, dropped otherwise (R68, R70, R71, R73). -/
def State.acceptPayload (s : State) (v : Word) : State :=
  if s.keep ∧ s.nQ - s.payloadLeft < wordsFor s.cfg.w s.lenQ
  then (s.memWrite (s.nQ - s.payloadLeft) v).countPayload
  else s.countPayload

/-- The last beat of a CONSTRUCT has arrived: the Row is replaced, or the error is raised (R68, R73). -/
def State.closeConstruct (s : State) : State :=
  match constructStatus s.cfg s.nQ s.lenQ with
  | .ok => (s.swap s.lenQ).respond 0
  | e => s.raise e

/-! ### The NEXT sequencer -/

/-- NEXT loads `rule_q` and `gens_left` (R21, log 13). -/
def State.loadNext (s : State) (rule gens : Nat) : State := { s with ruleQ := ruleByte rule, gensLeft := gens }

/-- The set-up of a generation: `carry <- 0`, `k <- 0` (R106). -/
def State.startGeneration (s : State) : State := { s with carry := 0, k := 0 }

/-- `carry <- cur[1:0]` and `k <- k + 1`, after word `k` has been written (R114, R115). -/
def State.advance (s : State) (cur : Word) : State := { s with carry := BitVec.ofNat 2 cur, k := s.k + 1 }

/-- One generation has been applied (R21). -/
def State.countGeneration (s : State) : State := { s with gensLeft := s.gensLeft - 1 }

/-! ### Reset -/

/-- A rising edge of `clk` with `rst = 1`: the block is in the reset state, whatever it was doing; what the host
drives and has received is the host's (R147, R148, R150, log 14). -/
def State.resetEdge (s : State) : State :=
  { State.resetWith s.cfg with rst := s.rst, rspReady := s.rspReady, cmdIn := s.cmdIn, delivered := s.delivered }

end Sys2Proof.Machine
end

