-- ==== Sys2Proof/Machine/BitStore.lean ====
section
/-! DEFINITION. The commands of `dense_bitrow_storage_and_reader` (40_bitstore.md R67 to R80): CONSTRUCT, GETB,
GETW, LEN. -/

namespace Sys2Proof.Machine

/-- CONSTRUCT (R68 to R74): the header is accepted, the payload words arrive one after another, and the command
executes when the last beat has arrived. The same three moves serve a CONSTRUCT whose beats come one at a time
(Machine/Framer.lean). -/
def execConstruct (n len : Nat) (payload : List Word) (s : State) : Host.Outcome State Fault Refusal :=
  .next (payload.foldl State.acceptPayload (s.openConstruct n len)).closeConstruct

/-- GETB (R75): one cell. -/
def execGetb (i : Nat) (s : State) : Host.Outcome State Fault Refusal :=
  match getbStatus s.length i with
  | .ok =>
    if wordOf s.cfg.w i < s.cfg.maxWords
    then .next (s.respond ((s.memRead (wordOf s.cfg.w i) >>> bitOf s.cfg.w i) &&& 1))
    else .fault (.bankIndexBeyondCapacity (wordOf s.cfg.w i))
  | e => .next (s.raise e)

/-- GETW (R76): one raw word, padding bits as stored. -/
def execGetw (idx : Nat) (s : State) : Host.Outcome State Fault Refusal :=
  match getwStatus s.cfg s.length idx with
  | .ok => if idx < s.cfg.maxWords then .next (s.respond (s.memRead idx)) else .fault (.bankIndexBeyondCapacity idx)
  | e => .next (s.raise e)

/-- LEN (R77): the length register. -/
def execLen (s : State) : Host.Outcome State Fault Refusal := .next (s.respond s.length)

end Sys2Proof.Machine
end

