-- ==== Sys2Proof/Machine/Reserved.lean ====
section
/-! DEFINITION. The eleven reserved opcodes (R57): one-beat commands that fail with IllegalCommand. -/

namespace Sys2Proof.Machine

/-- A reserved opcode: IllegalCommand, whatever the other lanes hold (R57, R133). -/
def illegalCommand (s : State) : Host.Outcome State Fault Refusal := .next (s.raise .illegalCommand)

/-- Reserved opcode `0x0` (R57). -/
def execReserved0 (s : State) : Host.Outcome State Fault Refusal := illegalCommand s

/-- Reserved opcode `0x6` (R57). -/
def execReserved6 (s : State) : Host.Outcome State Fault Refusal := illegalCommand s

/-- Reserved opcode `0x7` (R57). -/
def execReserved7 (s : State) : Host.Outcome State Fault Refusal := illegalCommand s

/-- Reserved opcode `0x8` (R57). -/
def execReserved8 (s : State) : Host.Outcome State Fault Refusal := illegalCommand s

/-- Reserved opcode `0x9` (R57). -/
def execReserved9 (s : State) : Host.Outcome State Fault Refusal := illegalCommand s

/-- Reserved opcode `0xA` (R57). -/
def execReservedA (s : State) : Host.Outcome State Fault Refusal := illegalCommand s

/-- Reserved opcode `0xB` (R57). -/
def execReservedB (s : State) : Host.Outcome State Fault Refusal := illegalCommand s

/-- Reserved opcode `0xC` (R57). -/
def execReservedC (s : State) : Host.Outcome State Fault Refusal := illegalCommand s

/-- Reserved opcode `0xD` (R57). -/
def execReservedD (s : State) : Host.Outcome State Fault Refusal := illegalCommand s

/-- Reserved opcode `0xE` (R57). -/
def execReservedE (s : State) : Host.Outcome State Fault Refusal := illegalCommand s

/-- Reserved opcode `0xF` (R57). -/
def execReservedF (s : State) : Host.Outcome State Fault Refusal := illegalCommand s

end Sys2Proof.Machine
end

