-- ==== Sys2Proof/Machine/RuleEngine.lean ====
section
/-! DEFINITION. `rule_lookup_lut`, the RuleEngine (41_rule_engine.md R81 to R88): the rule function, bit-wide
and word-wide. It is pure and holds no state (R83, R85). -/

namespace Sys2Proof.Machine

/-- The index of a neighbourhood: `l*4 + c*2 + r` (R81). -/
def neighbourhood (l c r : Bool) : Nat := l.toNat * 4 + c.toNat * 2 + r.toNat

/-- `apply(rule, l, c, r)`: bit `l*4 + c*2 + r` of the rule (R81, R82). The rule has 8 bits by its type, so
nothing has to be said of a rule outside [0,255] (R84). -/
def apply (rule : BitVec 8) (l c r : Bool) : Bool := rule.getLsbD (neighbourhood l c r)

/-- A stream or its complement within `W` bits: `b ? x : ~_W x` (R112). -/
def passOrInvert (w : Nat) (b : Bool) (x : Word) : Word := if b then x else ones w ^^^ x

/-- The minterm of index `idx` over the three streams (R112). -/
def minterm (w : Nat) (lw cw rw : Word) (idx : Nat) : Word :=
  passOrInvert w (idx.testBit 2) lw &&& passOrInvert w (idx.testBit 1) cw &&& passOrInvert w (idx.testBit 0) rw

/-- `applyW(rule, Lw, Cw, Rw)`: the rule function on `W` cells at once, as the OR of the minterms the rule
enables (R85, R112). -/
def applyW (w : Nat) (rule : BitVec 8) (lw cw rw : Word) : Word :=
  (List.range 8).foldl (fun out idx => if rule.getLsbD idx then out ||| minterm w lw cw rw idx else out) 0

end Sys2Proof.Machine
end

