-- ==== Sys2Proof/Machine/Pipeline.lean ====
section
/-! DEFINITION. `word_boundary_shift_pipeline`: the word-at-a-time datapath of one generation
(43_word_pipeline.md R104 to R121), stage by stage, over the banks, `carry` and `k` of the state. -/

namespace Sys2Proof.Machine

/-- Input fetch for word `k`: the front bank's word, or 0 without a read at or beyond the old word count (R107). -/
def State.rawWord (s : State) : Word := if s.k < s.wordCount then s.memRead s.k else 0

/-- Input mask: `cur = raw & vmask(L, k)` (R108). It is also the right-neighbour stream `Rw` (R109). -/
def State.curWord (s : State) : Word := s.rawWord &&& vmask s.cfg.w s.length s.k

/-- Centre stream: `Cw = (cur >> 1) | (carry[0] << (W-1))` (R110). -/
def centreStream (w : Nat) (carry : BitVec 2) (cur : Word) : Word :=
  (cur >>> 1) ||| ((carry.getLsbD 0).toNat <<< (w - 1))

/-- Left-neighbour stream: `Lw = (cur >> 2) | (carry[1:0] << (W-2))` (R111). -/
def leftStream (w : Nat) (carry : BitVec 2) (cur : Word) : Word := (cur >>> 2) ||| (carry.toNat <<< (w - 2))

/-- Select: `out = applyW(rule_q, Lw, Cw, Rw)` (R112). -/
def State.outWord (s : State) : Word :=
  applyW s.cfg.w s.ruleQ (leftStream s.cfg.w s.carry s.curWord) (centreStream s.cfg.w s.carry s.curWord) s.curWord

/-- Output mask: `new = out & vmask(NL, k)` with `NL = L + 2` (R113). -/
def State.newWord (s : State) : Word := s.outWord &&& vmask s.cfg.w (s.length + 2) s.k

/-- One word of a generation: write it to the back bank, carry two bits on, go to the next word (R107 to R115). -/
def State.pipeWord (s : State) : State := (s.memWrite s.k s.newWord).advance s.curWord

/-- `n` further words of a generation, in ascending index order (R115). -/
def State.pipeWords : Nat → State → State
  | 0, s => s
  | n + 1, s => State.pipeWords n s.pipeWord

/-- One generation: set-up, every new word, then `Swap(L + 2)` (R106, R115, R116). -/
def State.generation (s : State) : State :=
  (State.pipeWords (wordsFor s.cfg.w (s.length + 2)) s.startGeneration).swap (s.length + 2)

/-- `g` generations, each on the Row the previous one left; `gens_left` counts them down (R97, R102, R116). -/
def State.generations : Nat → State → State
  | 0, s => s
  | g + 1, s => State.generations g s.generation.countGeneration

end Sys2Proof.Machine
end

