-- ==== Sys2Proof/Machine/Stepper.lean ====
section
/-! DEFINITION. The command NEXT of GenerationStepper (42_generation_stepper.md R97 to R103). -/

namespace Sys2Proof.Machine

/-- NEXT (R97): the rule and the capacity are checked before the first generation, then all `gens` of them are
applied (R98, R100, R101). -/
def execNext (rule gens : Nat) (s : State) : Host.Outcome State Fault Refusal :=
  match nextStatus s.cfg s.length rule gens with
  | .ok => .next ((State.generations gens (s.loadNext rule gens)).respond 0)
  | e => .next (s.raise e)

end Sys2Proof.Machine
end

