-- ==== Sys2Proof/Machine/Framer.lean ====
section
/-! DEFINITION. The command framer (R26, R46, R48): the moves of a CONSTRUCT whose payload beats have not all been
presented (R73, R158), and how a command's beats come to stand where the step fetches them. -/

namespace Sys2Proof.Machine

/-- The header of a CONSTRUCT transfers while payload beats are still missing (R26, R48). -/
def State.acceptHeader (s : State) (n len : Nat) : State := (s.takeBeats s.cmdIn.tail).openConstruct n len

/-- While a CONSTRUCT is in progress: the next beat is its payload whatever its lanes hold (R48, R153), the last one
completes it, and where none is presented the block waits (R158, log 8). -/
def State.receive (s : State) : State :=
  if s.payloadLeft = 0 then s.closeConstruct
  else
    match s.cmdIn with
    | [] => s
    | d :: rest =>
      if s.payloadLeft = 1
      then ((s.takeBeats rest).acceptPayload (wLane s.cfg d)).closeConstruct
      else (s.takeBeats rest).acceptPayload (wLane s.cfg d)

/-- The block idle, out of reset, with exactly these beats presented: what the step needs to fetch a command. -/
def State.withBeats (s : State) (beats : List Beat) : State :=
  { s with rst := false, busy := false, rsp := none, cmdIn := beats }

end Sys2Proof.Machine
end

