-- ==== Sys2Proof/Machine/Step.lean ====
section
/-! DEFINITION. One step of the block. A step is the first of these that applies: reset while `rst = 1` (R147); the
transfer of a waiting response, or the wait for the host to take it (R46, R154); a beat of the CONSTRUCT in progress,
or the wait for it (R158); a whole command whose beats are presented (R46: a command is the unit); the header of a
CONSTRUCT whose payload is not all presented; the wait for a header. Timing is left out (R163, log 7). -/

namespace Sys2Proof.Machine

/-- The idle block fetches a command from the beats presented and runs it (R40, R46, R48). -/
def fetchAndRun (s : State) : Host.Outcome State Fault Refusal :=
  match decode s.cfg s.cmdIn with
  | .ok (i, rest) => exec i (s.takeBeats rest)
  | .error (.payloadOutstanding n len) => .next (s.acceptHeader n len)
  | .error .noHeader => .next s

/-- One step. -/
def step (s : State) : Host.Outcome State Fault Refusal :=
  if s.cfg.legal then
    if s.rst then .next s.resetEdge
    else
      match s.rsp with
      | some r => .next (if s.rspReady then s.deliver r else s)
      | none => if s.busy then .next s.receive else fetchAndRun s
  else .refused .illegalConfiguration

/-- The state with the instruction of an opcode-table word presented on the command channel of an idle block, every
bit above `nbits` zero: the very next step fetches and runs it (log 6, log 18). -/
def State.withFetchWord (s : State) (nbits w : Nat) : State := s.withBeats (tableBeats s.cfg nbits w)

end Sys2Proof.Machine
end

