-- ==== Sys2Proof/Machine/HostSide.lean ====
section
/-! DEFINITION. The host's side of the interface: what it may do between two steps (70_reset_and_hazards.md R151 to
R155), a command with its response as one unit (R46), and the pseudo-operations and procedures it builds from commands
(30_encoding.md R63 to R66, 44_rendering.md R122 to R126). -/

namespace Sys2Proof.Machine

/-! ### Between two steps -/

/-- The host presents further beats, after those it already presents (R46, R154). -/
def State.present (s : State) (beats : List Beat) : State := { s with cmdIn := s.cmdIn ++ beats }

/-- The host drives `rsp_ready` (R46, R154). -/
def State.setRspReady (s : State) (b : Bool) : State := { s with rspReady := b }

/-- The host drives `rst` (R147). -/
def State.setRst (s : State) (b : Bool) : State := { s with rst := b }

/-! ### A command with its response -/

/-- The host sends a command and takes its response (R46: the unit a model may work in). -/
def ask (i : Instr) (s : State) : Option (Response × State) :=
  match exec i s with
  | .next t => t.rsp.map fun r => (r, t.deliver r)
  | .fault _ => none
  | .refused _ => none

/-- The host sends commands one after another and takes their responses, in order (R40). -/
def askAll : List Instr → State → Option (List Response × State)
  | [], s => some ([], s)
  | i :: is, s => (ask i s).bind fun a => (askAll is a.2).map fun b => (a.1 :: b.1, b.2)

/-! ### Pseudo-operations -/

/-- `STEP rule` expands to `NEXT rule, 1` (R63). -/
def stepPseudo (rule : Nat) : Instr := .next rule 1

/-- `WORDCOUNT`: `LEN`, then the host computes `(val + W - 1) div W` (R64). -/
def wordCountPseudo (s : State) : Option (Nat × State) :=
  (ask .len s).map fun a => (ceilDiv a.1.val s.cfg.w, a.2)

/-- The character of a cell (R122, R123). -/
def digit (b : Bool) : Char := if b then '1' else '0'

/-- `TOBITSTRING`: `LEN`, then `GETB i` for every position in order, each bit a character (R65, R122). -/
def toBitString (s : State) : Option (List Char × State) :=
  (ask .len s).bind fun a =>
    (askAll ((List.range a.1.val).map .getb) a.2).map fun b => (b.1.map fun r => digit (r.val == 1), b.2)

/-- `SNAPSHOT`: `LEN`, then `GETW k` for every word in order; its result is `(words, length)` (R66, R45). -/
def snapshot (s : State) : Option (Row × State) :=
  (ask .len s).bind fun a =>
    (askAll ((List.range (ceilDiv a.1.val s.cfg.w)).map .getw) a.2).map fun b =>
      ({ length := a.1.val, words := b.1.map Response.val }, b.2)

/-- The equivalent expansion of `TOBITSTRING`: read the words and unpack them by R29, dropping padding bits (R65). -/
def toBitStringByWords (s : State) : Option (List Char × State) :=
  (snapshot s).map fun a => ((a.1.cells s.cfg.w).map digit, a.2)

/-- The command that replays a snapshot: `CONSTRUCT word_count, length, words` (R66, R45). -/
def replay (r : Row) : Instr := .construct r.words.length r.length r.words

/-! ### Seeding -/

/-- The payload words of a bit string, leftmost cell first, padding 0 (R126). -/
def seedWords (w : Nat) (cells : List Bool) : List Word :=
  (List.range (wordsFor w cells.length)).map fun k => packWord w fun t => cells.getD (k * w + t) false

/-- The CONSTRUCT that seeds the block with a bit string (R126). -/
def seed (w : Nat) (cells : List Bool) : Instr :=
  .construct (wordsFor w cells.length) cells.length (seedWords w cells)

end Sys2Proof.Machine
end

