-- ==== Sys2Proof/Machine/Assembler.lean ====
section
/-! DEFINITION. The assembler syntax (30_encoding.md R62, R63, R64): one command per line, operands decimal or `0x`
hexadecimal, separated by commas, a comment from `;` to the end of the line. DESIGN CHOICE (log 17): spaces and tabs
may stand between any two symbols, and mnemonics are written in capitals. -/

namespace Sys2Proof.Machine

/-- A symbol of a line. -/
inductive Symbol where
  | word (letters : List Char)
  | comma
  | leftBracket
  | rightBracket
deriving DecidableEq, Repr

/-- A word ends here, if one was being read. -/
def endWord (letters : List Char) (rest : List Symbol) : List Symbol :=
  if letters = [] then rest else .word letters :: rest

/-- The symbols of a line without its comment; `letters` is the word being read. A character no symbol begins with
makes the line no line. -/
def symbols : List Char → List Char → Option (List Symbol)
  | [], letters => some (endWord letters [])
  | c :: cs, letters =>
    if c = ' ' ∨ c = '\t' then (symbols cs []).map (endWord letters)
    else if c = ',' then (symbols cs []).map fun r => endWord letters (.comma :: r)
    else if c = '[' then (symbols cs []).map fun r => endWord letters (.leftBracket :: r)
    else if c = ']' then (symbols cs []).map fun r => endWord letters (.rightBracket :: r)
    else if c.isAlphanum then symbols cs (letters ++ [c])
    else none

/-- The value of a decimal digit. -/
def decimalDigit (c : Char) : Option Nat := if c.isDigit then some (c.toNat - 48) else none

/-- The value of a hexadecimal digit. -/
def hexDigit (c : Char) : Option Nat :=
  if c.isDigit then some (c.toNat - 48)
  else if 'A'.toNat ≤ c.toNat ∧ c.toNat ≤ 'F'.toNat then some (c.toNat - 55)
  else if 'a'.toNat ≤ c.toNat ∧ c.toNat ≤ 'f'.toNat then some (c.toNat - 87)
  else none

/-- The number the digits write in a base. -/
def numeral (base : Nat) (digitOf : Char → Option Nat) (cs : List Char) : Option Nat :=
  cs.foldl (fun acc c => acc.bind fun n => (digitOf c).map fun d => base * n + d) (some 0)

/-- An operand: decimal, or `0x` and hexadecimal (R62). -/
def operand : List Char → Option Nat
  | '0' :: 'x' :: c :: cs => numeral 16 hexDigit (c :: cs)
  | c :: cs => numeral 10 decimalDigit (c :: cs)
  | [] => none

/-- The payload list, after its opening bracket, to the end of the line. -/
def payloadList : List Symbol → Option (List Word)
  | [.word v, .rightBracket] => (operand v).map fun x => [x]
  | .word v :: .comma :: rest => (operand v).bind fun x => (payloadList rest).map (x :: ·)
  | _ => none

/-- The command a line's symbols write (R62 to R64): the five mnemonics, the aliases BITMAP and GENSIZE, and the
pseudo-operations STEP and WORDCOUNT, which expand to one command. -/
def commandOf : List Symbol → Option Instr
  | [.word m] =>
    if m = ['L', 'E', 'N'] ∨ m = ['G', 'E', 'N', 'S', 'I', 'Z', 'E'] ∨
      m = ['W', 'O', 'R', 'D', 'C', 'O', 'U', 'N', 'T'] then some .len else none
  | [.word m, .word x] =>
    (operand x).bind fun a =>
      if m = ['G', 'E', 'T', 'W'] ∨ m = ['B', 'I', 'T', 'M', 'A', 'P'] then some (.getw a)
      else if m = ['G', 'E', 'T', 'B'] then some (.getb a)
      else if m = ['S', 'T', 'E', 'P'] then some (stepPseudo a)
      else none
  | [.word m, .word x, .comma, .word y] =>
    if m = ['N', 'E', 'X', 'T'] then (operand x).bind fun a => (operand y).map fun b => .next a b else none
  | .word m :: .word x :: .comma :: .word y :: .comma :: .leftBracket :: rest =>
    if m = ['C', 'O', 'N', 'S', 'T', 'R', 'U', 'C', 'T'] then
      (operand x).bind fun n => (operand y).bind fun len =>
        (if rest = [.rightBracket] then some [] else payloadList rest).map fun p => .construct n len p
    else none
  | _ => none

/-- The assembler's checks (R62): a command that passes them is emitted, any other is rejected. -/
def emitIfWellFormed (c : Config) (i : Instr) : Option (List Instr) := if WellFormed c i then some [i] else none

/-- Words separated by commas, as the payload bracket holds them (R62). -/
def joinComma : List (List Char) → List Char
  | [] => []
  | [v] => v
  | v :: u :: rest => v ++ ',' :: joinComma (u :: rest)

/-- Assemble one line: the commands it writes (none for an empty line), or nothing where R62 rejects it: no command,
a bracket that does not hold exactly `n` words, an operand that does not fit `AW` bits, a word that does not fit `W`. -/
def assembleLine (c : Config) (line : List Char) : Option (List Instr) :=
  (symbols (line.takeWhile (· ≠ ';')) []).bind fun ss =>
    if ss = [] then some [] else (commandOf ss).bind (emitIfWellFormed c)

/-- The beats of one line. -/
def assembleBeats (c : Config) (line : List Char) : Option (List Beat) :=
  (assembleLine c line).map fun is => is.flatMap (encode c)

end Sys2Proof.Machine
end

