-- ==== Sys2Proof/Machine/Cost.lean ====
section
/-! DEFINITION. The word operations a command makes on the banks, in order (43_word_pipeline.md R120,
70_reset_and_hazards.md R161). They are no state of the block, and clocks are left out (R162, R163). -/

namespace Sys2Proof.Machine

/-- One access to a bank. -/
inductive Access where
  /-- `MemRead(k, 1)`. -/
  | read (k : Nat)
  /-- `MemWrite(k, 1, _)`. -/
  | write (k : Nat)
deriving DecidableEq, Repr

/-- The access is a read. -/
def Access.isRead : Access → Bool
  | .read _ => true
  | .write _ => false

/-- The accesses of one word of a generation: the fetch, unless the word is beyond the old Row, and the write
(R107, R115). -/
def State.pipeWordAccesses (s : State) : List Access :=
  (if s.k < s.wordCount then [.read s.k] else []) ++ [.write s.k]

/-- The accesses of `n` further words of a generation. -/
def State.pipeAccesses : Nat → State → List Access
  | 0, _ => []
  | n + 1, s => s.pipeWordAccesses ++ State.pipeAccesses n s.pipeWord

/-- The accesses of one generation (R116, R120). -/
def State.generationAccesses (s : State) : List Access :=
  State.pipeAccesses (wordsFor s.cfg.w (s.length + 2)) s.startGeneration

/-- The accesses of `g` generations (R161). -/
def State.generationsAccesses : Nat → State → List Access
  | 0, _ => []
  | g + 1, s => s.generationAccesses ++ State.generationsAccesses g s.generation.countGeneration

/-- The accesses of a command (R161): a failing command makes none, a read command at most one. -/
def accesses (i : Instr) (s : State) : List Access :=
  match i with
  | .construct n len _ =>
    if constructStatus s.cfg n len = .ok then (List.range (wordsFor s.cfg.w len)).map .write else []
  | .next rule gens =>
    if nextStatus s.cfg s.length rule gens = .ok then State.generationsAccesses gens (s.loadNext rule gens) else []
  | .getw idx => if getwStatus s.cfg s.length idx = .ok then [.read idx] else []
  | .getb i => if getbStatus s.length i = .ok then [.read (wordOf s.cfg.w i)] else []
  | .len => []
  | .reserved0 => []
  | .reserved6 => []
  | .reserved7 => []
  | .reserved8 => []
  | .reserved9 => []
  | .reservedA => []
  | .reservedB => []
  | .reservedC => []
  | .reservedD => []
  | .reservedE => []
  | .reservedF => []

end Sys2Proof.Machine
end

