-- ==== Sys2Proof/Machine/Generation.lean ====
section
/-! DEFINITION. The normative meaning of a generation, cell by cell (42_generation_stepper.md R89 to R96). The
datapath the machine runs is Machine/Pipeline.lean; that the two agree is R117, an obligation. -/

namespace Sys2Proof.Machine

/-- `cell'(j) = apply(rule, bit(j-2), bit(j-1), bit(j))`, the cell at position `j` of the new Row (R91). -/
def Row.nextCell (w : Nat) (rule : BitVec 8) (r : Row) (j : Nat) : Bool :=
  apply rule (r.bit w ((j : Int) - 2)) (r.bit w ((j : Int) - 1)) (r.bit w (j : Int))

/-- Word `k` of the new Row: its cells packed by R29, its padding bits 0 (R94). -/
def Row.nextWord (w : Nat) (rule : BitVec 8) (r : Row) (k : Nat) : Word :=
  packWord w fun t => decide (k * w + t ≤ r.length + 1) && r.nextCell w rule (k * w + t)

/-- `step(Row, rule)`: the new Row, two cells longer, every cell computed from the old Row (R89, R90, R94). -/
def Row.step (w : Nat) (rule : BitVec 8) (r : Row) : Row :=
  { length := r.length + 2
    words := (List.range (wordsFor w (r.length + 2))).map (r.nextWord w rule) }

/-- `step_n(Row, rule, g)`: the generations are applied one after another, each on the Row the previous one
produced (R97, R102). -/
def Row.stepN (w : Nat) (rule : BitVec 8) : Nat → Row → Row
  | 0, r => r
  | g + 1, r => Row.stepN w rule g (r.step w rule)

end Sys2Proof.Machine
end

