-- ==== Sys2Proof/Safety.lean ====
section
/-! DEFINITION. What counts as a sound state and a safe step, in the terms the statements use. -/

namespace Sys2Proof.Machine

/-- A response as the block produces it: its value fits `VW` bits, and an error's value is 0 (R60). -/
def Response.wf (c : Config) (r : Response) : Bool := fits c.vw r.val && (r.status == .ok || r.val == 0)

/-- The invariant of the block: what is true of every state a run reaches. -/
structure State.Inv (s : State) : Prop where
  /-- The parameters satisfy R6 to R8. -/
  legal : s.cfg.legal = true
  /-- `length <= CAPBITS` (R14). -/
  length_le : s.length ≤ s.cfg.capBits
  /-- `bank[0]` is canonical, within `MAXWORDS` words of `W` bits (R19). -/
  bank0_wf : Bank.wf s.cfg s.bank0 = true
  /-- `bank[1]` likewise (R19). -/
  bank1_wf : Bank.wf s.cfg s.bank1 = true
  /-- The word counter stays within the bank (R21). -/
  k_le : s.k ≤ s.cfg.maxWords
  /-- The registers that copy operands fit `AW` bits (R21, R26). -/
  gensLeft_fits : fits s.cfg.aw s.gensLeft = true
  nQ_fits : fits s.cfg.aw s.nQ = true
  lenQ_fits : fits s.cfg.aw s.lenQ = true
  /-- No more payload is awaited than the header asked for (R26). -/
  payloadLeft_le : s.payloadLeft ≤ s.nQ
  /-- No payload is awaited by an idle block or while a response waits (R26, R46). -/
  quiet : s.busy = false ∨ s.rsp.isSome = true → s.payloadLeft = 0
  /-- A response waits only while its command is in flight (R26, R46). -/
  answering : s.rsp.isSome = true → s.busy = true
  /-- A command in flight without a response is a CONSTRUCT that awaits payload (R46, R158). -/
  receiving : s.busy = true → s.rsp = none → 0 < s.payloadLeft
  /-- `keep` says whether that CONSTRUCT passed its checks (R26, R73). -/
  keep_eq : s.busy = true → s.rsp = none → s.keep = (constructStatus s.cfg s.nQ s.lenQ == .ok)
  /-- The waiting response and those taken are as R60 says. -/
  rsp_wf : s.rsp.all (Response.wf s.cfg) = true
  delivered_wf : s.delivered.all (Response.wf s.cfg) = true

/-- A safe outcome: neither a fault nor a refusal. -/
def Safe (o : Host.Outcome State Fault Refusal) : Prop := ∃ t, o = .next t

/-- Two states a command cannot tell apart: the same block, the same `length`, the same words (R13, R19). -/
def ArchEq (s t : State) : Prop :=
  s.cfg = t.cfg ∧ s.length = t.length ∧ ∀ k, k < s.wordCount → s.memRead k = t.memRead k

/-- `k` steps, stopping at the first fault or refusal (`Host.Core.run` of the machine, in the model's own types). -/
def runSteps : Nat → State → Host.Outcome State Fault Refusal
  | 0, s => .next s
  | k + 1, s =>
    match step s with
    | .next t => runSteps k t
    | .fault r => .fault r
    | .refused r => .refused r

/-- The block idle and out of reset, its host ready to take responses and presenting nothing. -/
def State.Idle (s : State) : Prop :=
  s.rst = false ∧ s.rspReady = true ∧ s.busy = false ∧ s.rsp = none ∧ s.cmdIn = []

end Sys2Proof.Machine
end

