-- ==== Sys2Proof/Certificates/Slice0/Obligations.lean ====
section
/-! DEFINITION. The statements about the model, from the numbered rules of the spec. Unless one says otherwise a
statement is about every state, also those no run reaches, and about every configuration. Where a next state is
written `t = { s with ... }`, it is the whole frame: every field not named there is unchanged. -/

open Sys2Proof Sys2Proof.Machine

/-! ### Encoding -/

/-- Decoding the beats of a well-formed command gives that command and leaves the beats after it (R48 to R56, R59). -/
def Obligations.DecodeOfEncodeIsTheCommand : Prop :=
  ∀ (c : Config) (i : Instr) (rest : List Beat), WellFormed c i = true → decode c (encode c i ++ rest) = .ok (i, rest)

/-- The beats of a well-formed command are `BW` bits wide, as many as its header says, and the header's opcode is the
command's (R47, R49, R59). -/
def Obligations.EncodedBeatsFitTheChannel : Prop :=
  ∀ (c : Config) (i : Instr), WellFormed c i = true →
    (∀ d ∈ encode c i, d < 2 ^ c.bw) ∧
    (encode c i).length = lenBeats c ((encode c i).headD 0) ∧ opLane ((encode c i).headD 0) = i.opcode

/-- R59: a decoder tells the length of a command from its header alone: `1 + a` beats for opcode `0x1`, 1 beat for every
other opcode; whatever else the beats hold, it consumes exactly those and answers a command of that opcode. -/
def Obligations.HeaderAloneTellsTheLength : Prop :=
  ∀ (c : Config) (h : Beat) (rest : List Beat),
    (opLane h = 0x1 → lenBeats c h = 1 + aLane c h) ∧ (opLane h ≠ 0x1 → lenBeats c h = 1) ∧ aLane c h ≤ 2 ^ c.aw - 1 ∧
    (lenBeats c h ≤ 1 + rest.length →
      ∃ i, decode c (h :: rest) = .ok (i, rest.drop (lenBeats c h - 1)) ∧ i.opcode = opLane h) ∧
    (1 + rest.length < lenBeats c h →
      decode c (h :: rest) = .error (.payloadOutstanding (aLane c h) (bLane c h)))

/-- R56: beats that differ only in lanes their command ignores are the same command: `w` in a header, `b` in GETW and
GETB, `a` and `b` in LEN and in the reserved opcodes, all but `w` in a payload beat. -/
def Obligations.IgnoredLanesDoNotMatter : Prop :=
  ∀ (c : Config) (h h' : Beat) (rest rest' : List Beat), opLane h = opLane h' →
    (opLane h = 0x1 ∨ opLane h = 0x2 ∨ opLane h = 0x3 ∨ opLane h = 0x4 → aLane c h = aLane c h') →
    (opLane h = 0x1 ∨ opLane h = 0x2 → bLane c h = bLane c h') →
    rest.map (wLane c) = rest'.map (wLane c) →
    (decode c (h :: rest)).map Prod.fst = (decode c (h' :: rest')).map Prod.fst

/-- Words of 95_test_vectors.md section 3, in `REF8`, decode to the commands they stand for. -/
def Obligations.VectorWordsDecode : Prop :=
  decode .ref8 [0x00000100011, 0x80000000000] = .ok (.construct 1 1 [0x80], []) ∧
  decode .ref8 [0x000004001E2] = .ok (.next 30 4, []) ∧
  decode .ref8 [0x00000000013] = .ok (.getw 1, []) ∧
  decode .ref8 [0x000000000C4] = .ok (.getb 12, []) ∧
  decode .ref8 [0xAB567812345] = .ok (.len, []) ∧
  decode .ref8 [0x00000000007] = .ok (.reserved7, []) ∧
  encode .ref8 (.construct 2 9 [0xC8, 0x80]) = [0x00000900021, 0xC8000000000, 0x80000000000]

/-- Every line the assembler accepts is at most one command, and a well-formed one (R62). -/
def Obligations.AssembledLinesAreWellFormed : Prop :=
  ∀ (c : Config) (line : List Char) (is : List Instr), assembleLine c line = some is →
    is.length ≤ 1 ∧ ∀ i ∈ is, WellFormed c i = true

/-- R62 to R64, the positive side: a line of one of the forms, whatever the spelling of its operands (decimal or `0x`),
assembles to its command exactly if the checks of R62 pass, and is rejected otherwise; a rule above 255, an index out of
range and `len > W*n` are no such check. The aliases BITMAP and GENSIZE assemble to the beats of GETW and LEN, STEP to NEXT
with one generation, and a comment changes nothing. The one space after the mnemonic is the model's choice (log 17). -/
def Obligations.AssemblerAcceptsExactlyTheWellFormed : Prop :=
  ∀ (c : Config) (x y : List Char) (a b : Nat), operand x = some a → operand y = some b →
    assembleLine c (['N', 'E', 'X', 'T', ' '] ++ x ++ ',' :: y) = emitIfWellFormed c (.next a b) ∧
    assembleLine c (['G', 'E', 'T', 'W', ' '] ++ x) = emitIfWellFormed c (.getw a) ∧
    assembleLine c (['B', 'I', 'T', 'M', 'A', 'P', ' '] ++ x) = emitIfWellFormed c (.getw a) ∧
    assembleLine c (['G', 'E', 'T', 'B', ' '] ++ x) = emitIfWellFormed c (.getb a) ∧
    assembleLine c (['S', 'T', 'E', 'P', ' '] ++ x) = emitIfWellFormed c (.next a 1) ∧
    assembleLine c ['L', 'E', 'N'] = some [.len] ∧
    assembleBeats c ['G', 'E', 'N', 'S', 'I', 'Z', 'E'] = some (encode c .len) ∧
    (a < 2 ^ c.aw → assembleBeats c (['B', 'I', 'T', 'M', 'A', 'P', ' '] ++ x) = some (encode c (.getw a))) ∧
    (a < 2 ^ c.aw → b < 2 ^ c.aw →
      assembleBeats c (['N', 'E', 'X', 'T', ' '] ++ x ++ ',' :: y) = some (encode c (.next a b))) ∧
    (∀ (words : List (List Char)) (p : List Word), words.map operand = p.map some →
      assembleLine c (['C', 'O', 'N', 'S', 'T', 'R', 'U', 'C', 'T', ' '] ++ x ++ ',' :: y ++ ',' :: '[' ::
        (joinComma words ++ [']'])) = emitIfWellFormed c (.construct a b p)) ∧
    ∀ line comment, assembleLine c (line ++ ';' :: comment) = assembleLine c line

/-- R61 and R60: a response beat is `status | (val << 3)` with the codes 0 to 5, and fits `RW` bits; the two lanes are
read back from it. -/
def Obligations.ResponseBeatHoldsStatusAndValue : Prop :=
  Status.code .ok = 0 ∧ Status.code .invalidRule = 1 ∧ Status.code .outOfRange = 2 ∧
  Status.code .invalidConstruction = 3 ∧ Status.code .capacityExceeded = 4 ∧ Status.code .illegalCommand = 5 ∧
  ∀ (c : Config) (r : Response), r.val < 2 ^ c.vw →
    r.beat < 2 ^ c.rw ∧ r.beat % 8 = r.status.code ∧ r.beat >>> 3 = r.val

/-! ### The rule function and the word operations -/

/-- R86 with R81: `apply` reads bit `4l + 2c + r` of the rule, and the rule is the sum of its eight table entries. -/
def Obligations.ApplyReadsTheTruthTable : Prop :=
  ∀ rule : BitVec 8,
    (∀ l c r : Bool, apply rule l c r =
      decide ((rule.toNat >>> (l.toNat * 4 + c.toNat * 2 + r.toNat)) % 2 = 1)) ∧
    rule.toNat = ((List.range 8).map fun idx =>
      (apply rule (idx.testBit 2) (idx.testBit 1) (idx.testBit 0)).toNat * 2 ^ idx).sum

/-- R112: integer bit `j` of the word-wide select is `apply` of the same bit of the three streams, and the result is a
word of `W` bits. -/
def Obligations.WordSelectIsApplyOnEveryBit : Prop :=
  ∀ (w : Nat) (rule : BitVec 8) (lw cw rw : Word), lw < 2 ^ w → cw < 2 ^ w → rw < 2 ^ w →
    applyW w rule lw cw rw < 2 ^ w ∧
    ∀ j, j < w → (applyW w rule lw cw rw).testBit j = apply rule (lw.testBit j) (cw.testBit j) (rw.testBit j)

/-- R38: `vmask(L, k)` has ones exactly at the cell bits of word `k`; it is all ones for the words before the last, and
0 at and beyond the word count. -/
def Obligations.VmaskMarksTheCells : Prop :=
  ∀ w len k : Nat, 0 < w →
    vmask w len k < 2 ^ w ∧
    (∀ t, t < w → (vmask w len k).testBit (w - 1 - t) = decide (k * w + t < len)) ∧
    (k < len / w → vmask w len k = ones w) ∧ (wordsFor w len ≤ k → vmask w len k = 0)

/-- R90: a generation makes the Row two cells longer, hence of `ceil((length + 2) / W)` words: as many as before or one
more, and one more exactly when `length mod W` is 0 or `W - 1`. -/
def Obligations.WordCountGrowsAtTheSeams : Prop :=
  ∀ s : State, 2 ≤ s.cfg.w →
    s.generation.length = s.length + 2 ∧ s.generation.wordCount = (s.length + 2 + s.cfg.w - 1) / s.cfg.w ∧
    s.generation.wordCount =
      if s.length % s.cfg.w = 0 ∨ s.length % s.cfg.w = s.cfg.w - 1 then s.wordCount + 1 else s.wordCount

/-- R109 to R111: while word `k` of a generation is produced, integer bit `W-1-t` of the right, centre and left streams is
the cell of the old Row at `kW + t`, `kW + t - 1` and `kW + t - 2`, 0 outside the Row. -/
def Obligations.StreamsHoldTheNeighbours : Prop :=
  ∀ (s u : State) (k t : Nat), 2 ≤ s.cfg.w → t < s.cfg.w → u = State.pipeWords k s.startGeneration →
    u.curWord.testBit (s.cfg.w - 1 - t) = s.bit ((k * s.cfg.w + t : Nat) : Int) ∧
    (centreStream s.cfg.w u.carry u.curWord).testBit (s.cfg.w - 1 - t) = s.bit (((k * s.cfg.w + t : Nat) : Int) - 1) ∧
    (leftStream s.cfg.w u.carry u.curWord).testBit (s.cfg.w - 1 - t) = s.bit (((k * s.cfg.w + t : Nat) : Int) - 2)

/-! ### CONSTRUCT, GETB, GETW, LEN and the reserved opcodes -/

/-- R68, R70, R71: a CONSTRUCT that passes its checks leaves exactly the words it was given, verbatim and without the
surplus, and its length; it writes only the back bank, which becomes the front bank. What it leaves in the framer's dead
registers is the model's reading (log 15). -/
def Obligations.ConstructReplacesTheRow : Prop :=
  ∀ (n len : Nat) (p : List Word) (s : State), p.length = n → (∀ v ∈ p, v < 2 ^ s.cfg.w) →
    len ≤ s.cfg.w * n → wordsFor s.cfg.w len ≤ s.cfg.maxWords →
    ∃ t, exec (.construct n len p) s = .next t ∧
      t = { s with
        length := len, front := !s.front, bank0 := t.bank0, bank1 := t.bank1, busy := true, payloadLeft := 0,
        nQ := n, lenQ := len, keep := true, rsp := some { status := .ok, val := 0 } } ∧
      t.wordCount = wordsFor s.cfg.w len ∧ (∀ k, k < wordsFor s.cfg.w len → t.memRead k = p.getD k 0) ∧
      t.bank s.front = s.bank s.front ∧
      ∀ k, wordsFor s.cfg.w len ≤ k → Bank.read (t.bank (!s.front)) k = Bank.read (s.bank (!s.front)) k

/-- R69, R72, R73: a CONSTRUCT fails with InvalidConstruction when `len > W * n`, with CapacityExceeded when the product
suffices but the words do not fit, and then writes nothing to either bank and leaves the Row as it was. What it leaves in
the framer's dead registers is the model's reading (log 15). -/
def Obligations.FailedConstructWritesNothing : Prop :=
  ∀ (n len : Nat) (p : List Word) (s : State) (e : Status), p.length = n →
    (e = .invalidConstruction ∧ s.cfg.w * n < len ∨
      e = .capacityExceeded ∧ len ≤ s.cfg.w * n ∧ s.cfg.maxWords < wordsFor s.cfg.w len) →
    exec (.construct n len p) s = .next
      { s with
        busy := true, payloadLeft := 0, nQ := n, lenQ := len, keep := false,
        rsp := some { status := e, val := 0 } }

/-- R75: GETB answers OutOfRange at and beyond `length`, and below it the cell, and changes nothing else. -/
def Obligations.GetbReadsOneCell : Prop :=
  ∀ (i : Nat) (s : State),
    (s.length ≤ i → exec (.getb i) s = .next { s with busy := true, rsp := some { status := .outOfRange, val := 0 } }) ∧
    (0 < s.cfg.w → s.length ≤ s.cfg.capBits → i < s.length →
      (s.memRead (i / s.cfg.w) >>> (s.cfg.w - 1 - i % s.cfg.w)) &&& 1 = (s.cell i).toNat ∧
      exec (.getb i) s = .next
        { s with
          busy := true
          rsp := some { status := .ok, val := (s.memRead (i / s.cfg.w) >>> (s.cfg.w - 1 - i % s.cfg.w)) &&& 1 } })

/-- R76: GETW answers OutOfRange at and beyond `word_count`, and below it the word as stored, and changes nothing
else. -/
def Obligations.GetwReadsOneWord : Prop :=
  ∀ (idx : Nat) (s : State),
    (s.wordCount ≤ idx →
      exec (.getw idx) s = .next { s with busy := true, rsp := some { status := .outOfRange, val := 0 } }) ∧
    (0 < s.cfg.w → s.length ≤ s.cfg.capBits → idx < s.wordCount →
      exec (.getw idx) s = .next { s with busy := true, rsp := some { status := .ok, val := s.memRead idx } })

/-- R77: LEN answers the length register, in every state, and changes nothing else. -/
def Obligations.LenReadsTheLength : Prop :=
  ∀ s : State, exec .len s = .next { s with busy := true, rsp := some { status := .ok, val := s.length } }

/-- The model's choice (log 12): a read of a bank word that no bank has, which only a state beyond R14 can ask for,
faults. -/
def Obligations.ReadsBeyondTheBankFault : Prop :=
  ∀ (idx : Nat) (s : State), s.cfg.maxWords ≤ idx →
    (idx < s.wordCount → exec (.getw idx) s = .fault (.bankIndexBeyondCapacity idx)) ∧
    ∀ i, i < s.length → i / s.cfg.w = idx → exec (.getb i) s = .fault (.bankIndexBeyondCapacity idx)

/-- R80: GETB and GETW agree on every cell of the Row, and the GETW cannot fail. -/
def Obligations.GetbAgreesWithGetw : Prop :=
  ∀ (i : Nat) (s : State), 0 < s.cfg.w → s.length ≤ s.cfg.capBits → i < s.length →
    i / s.cfg.w < s.wordCount ∧
    ∃ tb tw word, exec (.getw (i / s.cfg.w)) s = .next tw ∧ tw.rsp = some { status := .ok, val := word } ∧
      exec (.getb i) s = .next tb ∧
      tb.rsp = some { status := .ok, val := (word >>> (s.cfg.w - 1 - i % s.cfg.w)) &&& 1 }

/-- R57: each of the eleven reserved opcodes is a one-beat command, whatever its other lanes hold, that fails with
IllegalCommand and changes no state. -/
def Obligations.ReservedOpcodesFail : Prop :=
  Status.code .illegalCommand = 5 ∧ (∀ (i : Instr) (s : State), i.isReserved = true →
    exec i s = .next { s with busy := true, rsp := some { status := .illegalCommand, val := 0 } }) ∧
  ∀ (c : Config) (h : Beat) (rest : List Beat), opLane h = 0x0 ∨ 0x6 ≤ opLane h →
    ∃ i, i.isReserved = true ∧ decode c (h :: rest) = .ok (i, rest)

/-- R36: the read commands change no state a command can observe, and answer the same when repeated. -/
def Obligations.ReadsHaveNoSideEffect : Prop :=
  ∀ (i : Instr) (s s1 : State) (r : Response), ((∃ idx, i = .getw idx) ∨ (∃ j, i = .getb j) ∨ i = .len) →
    ask i s = some (r, s1) →
    s1 = { s with busy := false, rsp := none, delivered := s.delivered ++ [r] } ∧
    ∃ s2, ask i s1 = some (r, s2) ∧ s2.row = s.row

/-! ### NEXT -/

/-- R98 and R100: NEXT fails with InvalidRule exactly when the rule is above 255, and with CapacityExceeded exactly when
it is not and `length + 2*G > CAPBITS`; no generation is applied and nothing but the answer changes (of the dead registers
`rule_q` and `gens_left` nothing is said here, log 13). -/
def Obligations.NextIsCheckedBeforeAnyGeneration : Prop :=
  ∀ (rule gens : Nat) (s : State),
    (255 < rule → ∃ t, exec (.next rule gens) s = .next t ∧ t = { s with
      ruleQ := t.ruleQ, gensLeft := t.gensLeft, busy := true, rsp := some { status := .invalidRule, val := 0 } }) ∧
    (rule ≤ 255 → s.cfg.capBits < s.length + 2 * gens → ∃ t, exec (.next rule gens) s = .next t ∧ t = { s with
      ruleQ := t.ruleQ, gensLeft := t.gensLeft, busy := true, rsp := some { status := .capacityExceeded, val := 0 } }) ∧
    (rule ≤ 255 → s.length + 2 * gens ≤ s.cfg.capBits →
      ∃ t, exec (.next rule gens) s = .next t ∧ t.rsp = some { status := .ok, val := 0 })

/-- R99: `NEXT rule, 0` with a valid rule succeeds and changes nothing but the answer: it performs no Swap. Of the dead
registers `rule_q` and `gens_left` nothing is said here (log 13). -/
def Obligations.NextZeroIsIdentity : Prop :=
  ∀ (rule : Nat) (s : State), rule ≤ 255 → s.length ≤ s.cfg.capBits →
    ∃ t, exec (.next rule 0) s = .next t ∧ t.row = s.row ∧ t.front = s.front ∧
      t = { s with
        ruleQ := t.ruleQ, gensLeft := t.gensLeft, busy := true, rsp := some { status := .ok, val := 0 } }

/-- R117: the Row the datapath leaves is, word for word, the Row of the cell-by-cell definition (R90, R91, R94), for
every Row, whatever its padding bits hold. -/
def Obligations.GenerationMatchesTheCells : Prop :=
  ∀ s : State, 2 ≤ s.cfg.w → s.generation.row = s.row.step s.cfg.w s.ruleQ

/-- R97: NEXT that passes its checks applies exactly `G` generations of the cell-by-cell definition to the Row, and
answers 0; beyond the last word count it writes no bank word. `rule_q` and `gens_left` hold what R21 has NEXT load and
count down; that they keep it afterwards is the model's choice (log 13). -/
def Obligations.NextAppliesTheGenerations : Prop :=
  ∀ (rule gens : Nat) (s : State), 2 ≤ s.cfg.w → rule ≤ 255 → s.length + 2 * gens ≤ s.cfg.capBits →
    ∃ t, exec (.next rule gens) s = .next t ∧
      t.row = Row.stepN s.cfg.w (BitVec.ofNat 8 rule) gens s.row ∧
      t = { s with
        length := s.length + 2 * gens, front := if gens % 2 = 0 then s.front else !s.front,
        bank0 := t.bank0, bank1 := t.bank1, carry := t.carry, k := t.k, gensLeft := 0, ruleQ := BitVec.ofNat 8 rule,
        busy := true, rsp := some { status := .ok, val := 0 } } ∧
      ∀ (b : Bool) (j : Nat), wordsFor s.cfg.w (s.length + 2 * gens) ≤ j →
        Bank.read (t.bank b) j = Bank.read (s.bank b) j

/-- R91: after one generation the cell at new position `j` is `apply(rule, bit(j-2), bit(j-1), bit(j))` of the old Row,
which itself stands unwritten in the former front bank (R115). -/
def Obligations.NewCellsFollowTheRule : Prop :=
  ∀ (rule : Nat) (s : State), 2 ≤ s.cfg.w → rule ≤ 255 → s.length + 2 ≤ s.cfg.capBits →
    ∃ t, exec (.next rule 1) s = .next t ∧ t.length = s.length + 2 ∧ t.bank s.front = s.bank s.front ∧
      ∀ j, j ≤ s.length + 1 →
        t.cell j = apply (BitVec.ofNat 8 rule) (s.bit ((j : Int) - 2)) (s.bit ((j : Int) - 1)) (s.bit (j : Int))

/-- R93 and R96: the two outermost new cells are computed from the rule's table entries: from the old outermost cells,
and from nothing but zeros where the Row was empty. -/
def Obligations.BoundaryCellsAreComputed : Prop :=
  ∀ (rule : Nat) (s : State), 2 ≤ s.cfg.w → rule ≤ 255 → s.length + 2 ≤ s.cfg.capBits →
    ∃ t, exec (.next rule 1) s = .next t ∧ t.length = s.length + 2 ∧
      (0 < s.length →
        t.cell 0 = apply (BitVec.ofNat 8 rule) false false (s.cell 0) ∧
        t.cell (s.length + 1) = apply (BitVec.ofNat 8 rule) (s.cell (s.length - 1)) false false) ∧
      (s.length = 0 → t.cell 0 = decide (rule % 2 = 1) ∧ t.cell 1 = decide (rule % 2 = 1))

/-- R94 (padding): after at least one generation every padding bit of the last word is 0: no word has a bit outside
`vmask`. -/
def Obligations.PaddingAfterAGenerationIsZero : Prop :=
  ∀ (rule gens : Nat) (s : State), 2 ≤ s.cfg.w → rule ≤ 255 → 0 < gens → s.length + 2 * gens ≤ s.cfg.capBits →
    ∃ t, exec (.next rule gens) s = .next t ∧
      ∀ k, k < t.wordCount → t.memRead k &&& vmask s.cfg.w t.length k = t.memRead k

/-- R108, R18: padding bits never become cells: two Rows with the same cells, whatever their padding, are taken to the
same Row by at least one generation. -/
def Obligations.PaddingNeverBecomesACell : Prop :=
  ∀ (rule gens : Nat) (s s' : State), 2 ≤ s.cfg.w → s.cfg = s'.cfg → s.length = s'.length →
    (∀ i, i < s.length → s.cell i = s'.cell i) → rule ≤ 255 → 0 < gens → s.length + 2 * gens ≤ s.cfg.capBits →
    ∃ t t', exec (.next rule gens) s = .next t ∧ exec (.next rule gens) s' = .next t' ∧ t.row = t'.row

/-- R102: `NEXT rule, a` then `NEXT rule, b` leave the same Row as `NEXT rule, a+b` where the capacity allows `a+b`;
where it allows only `a`, the pair applies `a` generations and the single command none. -/
def Obligations.GenerationsAdd : Prop :=
  ∀ (rule a b : Nat) (s : State), rule ≤ 255 → s.length + 2 * a ≤ s.cfg.capBits →
    ∃ t u v, exec (.next rule a) s = .next t ∧ exec (.next rule b) t = .next u ∧ exec (.next rule (a + b)) s = .next v ∧
      t.rsp = some { status := .ok, val := 0 } ∧
      (s.length + 2 * (a + b) ≤ s.cfg.capBits →
        u.rsp = some { status := .ok, val := 0 } ∧ v.rsp = some { status := .ok, val := 0 } ∧ u.row = v.row) ∧
      (s.cfg.capBits < s.length + 2 * (a + b) →
        u.rsp = some { status := .capacityExceeded, val := 0 } ∧ u.row = t.row ∧
        v.rsp = some { status := .capacityExceeded, val := 0 } ∧ v.row = s.row)

/-- R79: after a successful CONSTRUCT, LEN returns its length; after a further successful `NEXT rule, g`, that length
plus `2*g`. -/
def Obligations.LengthIsSeedPlusTwoPerGeneration : Prop :=
  ∀ (n len rule gens : Nat) (p : List Word) (s : State), p.length = n → len ≤ s.cfg.w * n →
    wordsFor s.cfg.w len ≤ s.cfg.maxWords → rule ≤ 255 → len + 2 * gens ≤ s.cfg.capBits →
    ∃ r1 r2 r3 r4 t, askAll [.construct n len p, .len, .next rule gens, .len] s = some ([r1, r2, r3, r4], t) ∧
      r1 = { status := .ok, val := 0 } ∧ r2 = { status := .ok, val := len } ∧
      r3 = { status := .ok, val := 0 } ∧ r4 = { status := .ok, val := len + 2 * gens }

/-- R160: from a Row within the capacity, `g` generations under a valid rule are possible exactly up to
`(CAPBITS - L0) div 2`. -/
def Obligations.GenerationsPossibleUpToCapacity : Prop :=
  ∀ (rule gens : Nat) (s : State), rule ≤ 255 → s.length ≤ s.cfg.capBits →
    ((∃ t, exec (.next rule gens) s = .next t ∧ t.rsp = some { status := .ok, val := 0 }) ↔
      gens ≤ (s.cfg.capBits - s.length) / 2)

/-- R55, D20: an operand that is the two's-complement image of a negative number always fails as a rule and as a
generation count. -/
def Obligations.NegativeImagesFail : Prop :=
  ∀ (x y : Nat) (s : State), s.cfg.legal = true → 2 ^ (s.cfg.aw - 1) ≤ x →
    (∃ t, exec (.next x y) s = .next t ∧ t.rsp = some { status := .invalidRule, val := 0 } ∧ t.row = s.row) ∧
    (y ≤ 255 → ∃ t, exec (.next y x) s = .next t ∧ t.rsp = some { status := .capacityExceeded, val := 0 } ∧
      t.row = s.row)

/-! ### Errors -/

/-- R128: a command that answers an error has value 0 and leaves the Row and both banks as they were, and the next command
executes as if it had never been sent. Nothing is said here of registers that are dead between commands and that the command
may load: the framer's, `rule_q`, `gens_left` (logs 13, 15). -/
def Obligations.ErrorsChangeNoArchitecturalState : Prop :=
  ∀ (i : Instr) (s t : State) (r : Response), exec i s = .next t → t.rsp = some r → r.status ≠ .ok →
    r.val = 0 ∧ t.row = s.row ∧
    t = { s with
      busy := true, rsp := some r, payloadLeft := t.payloadLeft, nQ := t.nQ, lenQ := t.lenQ, keep := t.keep,
      ruleQ := t.ruleQ, gensLeft := t.gensLeft } ∧
    ∀ j, WellFormed s.cfg j = true →
      (ask j (t.deliver r)).map (fun a => (a.1, a.2.row)) = (ask j s).map fun a => (a.1, a.2.row)

/-- R129 to R133: each error is raised, with its status code, exactly when its rule says and by exactly the commands it
names; it echoes no value. -/
def Obligations.EachErrorExactlyWhenItsRuleSays : Prop :=
  ∀ (i : Instr) (s t : State) (r : Response), 0 < s.cfg.w → exec i s = .next t → t.rsp = some r →
    (r.status.code = 1 ↔ ∃ rule gens, i = .next rule gens ∧ 255 < rule) ∧
    (r.status.code = 2 ↔
      (∃ j, i = .getb j ∧ s.length ≤ j) ∨ ∃ idx, i = .getw idx ∧ s.wordCount ≤ idx) ∧
    (r.status.code = 3 ↔ ∃ n len p, i = .construct n len p ∧ s.cfg.w * n < len) ∧
    (r.status.code = 4 ↔
      (∃ rule gens, i = .next rule gens ∧ rule ≤ 255 ∧ s.cfg.capBits < s.length + 2 * gens) ∨
      ∃ n len p, i = .construct n len p ∧ len ≤ s.cfg.w * n ∧ s.cfg.capBits < len) ∧
    (r.status.code = 5 ↔ i.isReserved = true) ∧ (r.status.code ≠ 0 → r.val = 0 ∧ t.row = s.row)

/-- R146: which command can raise what. -/
def Obligations.CommandsRaiseOnlyTheirErrors : Prop :=
  ∀ (i : Instr) (s t : State), exec i s = .next t → ∃ r, t.rsp = some r ∧ t.busy = true ∧
    (∀ n len p, i = .construct n len p → r.status ∈ [.ok, .invalidConstruction, .capacityExceeded]) ∧
    (∀ rule gens, i = .next rule gens → r.status ∈ [.ok, .invalidRule, .capacityExceeded]) ∧
    (∀ idx, i = .getw idx → r.status ∈ [.ok, .outOfRange]) ∧
    (∀ j, i = .getb j → r.status ∈ [.ok, .outOfRange]) ∧
    (i = .len → r.status = .ok) ∧ (i.isReserved = true → r.status = .illegalCommand)

/-! ### Reset -/

/-- R27: the value after reset of every piece of state the spec gives one, for every configuration. -/
def Obligations.ResetValues : Prop :=
  ∀ c : Config, (State.resetWith c).length = 0 ∧ (State.resetWith c).wordCount = 0 ∧
    (State.resetWith c).row.words = [] ∧ (State.resetWith c).front = false ∧ (State.resetWith c).carry = 0 ∧
    (State.resetWith c).busy = false ∧ (State.resetWith c).cmdReady = true ∧ (State.resetWith c).rspValid = false

/-- R148: what commands do in the reset state: LEN answers 0, every GETW and GETB fails OutOfRange, NEXT works from the
empty Row, and `CONSTRUCT 0, 0, []` leaves the same Row from any state. -/
def Obligations.ResetStateIsTheEmptyRow : Prop :=
  ∀ c : Config, c.legal = true →
    (State.resetWith c).row = { length := 0, words := [] } ∧ (State.resetWith c).wordCount = 0 ∧
    (State.resetWith c).busy = false ∧ (State.resetWith c).rsp = none ∧
    (ask .len (State.resetWith c)).map Prod.fst = some { status := .ok, val := 0 } ∧
    (∀ idx, (ask (.getw idx) (State.resetWith c)).map Prod.fst = some { status := .outOfRange, val := 0 }) ∧
    (∀ i, (ask (.getb i) (State.resetWith c)).map Prod.fst = some { status := .outOfRange, val := 0 }) ∧
    (∀ rule gens, rule ≤ 255 → 2 * gens ≤ c.capBits →
      ∃ t, exec (.next rule gens) (State.resetWith c) = .next t ∧ t.rsp = some { status := .ok, val := 0 } ∧
        t.row = Row.stepN c.w (BitVec.ofNat 8 rule) gens { length := 0, words := [] }) ∧
    ∀ s : State, s.cfg = c →
      ∃ t, exec (.construct 0 0 []) s = .next t ∧ t.rsp = some { status := .ok, val := 0 } ∧
        t.row = (State.resetWith c).row

/-- R147, R150: at an edge with `rst = 1` the block is in the reset state whatever it was doing; no beat and no response
transfers, and the response it may have been holding is never sent. -/
def Obligations.ResetWins : Prop :=
  ∀ s : State, s.cfg.legal = true → s.rst = true →
    ∃ t, step s = .next t ∧ t.cfg = s.cfg ∧ t.row = { length := 0, words := [] } ∧ t.front = false ∧ t.carry = 0 ∧
      t.busy = false ∧ t.rsp = none ∧ t.cmdIn = s.cmdIn ∧ t.delivered = s.delivered ∧ t.rst = s.rst ∧
      t.rspReady = s.rspReady

/-! ### The step -/

/-- An idle block whose presented beats begin with a whole command runs that command: the step is `exec` of it, on the
state with its beats taken (R46, R48). -/
def Obligations.StepRunsTheDecodedCommand : Prop :=
  ∀ (s : State) (i : Instr) (rest : List Beat), s.cfg.legal = true → s.rst = false → s.rsp = none → s.busy = false →
    decode s.cfg s.cmdIn = .ok (i, rest) → step s = exec i { s with cmdIn := rest }

/-- R163, R46: where the beats of a command are all presented and the host takes responses, the next step presents the
response and the one after hands it over, and the block then accepts a header again. -/
def Obligations.CommandIsAnsweredInTwoSteps : Prop :=
  ∀ (s : State) (i : Instr) (rest : List Beat), s.Inv → s.rst = false → s.rspReady = true → s.rsp = none → s.busy = false →
    decode s.cfg s.cmdIn = .ok (i, rest) →
    ∃ t u r, step s = .next t ∧ t.rsp = some r ∧ t.cmdReady = false ∧ step t = .next u ∧ u.delivered = s.delivered ++ [r] ∧
      u.rsp = none ∧ u.busy = false ∧ u.cmdReady = true ∧ u.cmdIn = rest ∧ u.row = t.row

/-- R46: a response waits, unchanged and with `cmd_ready = 0` and nothing accepted, until the host takes it; its
transfer ends the command and changes nothing else. -/
def Obligations.ResponseIsHeldUntilTaken : Prop :=
  ∀ (s : State) (r : Response), s.cfg.legal = true → s.rst = false → s.rsp = some r →
    s.cmdReady = false ∧ s.rspValid = true ∧ s.rspData = some r.beat ∧
    (s.rspReady = false → step s = .next s) ∧
    (s.rspReady = true →
      step s = .next { s with busy := false, rsp := none, delivered := s.delivered ++ [r] })

/-- R48, R153: while payload is awaited the next beat is data whatever it looks like: only its `w` lane counts; the
Row does not change and no response appears before the last one. -/
def Obligations.PayloadIsDataByPosition : Prop :=
  ∀ (s : State) (d : Beat) (rest : List Beat), s.cfg.legal = true → s.rst = false → s.rsp = none → s.busy = true →
    0 < s.payloadLeft → s.cmdIn = d :: rest →
    ∃ t, step s = .next t ∧ t.cmdIn = rest ∧ t.payloadLeft = s.payloadLeft - 1 ∧ t.busy = true ∧
      (1 < s.payloadLeft → t.rsp = none ∧ t.row = s.row) ∧ (s.payloadLeft = 1 → t.rspValid = true) ∧
      ∀ d', wLane s.cfg d' = wLane s.cfg d → step { s with cmdIn := d' :: rest } = .next t

/-- R158: a CONSTRUCT of which some payload never comes never completes: however long the block runs, it sends no
response, leaves the Row as it was, and from the last beat on waits in the same state. -/
def Obligations.BlockWaitsForMissingPayload : Prop :=
  ∀ (n len : Nat) (p : List Word) (s : State) (m : Nat), s.cfg.legal = true → s.Idle →
    WellFormed s.cfg (.construct n len p) = true → m < n →
    ∀ k, ∃ t, runSteps k (s.present ((encode s.cfg (.construct n len p)).take (m + 1))) = .next t ∧
      t.rsp = none ∧ t.delivered = s.delivered ∧ t.row = s.row ∧
      (m + 1 ≤ k → t.busy = true ∧ t.payloadLeft = n - m ∧ t.cmdIn = [] ∧ step t = .next t)

/-- R48, R73, R154: a CONSTRUCT whose beats come with a gap after the header or after any payload beat leaves exactly the
state of the command run as a unit. The number of steps, and that the hidden state agrees too, rest on the model's reading
(logs 7, 15, 20). -/
def Obligations.PiecewiseConstructIsTheWhole : Prop :=
  ∀ (n len : Nat) (p : List Word) (s : State) (m : Nat), s.cfg.legal = true → s.Idle →
    WellFormed s.cfg (.construct n len p) = true → m < n →
    ∃ u t, runSteps (m + 1) (s.present ((encode s.cfg (.construct n len p)).take (m + 1))) = .next u ∧
      runSteps (n - m) (u.present ((encode s.cfg (.construct n len p)).drop (m + 1))) = .next t ∧
      exec (.construct n len p) s = .next t

/-- R40: the state after a command sequence is the fold of the commands' meanings in order, and there is exactly one
response per command, in command order. Two steps a command, one to run it and one to hand over its response, is the
model's reading (log 7). -/
def Obligations.CommandsRunInOrder : Prop :=
  ∀ (prog : List Instr) (s : State), s.Inv → s.Idle → (∀ i ∈ prog, WellFormed s.cfg i = true) →
    ∃ rs t, askAll prog s = some (rs, t) ∧ rs.length = prog.length ∧
      runSteps (2 * prog.length) (s.present (prog.flatMap (encode s.cfg))) = .next t ∧
      t.delivered = s.delivered ++ rs ∧ t.Idle

/-- R78: only CONSTRUCT, NEXT and reset change the Row: a step that changes it runs one of the first two, or takes a
beat of a CONSTRUCT in progress, or is a reset. -/
def Obligations.OnlyConstructAndNextChangeTheRow : Prop :=
  ∀ s t : State, step s = .next t → t.row ≠ s.row →
    s.rst = true ∨ (s.rsp = none ∧ s.busy = true ∧ s.payloadLeft ≤ 1) ∨
    (s.rsp = none ∧ s.busy = false ∧ ∃ i rest, decode s.cfg s.cmdIn = .ok (i, rest) ∧
      ((∃ n len p, i = .construct n len p) ∨ ∃ rule gens, i = .next rule gens))

/-- U10: a configuration outside R6 to R8 is refused (the model's treatment, log 11), and only that is refused. -/
def Obligations.OnlyIllegalConfigurationsAreRefused : Prop :=
  ∀ s : State, (s.cfg.legal = false ↔ step s = .refused .illegalConfiguration) ∧
    ∀ mnemonic, step s ≠ .refused (.notModelled mnemonic)

/-! ### Invariants and isolation -/

/-- Every step keeps the invariant, from every state that has it: `length` within the capacity (R14), both banks
canonical and within `MAXWORDS` words of `W` bits (R19), the copied operands within `AW` bits (R21, R26), a response only
for a command in flight and of the form of R60. That reset and a command's end leave `payload_left` 0 is the model's choice
(logs 5, 14, 15). -/
def Obligations.StepKeepsTheInvariant : Prop := ∀ s t : State, s.Inv → step s = .next t → t.Inv

/-- The state after reset has the invariant, for every legal configuration; `State.reset` is that state in `REF8`. For the
registers without a stated reset value, and for the configuration, this is about the model's choice (logs 1, 3, 4, 5, 6). -/
def Obligations.ResetHasTheInvariant : Prop :=
  (∀ c : Config, c.legal = true → (State.resetWith c).Inv) ∧ State.reset = State.resetWith .ref8 ∧ State.reset.Inv

/-- From a state with the invariant no step faults or is refused: each of the block's errors is a response. -/
def Obligations.StepsAreSafe : Prop := ∀ s : State, s.Inv → Safe (step s)

/-- R13, R19, R21: a command's response and the Row it leaves depend on the parameters, `length` and the words of the
Row Row alone, in every legal configuration, whatever the back bank, the words beyond `word_count`, `front` and the hidden
registers hold. -/
def Obligations.CommandsSeeOnlyTheRow : Prop :=
  ∀ (i : Instr) (s t : State), s.cfg.legal = true → ArchEq s t → WellFormed s.cfg i = true →
    (∃ s' t' r, exec i s = .next s' ∧ exec i t = .next t' ∧ s'.rsp = some r ∧ t'.rsp = some r ∧ ArchEq s' t') ∨
    ∃ f, exec i s = .fault f ∧ exec i t = .fault f

/-- The same for every command sequence: two blocks with the same Row answer every sequence alike (R19, R149, U4, U5). -/
def Obligations.HiddenStateIsUnobservable : Prop :=
  ∀ (prog : List Instr) (s t : State), s.Inv → ArchEq s t → (∀ i ∈ prog, WellFormed s.cfg i = true) →
    ∃ rs s' t', askAll prog s = some (rs, s') ∧ askAll prog t = some (rs, t') ∧ ArchEq s' t'

/-! ### Host procedures and cost -/

/-- R63, R64: STEP is one generation of NEXT, and WORDCOUNT answers the word count without changing the Row. -/
def Obligations.PseudoOperationsExpand : Prop :=
  (∀ (rule : Nat) (s : State), exec (stepPseudo rule) s = exec (.next rule 1) s) ∧
  ∀ s : State, ∃ s1, wordCountPseudo s = some (s.wordCount, s1) ∧ s1.row = s.row

/-- R45: SNAPSHOT reads the Row, and the CONSTRUCT that replays it succeeds and leaves an equal Row, padding bits
included. -/
def Obligations.SnapshotRoundTrip : Prop :=
  ∀ s : State, s.Inv →
    ∃ row s1 t, snapshot s = some (row, s1) ∧ row = s.row ∧ exec (replay row) s1 = .next t ∧
      t.rsp = some { status := .ok, val := 0 } ∧ t.row = s.row

/-- R122, R65: TOBITSTRING answers the cells of the Row, leftmost first, and reading the words and unpacking them
answers the same. -/
def Obligations.BitStringIsTheCells : Prop :=
  ∀ s : State, s.Inv →
    (toBitString s).map Prod.fst = some ((s.row.cells s.cfg.w).map digit) ∧
    (toBitStringByWords s).map Prod.fst = some ((s.row.cells s.cfg.w).map digit)

/-- R126: seeding from a bit string that fits the capacity succeeds and leaves a Row of exactly those cells. -/
def Obligations.SeedingGivesTheCells : Prop :=
  ∀ (cells : List Bool) (s : State), s.cfg.legal = true → cells.length ≤ s.cfg.capBits →
    ∃ t, exec (seed s.cfg.w cells) s = .next t ∧ t.rsp = some { status := .ok, val := 0 } ∧
      t.length = cells.length ∧ t.row.cells s.cfg.w = cells ∧ WellFormed s.cfg (seed s.cfg.w cells) = true

/-- R120, R161: a generation reads every old word once and writes every new word once, at most one more; `NEXT rule, G`
makes the sums of these over its generations; the read commands make at most one read, CONSTRUCT `ceil(len / W)`
writes. The list `accesses` is the model's account (log 22), tied here to what `exec` does: a bank word outside its writes
is unchanged, and the response, the length and every word written are the same from any banks that agree at its reads. -/
def Obligations.CostIsWordGranular : Prop :=
  ∀ s : State, 2 ≤ s.cfg.w →
    s.generationAccesses.filter Access.isRead = (List.range s.wordCount).map .read ∧
    s.generationAccesses.filter (fun a => !a.isRead) = (List.range (wordsFor s.cfg.w (s.length + 2))).map .write ∧
    wordsFor s.cfg.w (s.length + 2) ≤ s.wordCount + 1 ∧
    (∀ rule gens, rule ≤ 255 → s.length + 2 * gens ≤ s.cfg.capBits →
      (accesses (.next rule gens) s).countP Access.isRead =
        ((List.range gens).map fun t => wordsFor s.cfg.w (s.length + 2 * t)).sum ∧
      (accesses (.next rule gens) s).countP (fun a => !a.isRead) =
        ((List.range gens).map fun t => wordsFor s.cfg.w (s.length + 2 * (t + 1))).sum) ∧
    (∀ i, (∃ idx, i = .getw idx) ∨ (∃ j, i = .getb j) ∨ i = .len →
      (accesses i s).length ≤ 1 ∧ (accesses i s).all Access.isRead = true) ∧
    (∀ n len p, constructStatus s.cfg n len = .ok →
      (accesses (.construct n len p) s).countP Access.isRead = 0 ∧
      (accesses (.construct n len p) s).countP (fun a => !a.isRead) = wordsFor s.cfg.w len) ∧
    ∀ (i : Instr) (t : State), WellFormed s.cfg i = true → exec i s = .next t →
      (∀ (b : Bool) (j : Nat), Access.write j ∉ accesses i s → Bank.read (t.bank b) j = Bank.read (s.bank b) j) ∧
      ∀ (b0 b1 : Bank) (s' : State), { s with bank0 := b0, bank1 := b1 } = s' →
        (∀ j, Access.read j ∈ accesses i s → s'.memRead j = s.memRead j) →
        ∃ t', exec i s' = .next t' ∧ t'.rsp = t.rsp ∧ t'.length = t.length ∧ accesses i s' = accesses i s ∧
          ∀ j, Access.write j ∈ accesses i s → t'.memRead j = t.memRead j

/-- R88, R120: every word a generation reads is needed: under rule 204, which copies the centre cell, the new Row
determines every cell of the old one. -/
def Obligations.EveryWordReadMatters : Prop :=
  ∀ s s' t t' : State, 2 ≤ s.cfg.w → s.cfg = s'.cfg → s.length = s'.length → s.length + 2 ≤ s.cfg.capBits →
    exec (.next 204 1) s = .next t → exec (.next 204 1) s' = .next t' → t.row = t'.row →
    ∀ i, i < s.length → s.cell i = s'.cell i
end

