-- ==== Sys2Proof/Laws/Assembler.lean ====
section
/-! SUPPORT. How the assembler reads a line: operands are words of letters and digits, which the scanner takes whole. -/

namespace Sys2Proof.Machine

/-- A character of a word: a letter or a digit, and so no separator, bracket or comment. -/
theorem isAlphanum_ne {c d : Char} (h : c.isAlphanum = true) (hd : d.isAlphanum = false) : c ≠ d := by
  rintro rfl; simp [h] at hd

/-- The scanner takes a word whole (R62). -/
theorem symbols_word (v rest letters : List Char) (hv : ∀ c ∈ v, c.isAlphanum = true) :
    symbols (v ++ rest) letters = symbols rest (letters ++ v) := by
  induction v generalizing letters with
  | nil => simp
  | cons c v ih =>
    have hc : c.isAlphanum = true := hv c (by simp)
    have h1 := isAlphanum_ne hc (d := ' ') (by decide)
    have h2 := isAlphanum_ne hc (d := '\t') (by decide)
    have h3 := isAlphanum_ne hc (d := ',') (by decide)
    have h4 := isAlphanum_ne hc (d := '[') (by decide)
    have h5 := isAlphanum_ne hc (d := ']') (by decide)
    rw [List.cons_append, symbols, if_neg (by simp [h1, h2]), if_neg h3, if_neg h4, if_neg h5, if_pos hc,
      ih (letters ++ [c]) fun d hd => hv d (by simp [hd])]
    simp

/-- A numeral's characters are digits of its base. -/
theorem numeral_digits (base : Nat) (digitOf : Char → Option Nat) (cs : List Char) (acc : Option Nat) (n : Nat)
    (h : cs.foldl (fun acc c => acc.bind fun n => (digitOf c).map fun d => base * n + d) acc = some n) :
    acc.isSome = true ∧ ∀ c ∈ cs, (digitOf c).isSome = true := by
  induction cs generalizing acc with
  | nil => exact ⟨by simp_all, by simp⟩
  | cons c cs ih =>
    obtain ⟨hs, hall⟩ := ih _ h
    cases acc with
    | none => simp at hs
    | some m =>
      cases hc : digitOf c with
      | none => simp [hc] at hs
      | some d => exact ⟨rfl, by simpa [hc] using hall⟩

theorem decimalDigit_isAlphanum {c : Char} (h : (decimalDigit c).isSome = true) : c.isAlphanum = true := by
  unfold decimalDigit at h
  by_cases hd : c.isDigit = true
  · simp [Char.isAlphanum, hd]
  · simp [hd] at h

theorem hexDigit_isAlphanum {c : Char} (h : (hexDigit c).isSome = true) : c.isAlphanum = true := by
  unfold hexDigit at h
  by_cases hd : c.isDigit = true
  · simp [Char.isAlphanum, hd]
  · rw [if_neg hd] at h
    have hA : 'A'.toNat = 65 := rfl
    have hF : 'F'.toNat = 70 := rfl
    have ha : 'a'.toNat = 97 := rfl
    have hf : 'f'.toNat = 102 := rfl
    have hr : (65 ≤ c.toNat ∧ c.toNat ≤ 70) ∨ (97 ≤ c.toNat ∧ c.toNat ≤ 102) := by
      by_contra hn
      rw [not_or] at hn
      rw [hA, hF, ha, hf, if_neg hn.1, if_neg hn.2] at h
      simp at h
    have hv : c.val.toNat = c.toNat := rfl
    simp only [Char.isAlphanum, Char.isAlpha, Char.isUpper, Char.isLower, Bool.or_eq_true, Bool.and_eq_true,
      decide_eq_true_eq, UInt32.le_iff_toNat_le, ge_iff_le]
    rcases hr with hr | hr
    · exact .inl (.inl ⟨hr.1, le_trans hr.2 (by decide)⟩)
    · exact .inl (.inr ⟨hr.1, le_trans hr.2 (by decide)⟩)

/-- An operand is a word that is not empty (R62). -/
theorem operand_isWord {x : List Char} {a : Nat} (h : operand x = some a) :
    x ≠ [] ∧ ∀ c ∈ x, c.isAlphanum = true := by
  unfold operand at h
  split at h
  · next c cs =>
    have := (numeral_digits _ _ _ _ _ h).2
    refine ⟨by simp, fun d hd => ?_⟩
    rcases List.mem_cons.1 hd with rfl | hd
    · decide
    rcases List.mem_cons.1 hd with rfl | hd
    · decide
    exact hexDigit_isAlphanum (this d hd)
  · next c cs _ =>
    have := (numeral_digits _ _ _ _ _ h).2
    exact ⟨by simp, fun d hd => decimalDigit_isAlphanum (this d hd)⟩
  · cases h

end Sys2Proof.Machine
end

