-- ==== Sys2Proof/Laws/Bank.lean ====
section
/-! SUPPORT. The laws of one bank: a read after a write, and the canonical form, which every operation keeps. -/

namespace Sys2Proof.Machine

@[simp] theorem Bank.read_nil (k : Nat) : Bank.read [] k = 0 := rfl

theorem Bank.read_cons (j : Nat) (v : Word) (b : Bank) (k : Nat) :
    Bank.read ((j, v) :: b) k = if j = k then v else Bank.read b k := rfl

/-- Taking an index out leaves every other index. -/
theorem Bank.read_filter (b : Bank) (k j : Nat) :
    Bank.read (b.filter (fun e => e.1 != k)) j = if j = k then 0 else Bank.read b j := by
  induction b with
  | nil => simp
  | cons e b ih =>
    obtain ⟨i, v⟩ := e
    by_cases h : i = k
    · subst h
      by_cases hj : j = i
      · subst hj; simpa using ih
      · simp_all [Bank.read_cons, Ne.symm hj]
    · rw [List.filter_cons_of_pos (by simpa using h), Bank.read_cons, Bank.read_cons, ih]
      by_cases hj : j = k
      · subst hj; simp [h]
      · simp [hj]

/-- Listing a word leaves every other index. -/
theorem Bank.read_insert_other (b : Bank) (k j : Nat) (v : Word) (h : j ≠ k) :
    Bank.read (Bank.insert k v b) j = Bank.read b j := by
  induction b with
  | nil => simp [Bank.insert, Bank.read_cons, Ne.symm h]
  | cons e b ih =>
    obtain ⟨i, u⟩ := e
    simp only [Bank.insert]
    split
    · simp [Bank.read_cons, Ne.symm h]
    · simp [Bank.read_cons, ih]

/-- A listed word is read, where the index was not listed before. -/
theorem Bank.read_insert_same (b : Bank) (k : Nat) (v : Word) (h : ∀ e ∈ b, e.1 ≠ k) :
    Bank.read (Bank.insert k v b) k = v := by
  induction b with
  | nil => simp [Bank.insert, Bank.read_cons]
  | cons e b ih =>
    obtain ⟨i, u⟩ := e
    have hi : i ≠ k := h (i, u) (by simp)
    simp only [Bank.insert]
    split
    · simp [Bank.read_cons]
    · rw [Bank.read_cons, if_neg hi, ih fun e he => h e (by simp [he])]

/-- A read after a write to the same place gives the value written. -/
theorem Bank.read_write_same (b : Bank) (k : Nat) (v : Word) : Bank.read (Bank.write b k v) k = v := by
  have hall : ∀ e ∈ b.filter (fun e => e.1 != k), e.1 ≠ k := by
    intro e he; simpa using (List.mem_filter.1 he).2
  unfold Bank.write
  split
  · next h => rw [Bank.read_filter]; simp [h]
  · exact Bank.read_insert_same _ k v hall

/-- A write leaves every other place alone. -/
theorem Bank.read_write_other (b : Bank) (k j : Nat) (v : Word) (h : j ≠ k) :
    Bank.read (Bank.write b k v) j = Bank.read b j := by
  unfold Bank.write
  split
  · rw [Bank.read_filter, if_neg h]
  · rw [Bank.read_insert_other _ _ _ _ h, Bank.read_filter, if_neg h]

/-- Says once what a read after a write gives. -/
theorem Bank.read_write (b : Bank) (k j : Nat) (v : Word) :
    Bank.read (Bank.write b k v) j = if j = k then v else Bank.read b j := by
  split
  · next h => subst h; exact Bank.read_write_same b j v
  · next h => exact Bank.read_write_other b k j v h

/-! ### The canonical form -/

/-- The canonical form in terms of the list: strictly rising indices and no word 0. -/
theorem Bank.canonical_iff (b : Bank) :
    Bank.canonical b = true ↔ b.Pairwise (fun e f => e.1 < f.1) ∧ ∀ e ∈ b, e.2 ≠ 0 := by
  induction b with
  | nil => simp [Bank.canonical]
  | cons e b ih =>
    obtain ⟨j, v⟩ := e
    cases b with
    | nil => simp [Bank.canonical]
    | cons f b =>
      obtain ⟨k, u⟩ := f
      simp only [Bank.canonical, Bool.and_eq_true, bne_iff_ne, ne_eq, decide_eq_true_eq, ih]
      simp only [List.pairwise_cons, List.mem_cons, forall_eq_or_imp]
      constructor
      · rintro ⟨⟨hv, hjk⟩, ⟨hk, hp⟩, hu, hz⟩
        exact ⟨⟨⟨hjk, fun e he => lt_trans hjk (hk e he)⟩, hk, hp⟩, hv, hu, hz⟩
      · rintro ⟨⟨⟨hjk, _⟩, hk, hp⟩, hv, hu, hz⟩
        exact ⟨⟨hv, hjk⟩, ⟨hk, hp⟩, hu, hz⟩

theorem Bank.mem_insert (b : Bank) (k : Nat) (v : Word) (e : Nat × Word) :
    e ∈ Bank.insert k v b ↔ e = (k, v) ∨ e ∈ b := by
  induction b with
  | nil => simp [Bank.insert]
  | cons f b ih =>
    obtain ⟨j, u⟩ := f
    simp only [Bank.insert]
    split
    · simp
    · simp only [List.mem_cons, ih]; tauto

theorem Bank.pairwise_insert (b : Bank) (k : Nat) (v : Word) (hb : b.Pairwise (fun e f => e.1 < f.1))
    (hk : ∀ e ∈ b, e.1 ≠ k) : (Bank.insert k v b).Pairwise (fun e f => e.1 < f.1) := by
  induction b with
  | nil => simp [Bank.insert]
  | cons f b ih =>
    obtain ⟨j, u⟩ := f
    obtain ⟨hj, hp⟩ := List.pairwise_cons.1 hb
    have hne : j ≠ k := hk (j, u) (by simp)
    simp only [Bank.insert]
    split
    · next hlt =>
      refine List.pairwise_cons.2 ⟨fun e he => ?_, hb⟩
      rcases List.mem_cons.1 he with rfl | he
      · exact hlt
      · exact lt_trans hlt (hj e he)
    · next hge =>
      refine List.pairwise_cons.2 ⟨fun e he => ?_, ih hp fun e he => hk e (by simp [he])⟩
      rcases (Bank.mem_insert b k v e).1 he with rfl | he
      · show j < k; omega
      · exact hj e he

/-- A write keeps the canonical form. -/
theorem Bank.canonical_write (b : Bank) (k : Nat) (v : Word) (hb : Bank.canonical b = true) :
    Bank.canonical (Bank.write b k v) = true := by
  rw [Bank.canonical_iff] at hb ⊢
  have hp := hb.1.filter (fun e => e.1 != k)
  have hz : ∀ e ∈ b.filter (fun e => e.1 != k), e.2 ≠ 0 := fun e he => hb.2 e (List.mem_filter.1 he).1
  unfold Bank.write
  split
  · exact ⟨hp, hz⟩
  · next hv =>
    refine ⟨Bank.pairwise_insert _ k v hp fun e he => by simpa using (List.mem_filter.1 he).2, fun e he => ?_⟩
    rcases (Bank.mem_insert _ k v e).1 he with rfl | he
    · exact hv
    · exact hz e he

/-- A write within the bank, of a word of `W` bits, keeps the bank well formed. -/
theorem Bank.wf_write (c : Config) (b : Bank) (k : Nat) (v : Word) (hb : Bank.wf c b = true)
    (hk : k < c.maxWords) (hv : v < 2 ^ c.w) : Bank.wf c (Bank.write b k v) = true := by
  simp only [Bank.wf, Bool.and_eq_true, List.all_eq_true, decide_eq_true_eq, fits] at hb ⊢
  refine ⟨Bank.canonical_write b k v hb.1, fun e he => ?_⟩
  unfold Bank.write at he
  split at he
  · exact hb.2 e (List.mem_filter.1 he).1
  · rcases (Bank.mem_insert _ k v e).1 he with rfl | he
    · exact ⟨hk, hv⟩
    · exact hb.2 e (List.mem_filter.1 he).1

@[simp] theorem Bank.wf_nil (c : Config) : Bank.wf c [] = true := rfl

/-- A word of a well-formed bank fits `W` bits. -/
theorem Bank.read_lt (c : Config) (b : Bank) (hb : Bank.wf c b = true) (k : Nat) : Bank.read b k < 2 ^ c.w := by
  simp only [Bank.wf, Bool.and_eq_true, List.all_eq_true, decide_eq_true_eq, fits] at hb
  have h := hb.2
  clear hb
  induction b with
  | nil => simp
  | cons e b ih =>
    obtain ⟨j, v⟩ := e
    rw [Bank.read_cons]
    split
    · exact (h (j, v) (by simp)).2
    · exact ih fun e he => h e (by simp [he])

/-- Equal memories are equal data: canonical banks that read the same are the same list. -/
theorem Bank.ext_of_canonical (a b : Bank) (ha : Bank.canonical a = true) (hb : Bank.canonical b = true)
    (h : ∀ k, Bank.read a k = Bank.read b k) : a = b := by
  rw [Bank.canonical_iff] at ha hb
  have low : ∀ (b : Bank) (k : Nat), (∀ e ∈ b, k < e.1) → Bank.read b k = 0 := by
    intro b k
    induction b with
    | nil => simp
    | cons e b ih =>
      obtain ⟨j, v⟩ := e
      intro he
      have hj : j ≠ k := by have := he (j, v) (by simp); simp at this; omega
      rw [Bank.read_cons, if_neg hj, ih fun e h => he e (by simp [h])]
  induction a generalizing b with
  | nil =>
    cases b with
    | nil => rfl
    | cons f b =>
      obtain ⟨j, v⟩ := f
      have := h j
      rw [Bank.read_cons, if_pos rfl] at this
      exact absurd this.symm (hb.2 (j, v) (by simp))
  | cons e a ih =>
    obtain ⟨i, u⟩ := e
    obtain ⟨hai, hap⟩ := List.pairwise_cons.1 ha.1
    cases b with
    | nil =>
      have := h i
      rw [Bank.read_cons, if_pos rfl] at this
      exact absurd this (ha.2 (i, u) (by simp))
    | cons f b =>
      obtain ⟨j, v⟩ := f
      obtain ⟨hbj, hbp⟩ := List.pairwise_cons.1 hb.1
      have hu : u ≠ 0 := ha.2 (i, u) (by simp)
      have hv : v ≠ 0 := hb.2 (j, v) (by simp)
      have hij : i = j := by
        rcases lt_trichotomy i j with hlt | heq | hgt
        · have h1 := h i
          rw [Bank.read_cons, if_pos rfl, low ((j, v) :: b) i ?_] at h1
          · exact absurd h1 hu
          · intro e he
            rcases List.mem_cons.1 he with rfl | he
            · exact hlt
            · exact lt_trans hlt (hbj e he)
        · exact heq
        · have h1 := h j
          rw [Bank.read_cons j, if_pos rfl, low ((i, u) :: a) j ?_] at h1
          · exact absurd h1.symm hv
          · intro e he
            rcases List.mem_cons.1 he with rfl | he
            · exact hgt
            · exact lt_trans hgt (hai e he)
      subst hij
      have huv : u = v := by simpa [Bank.read_cons] using h i
      subst huv
      congr 1
      refine ih b ⟨hap, fun e he => ha.2 e (by simp [he])⟩ ⟨hbp, fun e he => hb.2 e (by simp [he])⟩ fun k => ?_
      have hk := h k
      rw [Bank.read_cons, Bank.read_cons] at hk
      by_cases hik : i = k
      · subst hik
        rw [low a i hai, low b i hbj]
      · simpa [hik] using hk

end Sys2Proof.Machine
end

