-- ==== Sys2Proof/Laws/State.lean ====
section
/-! SUPPORT. What each update of the state leaves in each field: one lemma per field per update, so that no later
proof unfolds a record update. -/

namespace Sys2Proof.Machine

/-! ### `memWrite` -/

@[simp] theorem memWrite_cfg (s : State) (k : Nat) (v : Word) : (s.memWrite k v).cfg = s.cfg := rfl
@[simp] theorem memWrite_length (s : State) (k : Nat) (v : Word) : (s.memWrite k v).length = s.length := rfl
@[simp] theorem memWrite_bank0 (s : State) (k : Nat) (v : Word) : (s.memWrite k v).bank0 = if s.front then Bank.write s.bank0 k (v % 2 ^ s.cfg.w) else s.bank0 := rfl
@[simp] theorem memWrite_bank1 (s : State) (k : Nat) (v : Word) : (s.memWrite k v).bank1 = if s.front then s.bank1 else Bank.write s.bank1 k (v % 2 ^ s.cfg.w) := rfl
@[simp] theorem memWrite_front (s : State) (k : Nat) (v : Word) : (s.memWrite k v).front = s.front := rfl
@[simp] theorem memWrite_carry (s : State) (k : Nat) (v : Word) : (s.memWrite k v).carry = s.carry := rfl
@[simp] theorem memWrite_k (s : State) (k : Nat) (v : Word) : (s.memWrite k v).k = s.k := rfl
@[simp] theorem memWrite_gensLeft (s : State) (k : Nat) (v : Word) : (s.memWrite k v).gensLeft = s.gensLeft := rfl
@[simp] theorem memWrite_ruleQ (s : State) (k : Nat) (v : Word) : (s.memWrite k v).ruleQ = s.ruleQ := rfl
@[simp] theorem memWrite_busy (s : State) (k : Nat) (v : Word) : (s.memWrite k v).busy = s.busy := rfl
@[simp] theorem memWrite_payloadLeft (s : State) (k : Nat) (v : Word) : (s.memWrite k v).payloadLeft = s.payloadLeft := rfl
@[simp] theorem memWrite_nQ (s : State) (k : Nat) (v : Word) : (s.memWrite k v).nQ = s.nQ := rfl
@[simp] theorem memWrite_lenQ (s : State) (k : Nat) (v : Word) : (s.memWrite k v).lenQ = s.lenQ := rfl
@[simp] theorem memWrite_keep (s : State) (k : Nat) (v : Word) : (s.memWrite k v).keep = s.keep := rfl
@[simp] theorem memWrite_rsp (s : State) (k : Nat) (v : Word) : (s.memWrite k v).rsp = s.rsp := rfl
@[simp] theorem memWrite_rst (s : State) (k : Nat) (v : Word) : (s.memWrite k v).rst = s.rst := rfl
@[simp] theorem memWrite_rspReady (s : State) (k : Nat) (v : Word) : (s.memWrite k v).rspReady = s.rspReady := rfl
@[simp] theorem memWrite_cmdIn (s : State) (k : Nat) (v : Word) : (s.memWrite k v).cmdIn = s.cmdIn := rfl
@[simp] theorem memWrite_delivered (s : State) (k : Nat) (v : Word) : (s.memWrite k v).delivered = s.delivered := rfl

/-! ### `swap` -/

@[simp] theorem swap_cfg (s : State) (n : Nat) : (s.swap n).cfg = s.cfg := rfl
@[simp] theorem swap_length (s : State) (n : Nat) : (s.swap n).length = n := rfl
@[simp] theorem swap_bank0 (s : State) (n : Nat) : (s.swap n).bank0 = s.bank0 := rfl
@[simp] theorem swap_bank1 (s : State) (n : Nat) : (s.swap n).bank1 = s.bank1 := rfl
@[simp] theorem swap_front (s : State) (n : Nat) : (s.swap n).front = !s.front := rfl
@[simp] theorem swap_carry (s : State) (n : Nat) : (s.swap n).carry = s.carry := rfl
@[simp] theorem swap_k (s : State) (n : Nat) : (s.swap n).k = s.k := rfl
@[simp] theorem swap_gensLeft (s : State) (n : Nat) : (s.swap n).gensLeft = s.gensLeft := rfl
@[simp] theorem swap_ruleQ (s : State) (n : Nat) : (s.swap n).ruleQ = s.ruleQ := rfl
@[simp] theorem swap_busy (s : State) (n : Nat) : (s.swap n).busy = s.busy := rfl
@[simp] theorem swap_payloadLeft (s : State) (n : Nat) : (s.swap n).payloadLeft = s.payloadLeft := rfl
@[simp] theorem swap_nQ (s : State) (n : Nat) : (s.swap n).nQ = s.nQ := rfl
@[simp] theorem swap_lenQ (s : State) (n : Nat) : (s.swap n).lenQ = s.lenQ := rfl
@[simp] theorem swap_keep (s : State) (n : Nat) : (s.swap n).keep = s.keep := rfl
@[simp] theorem swap_rsp (s : State) (n : Nat) : (s.swap n).rsp = s.rsp := rfl
@[simp] theorem swap_rst (s : State) (n : Nat) : (s.swap n).rst = s.rst := rfl
@[simp] theorem swap_rspReady (s : State) (n : Nat) : (s.swap n).rspReady = s.rspReady := rfl
@[simp] theorem swap_cmdIn (s : State) (n : Nat) : (s.swap n).cmdIn = s.cmdIn := rfl
@[simp] theorem swap_delivered (s : State) (n : Nat) : (s.swap n).delivered = s.delivered := rfl

/-! ### `respond` -/

@[simp] theorem respond_cfg (s : State) (v : Nat) : (s.respond v).cfg = s.cfg := rfl
@[simp] theorem respond_length (s : State) (v : Nat) : (s.respond v).length = s.length := rfl
@[simp] theorem respond_bank0 (s : State) (v : Nat) : (s.respond v).bank0 = s.bank0 := rfl
@[simp] theorem respond_bank1 (s : State) (v : Nat) : (s.respond v).bank1 = s.bank1 := rfl
@[simp] theorem respond_front (s : State) (v : Nat) : (s.respond v).front = s.front := rfl
@[simp] theorem respond_carry (s : State) (v : Nat) : (s.respond v).carry = s.carry := rfl
@[simp] theorem respond_k (s : State) (v : Nat) : (s.respond v).k = s.k := rfl
@[simp] theorem respond_gensLeft (s : State) (v : Nat) : (s.respond v).gensLeft = s.gensLeft := rfl
@[simp] theorem respond_ruleQ (s : State) (v : Nat) : (s.respond v).ruleQ = s.ruleQ := rfl
@[simp] theorem respond_busy (s : State) (v : Nat) : (s.respond v).busy = true := rfl
@[simp] theorem respond_payloadLeft (s : State) (v : Nat) : (s.respond v).payloadLeft = s.payloadLeft := rfl
@[simp] theorem respond_nQ (s : State) (v : Nat) : (s.respond v).nQ = s.nQ := rfl
@[simp] theorem respond_lenQ (s : State) (v : Nat) : (s.respond v).lenQ = s.lenQ := rfl
@[simp] theorem respond_keep (s : State) (v : Nat) : (s.respond v).keep = s.keep := rfl
@[simp] theorem respond_rsp (s : State) (v : Nat) : (s.respond v).rsp = some { status := .ok, val := v } := rfl
@[simp] theorem respond_rst (s : State) (v : Nat) : (s.respond v).rst = s.rst := rfl
@[simp] theorem respond_rspReady (s : State) (v : Nat) : (s.respond v).rspReady = s.rspReady := rfl
@[simp] theorem respond_cmdIn (s : State) (v : Nat) : (s.respond v).cmdIn = s.cmdIn := rfl
@[simp] theorem respond_delivered (s : State) (v : Nat) : (s.respond v).delivered = s.delivered := rfl

/-! ### `raise` -/

@[simp] theorem raise_cfg (s : State) (e : Status) : (s.raise e).cfg = s.cfg := rfl
@[simp] theorem raise_length (s : State) (e : Status) : (s.raise e).length = s.length := rfl
@[simp] theorem raise_bank0 (s : State) (e : Status) : (s.raise e).bank0 = s.bank0 := rfl
@[simp] theorem raise_bank1 (s : State) (e : Status) : (s.raise e).bank1 = s.bank1 := rfl
@[simp] theorem raise_front (s : State) (e : Status) : (s.raise e).front = s.front := rfl
@[simp] theorem raise_carry (s : State) (e : Status) : (s.raise e).carry = s.carry := rfl
@[simp] theorem raise_k (s : State) (e : Status) : (s.raise e).k = s.k := rfl
@[simp] theorem raise_gensLeft (s : State) (e : Status) : (s.raise e).gensLeft = s.gensLeft := rfl
@[simp] theorem raise_ruleQ (s : State) (e : Status) : (s.raise e).ruleQ = s.ruleQ := rfl
@[simp] theorem raise_busy (s : State) (e : Status) : (s.raise e).busy = true := rfl
@[simp] theorem raise_payloadLeft (s : State) (e : Status) : (s.raise e).payloadLeft = s.payloadLeft := rfl
@[simp] theorem raise_nQ (s : State) (e : Status) : (s.raise e).nQ = s.nQ := rfl
@[simp] theorem raise_lenQ (s : State) (e : Status) : (s.raise e).lenQ = s.lenQ := rfl
@[simp] theorem raise_keep (s : State) (e : Status) : (s.raise e).keep = s.keep := rfl
@[simp] theorem raise_rsp (s : State) (e : Status) : (s.raise e).rsp = some { status := e, val := 0 } := rfl
@[simp] theorem raise_rst (s : State) (e : Status) : (s.raise e).rst = s.rst := rfl
@[simp] theorem raise_rspReady (s : State) (e : Status) : (s.raise e).rspReady = s.rspReady := rfl
@[simp] theorem raise_cmdIn (s : State) (e : Status) : (s.raise e).cmdIn = s.cmdIn := rfl
@[simp] theorem raise_delivered (s : State) (e : Status) : (s.raise e).delivered = s.delivered := rfl

/-! ### `deliver` -/

@[simp] theorem deliver_cfg (s : State) (r : Response) : (s.deliver r).cfg = s.cfg := rfl
@[simp] theorem deliver_length (s : State) (r : Response) : (s.deliver r).length = s.length := rfl
@[simp] theorem deliver_bank0 (s : State) (r : Response) : (s.deliver r).bank0 = s.bank0 := rfl
@[simp] theorem deliver_bank1 (s : State) (r : Response) : (s.deliver r).bank1 = s.bank1 := rfl
@[simp] theorem deliver_front (s : State) (r : Response) : (s.deliver r).front = s.front := rfl
@[simp] theorem deliver_carry (s : State) (r : Response) : (s.deliver r).carry = s.carry := rfl
@[simp] theorem deliver_k (s : State) (r : Response) : (s.deliver r).k = s.k := rfl
@[simp] theorem deliver_gensLeft (s : State) (r : Response) : (s.deliver r).gensLeft = s.gensLeft := rfl
@[simp] theorem deliver_ruleQ (s : State) (r : Response) : (s.deliver r).ruleQ = s.ruleQ := rfl
@[simp] theorem deliver_busy (s : State) (r : Response) : (s.deliver r).busy = false := rfl
@[simp] theorem deliver_payloadLeft (s : State) (r : Response) : (s.deliver r).payloadLeft = s.payloadLeft := rfl
@[simp] theorem deliver_nQ (s : State) (r : Response) : (s.deliver r).nQ = s.nQ := rfl
@[simp] theorem deliver_lenQ (s : State) (r : Response) : (s.deliver r).lenQ = s.lenQ := rfl
@[simp] theorem deliver_keep (s : State) (r : Response) : (s.deliver r).keep = s.keep := rfl
@[simp] theorem deliver_rsp (s : State) (r : Response) : (s.deliver r).rsp = none := rfl
@[simp] theorem deliver_rst (s : State) (r : Response) : (s.deliver r).rst = s.rst := rfl
@[simp] theorem deliver_rspReady (s : State) (r : Response) : (s.deliver r).rspReady = s.rspReady := rfl
@[simp] theorem deliver_cmdIn (s : State) (r : Response) : (s.deliver r).cmdIn = s.cmdIn := rfl
@[simp] theorem deliver_delivered (s : State) (r : Response) : (s.deliver r).delivered = s.delivered ++ [r] := rfl

/-! ### `takeBeats` -/

@[simp] theorem takeBeats_cfg (s : State) (rest : List Beat) : (s.takeBeats rest).cfg = s.cfg := rfl
@[simp] theorem takeBeats_length (s : State) (rest : List Beat) : (s.takeBeats rest).length = s.length := rfl
@[simp] theorem takeBeats_bank0 (s : State) (rest : List Beat) : (s.takeBeats rest).bank0 = s.bank0 := rfl
@[simp] theorem takeBeats_bank1 (s : State) (rest : List Beat) : (s.takeBeats rest).bank1 = s.bank1 := rfl
@[simp] theorem takeBeats_front (s : State) (rest : List Beat) : (s.takeBeats rest).front = s.front := rfl
@[simp] theorem takeBeats_carry (s : State) (rest : List Beat) : (s.takeBeats rest).carry = s.carry := rfl
@[simp] theorem takeBeats_k (s : State) (rest : List Beat) : (s.takeBeats rest).k = s.k := rfl
@[simp] theorem takeBeats_gensLeft (s : State) (rest : List Beat) : (s.takeBeats rest).gensLeft = s.gensLeft := rfl
@[simp] theorem takeBeats_ruleQ (s : State) (rest : List Beat) : (s.takeBeats rest).ruleQ = s.ruleQ := rfl
@[simp] theorem takeBeats_busy (s : State) (rest : List Beat) : (s.takeBeats rest).busy = s.busy := rfl
@[simp] theorem takeBeats_payloadLeft (s : State) (rest : List Beat) : (s.takeBeats rest).payloadLeft = s.payloadLeft := rfl
@[simp] theorem takeBeats_nQ (s : State) (rest : List Beat) : (s.takeBeats rest).nQ = s.nQ := rfl
@[simp] theorem takeBeats_lenQ (s : State) (rest : List Beat) : (s.takeBeats rest).lenQ = s.lenQ := rfl
@[simp] theorem takeBeats_keep (s : State) (rest : List Beat) : (s.takeBeats rest).keep = s.keep := rfl
@[simp] theorem takeBeats_rsp (s : State) (rest : List Beat) : (s.takeBeats rest).rsp = s.rsp := rfl
@[simp] theorem takeBeats_rst (s : State) (rest : List Beat) : (s.takeBeats rest).rst = s.rst := rfl
@[simp] theorem takeBeats_rspReady (s : State) (rest : List Beat) : (s.takeBeats rest).rspReady = s.rspReady := rfl
@[simp] theorem takeBeats_cmdIn (s : State) (rest : List Beat) : (s.takeBeats rest).cmdIn = rest := rfl
@[simp] theorem takeBeats_delivered (s : State) (rest : List Beat) : (s.takeBeats rest).delivered = s.delivered := rfl

/-! ### `openConstruct` -/

@[simp] theorem openConstruct_cfg (s : State) (n len : Nat) : (s.openConstruct n len).cfg = s.cfg := rfl
@[simp] theorem openConstruct_length (s : State) (n len : Nat) : (s.openConstruct n len).length = s.length := rfl
@[simp] theorem openConstruct_bank0 (s : State) (n len : Nat) : (s.openConstruct n len).bank0 = s.bank0 := rfl
@[simp] theorem openConstruct_bank1 (s : State) (n len : Nat) : (s.openConstruct n len).bank1 = s.bank1 := rfl
@[simp] theorem openConstruct_front (s : State) (n len : Nat) : (s.openConstruct n len).front = s.front := rfl
@[simp] theorem openConstruct_carry (s : State) (n len : Nat) : (s.openConstruct n len).carry = s.carry := rfl
@[simp] theorem openConstruct_k (s : State) (n len : Nat) : (s.openConstruct n len).k = s.k := rfl
@[simp] theorem openConstruct_gensLeft (s : State) (n len : Nat) : (s.openConstruct n len).gensLeft = s.gensLeft := rfl
@[simp] theorem openConstruct_ruleQ (s : State) (n len : Nat) : (s.openConstruct n len).ruleQ = s.ruleQ := rfl
@[simp] theorem openConstruct_busy (s : State) (n len : Nat) : (s.openConstruct n len).busy = true := rfl
@[simp] theorem openConstruct_payloadLeft (s : State) (n len : Nat) : (s.openConstruct n len).payloadLeft = n := rfl
@[simp] theorem openConstruct_nQ (s : State) (n len : Nat) : (s.openConstruct n len).nQ = n := rfl
@[simp] theorem openConstruct_lenQ (s : State) (n len : Nat) : (s.openConstruct n len).lenQ = len := rfl
@[simp] theorem openConstruct_keep (s : State) (n len : Nat) : (s.openConstruct n len).keep = (constructStatus s.cfg n len == .ok) := rfl
@[simp] theorem openConstruct_rsp (s : State) (n len : Nat) : (s.openConstruct n len).rsp = s.rsp := rfl
@[simp] theorem openConstruct_rst (s : State) (n len : Nat) : (s.openConstruct n len).rst = s.rst := rfl
@[simp] theorem openConstruct_rspReady (s : State) (n len : Nat) : (s.openConstruct n len).rspReady = s.rspReady := rfl
@[simp] theorem openConstruct_cmdIn (s : State) (n len : Nat) : (s.openConstruct n len).cmdIn = s.cmdIn := rfl
@[simp] theorem openConstruct_delivered (s : State) (n len : Nat) : (s.openConstruct n len).delivered = s.delivered := rfl

/-! ### `countPayload` -/

@[simp] theorem countPayload_cfg (s : State) : (s.countPayload).cfg = s.cfg := rfl
@[simp] theorem countPayload_length (s : State) : (s.countPayload).length = s.length := rfl
@[simp] theorem countPayload_bank0 (s : State) : (s.countPayload).bank0 = s.bank0 := rfl
@[simp] theorem countPayload_bank1 (s : State) : (s.countPayload).bank1 = s.bank1 := rfl
@[simp] theorem countPayload_front (s : State) : (s.countPayload).front = s.front := rfl
@[simp] theorem countPayload_carry (s : State) : (s.countPayload).carry = s.carry := rfl
@[simp] theorem countPayload_k (s : State) : (s.countPayload).k = s.k := rfl
@[simp] theorem countPayload_gensLeft (s : State) : (s.countPayload).gensLeft = s.gensLeft := rfl
@[simp] theorem countPayload_ruleQ (s : State) : (s.countPayload).ruleQ = s.ruleQ := rfl
@[simp] theorem countPayload_busy (s : State) : (s.countPayload).busy = s.busy := rfl
@[simp] theorem countPayload_payloadLeft (s : State) : (s.countPayload).payloadLeft = s.payloadLeft - 1 := rfl
@[simp] theorem countPayload_nQ (s : State) : (s.countPayload).nQ = s.nQ := rfl
@[simp] theorem countPayload_lenQ (s : State) : (s.countPayload).lenQ = s.lenQ := rfl
@[simp] theorem countPayload_keep (s : State) : (s.countPayload).keep = s.keep := rfl
@[simp] theorem countPayload_rsp (s : State) : (s.countPayload).rsp = s.rsp := rfl
@[simp] theorem countPayload_rst (s : State) : (s.countPayload).rst = s.rst := rfl
@[simp] theorem countPayload_rspReady (s : State) : (s.countPayload).rspReady = s.rspReady := rfl
@[simp] theorem countPayload_cmdIn (s : State) : (s.countPayload).cmdIn = s.cmdIn := rfl
@[simp] theorem countPayload_delivered (s : State) : (s.countPayload).delivered = s.delivered := rfl

/-! ### `loadNext` -/

@[simp] theorem loadNext_cfg (s : State) (rule gens : Nat) : (s.loadNext rule gens).cfg = s.cfg := rfl
@[simp] theorem loadNext_length (s : State) (rule gens : Nat) : (s.loadNext rule gens).length = s.length := rfl
@[simp] theorem loadNext_bank0 (s : State) (rule gens : Nat) : (s.loadNext rule gens).bank0 = s.bank0 := rfl
@[simp] theorem loadNext_bank1 (s : State) (rule gens : Nat) : (s.loadNext rule gens).bank1 = s.bank1 := rfl
@[simp] theorem loadNext_front (s : State) (rule gens : Nat) : (s.loadNext rule gens).front = s.front := rfl
@[simp] theorem loadNext_carry (s : State) (rule gens : Nat) : (s.loadNext rule gens).carry = s.carry := rfl
@[simp] theorem loadNext_k (s : State) (rule gens : Nat) : (s.loadNext rule gens).k = s.k := rfl
@[simp] theorem loadNext_gensLeft (s : State) (rule gens : Nat) : (s.loadNext rule gens).gensLeft = gens := rfl
@[simp] theorem loadNext_ruleQ (s : State) (rule gens : Nat) : (s.loadNext rule gens).ruleQ = ruleByte rule := rfl
@[simp] theorem loadNext_busy (s : State) (rule gens : Nat) : (s.loadNext rule gens).busy = s.busy := rfl
@[simp] theorem loadNext_payloadLeft (s : State) (rule gens : Nat) : (s.loadNext rule gens).payloadLeft = s.payloadLeft := rfl
@[simp] theorem loadNext_nQ (s : State) (rule gens : Nat) : (s.loadNext rule gens).nQ = s.nQ := rfl
@[simp] theorem loadNext_lenQ (s : State) (rule gens : Nat) : (s.loadNext rule gens).lenQ = s.lenQ := rfl
@[simp] theorem loadNext_keep (s : State) (rule gens : Nat) : (s.loadNext rule gens).keep = s.keep := rfl
@[simp] theorem loadNext_rsp (s : State) (rule gens : Nat) : (s.loadNext rule gens).rsp = s.rsp := rfl
@[simp] theorem loadNext_rst (s : State) (rule gens : Nat) : (s.loadNext rule gens).rst = s.rst := rfl
@[simp] theorem loadNext_rspReady (s : State) (rule gens : Nat) : (s.loadNext rule gens).rspReady = s.rspReady := rfl
@[simp] theorem loadNext_cmdIn (s : State) (rule gens : Nat) : (s.loadNext rule gens).cmdIn = s.cmdIn := rfl
@[simp] theorem loadNext_delivered (s : State) (rule gens : Nat) : (s.loadNext rule gens).delivered = s.delivered := rfl

/-! ### `startGeneration` -/

@[simp] theorem startGeneration_cfg (s : State) : (s.startGeneration).cfg = s.cfg := rfl
@[simp] theorem startGeneration_length (s : State) : (s.startGeneration).length = s.length := rfl
@[simp] theorem startGeneration_bank0 (s : State) : (s.startGeneration).bank0 = s.bank0 := rfl
@[simp] theorem startGeneration_bank1 (s : State) : (s.startGeneration).bank1 = s.bank1 := rfl
@[simp] theorem startGeneration_front (s : State) : (s.startGeneration).front = s.front := rfl
@[simp] theorem startGeneration_carry (s : State) : (s.startGeneration).carry = 0 := rfl
@[simp] theorem startGeneration_k (s : State) : (s.startGeneration).k = 0 := rfl
@[simp] theorem startGeneration_gensLeft (s : State) : (s.startGeneration).gensLeft = s.gensLeft := rfl
@[simp] theorem startGeneration_ruleQ (s : State) : (s.startGeneration).ruleQ = s.ruleQ := rfl
@[simp] theorem startGeneration_busy (s : State) : (s.startGeneration).busy = s.busy := rfl
@[simp] theorem startGeneration_payloadLeft (s : State) : (s.startGeneration).payloadLeft = s.payloadLeft := rfl
@[simp] theorem startGeneration_nQ (s : State) : (s.startGeneration).nQ = s.nQ := rfl
@[simp] theorem startGeneration_lenQ (s : State) : (s.startGeneration).lenQ = s.lenQ := rfl
@[simp] theorem startGeneration_keep (s : State) : (s.startGeneration).keep = s.keep := rfl
@[simp] theorem startGeneration_rsp (s : State) : (s.startGeneration).rsp = s.rsp := rfl
@[simp] theorem startGeneration_rst (s : State) : (s.startGeneration).rst = s.rst := rfl
@[simp] theorem startGeneration_rspReady (s : State) : (s.startGeneration).rspReady = s.rspReady := rfl
@[simp] theorem startGeneration_cmdIn (s : State) : (s.startGeneration).cmdIn = s.cmdIn := rfl
@[simp] theorem startGeneration_delivered (s : State) : (s.startGeneration).delivered = s.delivered := rfl

/-! ### `advance` -/

@[simp] theorem advance_cfg (s : State) (cur : Word) : (s.advance cur).cfg = s.cfg := rfl
@[simp] theorem advance_length (s : State) (cur : Word) : (s.advance cur).length = s.length := rfl
@[simp] theorem advance_bank0 (s : State) (cur : Word) : (s.advance cur).bank0 = s.bank0 := rfl
@[simp] theorem advance_bank1 (s : State) (cur : Word) : (s.advance cur).bank1 = s.bank1 := rfl
@[simp] theorem advance_front (s : State) (cur : Word) : (s.advance cur).front = s.front := rfl
@[simp] theorem advance_carry (s : State) (cur : Word) : (s.advance cur).carry = BitVec.ofNat 2 cur := rfl
@[simp] theorem advance_k (s : State) (cur : Word) : (s.advance cur).k = s.k + 1 := rfl
@[simp] theorem advance_gensLeft (s : State) (cur : Word) : (s.advance cur).gensLeft = s.gensLeft := rfl
@[simp] theorem advance_ruleQ (s : State) (cur : Word) : (s.advance cur).ruleQ = s.ruleQ := rfl
@[simp] theorem advance_busy (s : State) (cur : Word) : (s.advance cur).busy = s.busy := rfl
@[simp] theorem advance_payloadLeft (s : State) (cur : Word) : (s.advance cur).payloadLeft = s.payloadLeft := rfl
@[simp] theorem advance_nQ (s : State) (cur : Word) : (s.advance cur).nQ = s.nQ := rfl
@[simp] theorem advance_lenQ (s : State) (cur : Word) : (s.advance cur).lenQ = s.lenQ := rfl
@[simp] theorem advance_keep (s : State) (cur : Word) : (s.advance cur).keep = s.keep := rfl
@[simp] theorem advance_rsp (s : State) (cur : Word) : (s.advance cur).rsp = s.rsp := rfl
@[simp] theorem advance_rst (s : State) (cur : Word) : (s.advance cur).rst = s.rst := rfl
@[simp] theorem advance_rspReady (s : State) (cur : Word) : (s.advance cur).rspReady = s.rspReady := rfl
@[simp] theorem advance_cmdIn (s : State) (cur : Word) : (s.advance cur).cmdIn = s.cmdIn := rfl
@[simp] theorem advance_delivered (s : State) (cur : Word) : (s.advance cur).delivered = s.delivered := rfl

/-! ### `countGeneration` -/

@[simp] theorem countGeneration_cfg (s : State) : (s.countGeneration).cfg = s.cfg := rfl
@[simp] theorem countGeneration_length (s : State) : (s.countGeneration).length = s.length := rfl
@[simp] theorem countGeneration_bank0 (s : State) : (s.countGeneration).bank0 = s.bank0 := rfl
@[simp] theorem countGeneration_bank1 (s : State) : (s.countGeneration).bank1 = s.bank1 := rfl
@[simp] theorem countGeneration_front (s : State) : (s.countGeneration).front = s.front := rfl
@[simp] theorem countGeneration_carry (s : State) : (s.countGeneration).carry = s.carry := rfl
@[simp] theorem countGeneration_k (s : State) : (s.countGeneration).k = s.k := rfl
@[simp] theorem countGeneration_gensLeft (s : State) : (s.countGeneration).gensLeft = s.gensLeft - 1 := rfl
@[simp] theorem countGeneration_ruleQ (s : State) : (s.countGeneration).ruleQ = s.ruleQ := rfl
@[simp] theorem countGeneration_busy (s : State) : (s.countGeneration).busy = s.busy := rfl
@[simp] theorem countGeneration_payloadLeft (s : State) : (s.countGeneration).payloadLeft = s.payloadLeft := rfl
@[simp] theorem countGeneration_nQ (s : State) : (s.countGeneration).nQ = s.nQ := rfl
@[simp] theorem countGeneration_lenQ (s : State) : (s.countGeneration).lenQ = s.lenQ := rfl
@[simp] theorem countGeneration_keep (s : State) : (s.countGeneration).keep = s.keep := rfl
@[simp] theorem countGeneration_rsp (s : State) : (s.countGeneration).rsp = s.rsp := rfl
@[simp] theorem countGeneration_rst (s : State) : (s.countGeneration).rst = s.rst := rfl
@[simp] theorem countGeneration_rspReady (s : State) : (s.countGeneration).rspReady = s.rspReady := rfl
@[simp] theorem countGeneration_cmdIn (s : State) : (s.countGeneration).cmdIn = s.cmdIn := rfl
@[simp] theorem countGeneration_delivered (s : State) : (s.countGeneration).delivered = s.delivered := rfl

/-! ### `resetEdge` -/

@[simp] theorem resetEdge_cfg (s : State) : (s.resetEdge).cfg = s.cfg := rfl
@[simp] theorem resetEdge_length (s : State) : (s.resetEdge).length = 0 := rfl
@[simp] theorem resetEdge_bank0 (s : State) : (s.resetEdge).bank0 = [] := rfl
@[simp] theorem resetEdge_bank1 (s : State) : (s.resetEdge).bank1 = [] := rfl
@[simp] theorem resetEdge_front (s : State) : (s.resetEdge).front = false := rfl
@[simp] theorem resetEdge_carry (s : State) : (s.resetEdge).carry = 0 := rfl
@[simp] theorem resetEdge_k (s : State) : (s.resetEdge).k = 0 := rfl
@[simp] theorem resetEdge_gensLeft (s : State) : (s.resetEdge).gensLeft = 0 := rfl
@[simp] theorem resetEdge_ruleQ (s : State) : (s.resetEdge).ruleQ = 0 := rfl
@[simp] theorem resetEdge_busy (s : State) : (s.resetEdge).busy = false := rfl
@[simp] theorem resetEdge_payloadLeft (s : State) : (s.resetEdge).payloadLeft = 0 := rfl
@[simp] theorem resetEdge_nQ (s : State) : (s.resetEdge).nQ = 0 := rfl
@[simp] theorem resetEdge_lenQ (s : State) : (s.resetEdge).lenQ = 0 := rfl
@[simp] theorem resetEdge_keep (s : State) : (s.resetEdge).keep = false := rfl
@[simp] theorem resetEdge_rsp (s : State) : (s.resetEdge).rsp = none := rfl
@[simp] theorem resetEdge_rst (s : State) : (s.resetEdge).rst = s.rst := rfl
@[simp] theorem resetEdge_rspReady (s : State) : (s.resetEdge).rspReady = s.rspReady := rfl
@[simp] theorem resetEdge_cmdIn (s : State) : (s.resetEdge).cmdIn = s.cmdIn := rfl
@[simp] theorem resetEdge_delivered (s : State) : (s.resetEdge).delivered = s.delivered := rfl

/-! ### `withBeats` -/

@[simp] theorem withBeats_cfg (s : State) (beats : List Beat) : (s.withBeats beats).cfg = s.cfg := rfl
@[simp] theorem withBeats_length (s : State) (beats : List Beat) : (s.withBeats beats).length = s.length := rfl
@[simp] theorem withBeats_bank0 (s : State) (beats : List Beat) : (s.withBeats beats).bank0 = s.bank0 := rfl
@[simp] theorem withBeats_bank1 (s : State) (beats : List Beat) : (s.withBeats beats).bank1 = s.bank1 := rfl
@[simp] theorem withBeats_front (s : State) (beats : List Beat) : (s.withBeats beats).front = s.front := rfl
@[simp] theorem withBeats_carry (s : State) (beats : List Beat) : (s.withBeats beats).carry = s.carry := rfl
@[simp] theorem withBeats_k (s : State) (beats : List Beat) : (s.withBeats beats).k = s.k := rfl
@[simp] theorem withBeats_gensLeft (s : State) (beats : List Beat) : (s.withBeats beats).gensLeft = s.gensLeft := rfl
@[simp] theorem withBeats_ruleQ (s : State) (beats : List Beat) : (s.withBeats beats).ruleQ = s.ruleQ := rfl
@[simp] theorem withBeats_busy (s : State) (beats : List Beat) : (s.withBeats beats).busy = false := rfl
@[simp] theorem withBeats_payloadLeft (s : State) (beats : List Beat) : (s.withBeats beats).payloadLeft = s.payloadLeft := rfl
@[simp] theorem withBeats_nQ (s : State) (beats : List Beat) : (s.withBeats beats).nQ = s.nQ := rfl
@[simp] theorem withBeats_lenQ (s : State) (beats : List Beat) : (s.withBeats beats).lenQ = s.lenQ := rfl
@[simp] theorem withBeats_keep (s : State) (beats : List Beat) : (s.withBeats beats).keep = s.keep := rfl
@[simp] theorem withBeats_rsp (s : State) (beats : List Beat) : (s.withBeats beats).rsp = none := rfl
@[simp] theorem withBeats_rst (s : State) (beats : List Beat) : (s.withBeats beats).rst = false := rfl
@[simp] theorem withBeats_rspReady (s : State) (beats : List Beat) : (s.withBeats beats).rspReady = s.rspReady := rfl
@[simp] theorem withBeats_cmdIn (s : State) (beats : List Beat) : (s.withBeats beats).cmdIn = beats := rfl
@[simp] theorem withBeats_delivered (s : State) (beats : List Beat) : (s.withBeats beats).delivered = s.delivered := rfl

/-! ### The state after reset -/

@[simp] theorem resetWith_cfg (c : Config) : (State.resetWith c).cfg = c := rfl
@[simp] theorem resetWith_length (c : Config) : (State.resetWith c).length = 0 := rfl
@[simp] theorem resetWith_bank0 (c : Config) : (State.resetWith c).bank0 = [] := rfl
@[simp] theorem resetWith_bank1 (c : Config) : (State.resetWith c).bank1 = [] := rfl
@[simp] theorem resetWith_front (c : Config) : (State.resetWith c).front = false := rfl
@[simp] theorem resetWith_carry (c : Config) : (State.resetWith c).carry = 0 := rfl
@[simp] theorem resetWith_k (c : Config) : (State.resetWith c).k = 0 := rfl
@[simp] theorem resetWith_gensLeft (c : Config) : (State.resetWith c).gensLeft = 0 := rfl
@[simp] theorem resetWith_ruleQ (c : Config) : (State.resetWith c).ruleQ = 0 := rfl
@[simp] theorem resetWith_busy (c : Config) : (State.resetWith c).busy = false := rfl
@[simp] theorem resetWith_payloadLeft (c : Config) : (State.resetWith c).payloadLeft = 0 := rfl
@[simp] theorem resetWith_nQ (c : Config) : (State.resetWith c).nQ = 0 := rfl
@[simp] theorem resetWith_lenQ (c : Config) : (State.resetWith c).lenQ = 0 := rfl
@[simp] theorem resetWith_keep (c : Config) : (State.resetWith c).keep = false := rfl
@[simp] theorem resetWith_rsp (c : Config) : (State.resetWith c).rsp = none := rfl
@[simp] theorem resetWith_rst (c : Config) : (State.resetWith c).rst = false := rfl
@[simp] theorem resetWith_rspReady (c : Config) : (State.resetWith c).rspReady = true := rfl
@[simp] theorem resetWith_cmdIn (c : Config) : (State.resetWith c).cmdIn = [] := rfl
@[simp] theorem resetWith_delivered (c : Config) : (State.resetWith c).delivered = [] := rfl

end Sys2Proof.Machine
end

