-- ==== Sys2Proof/Laws/Store.lean ====
section
/-! SUPPORT. The laws of the word store and of the Row: how many words a length needs, what MemWrite and Swap do to
what MemRead sees, and the Row's words and cells in terms of MemRead. -/

namespace Sys2Proof.Machine

/-! ### Words for a length -/

theorem wordsFor_le_iff {w : Nat} (hw : 0 < w) (len m : Nat) : wordsFor w len ≤ m ↔ len ≤ w * m := by
  unfold wordsFor ceilDiv
  rw [Nat.div_le_iff_le_mul_add_pred hw]
  omega

theorem lt_wordsFor_iff {w : Nat} (hw : 0 < w) (len k : Nat) : k < wordsFor w len ↔ k * w < len := by
  have := wordsFor_le_iff hw len k
  rw [Nat.mul_comm] at this
  omega

@[simp] theorem wordsFor_zero (w : Nat) : wordsFor w 0 = 0 := by
  rcases Nat.eq_zero_or_pos w with rfl | h
  · rfl
  · exact Nat.le_zero.1 ((wordsFor_le_iff h 0 0).2 (by simp))

/-- The word of a Row position exists (R80). -/
theorem wordOf_lt {w : Nat} (hw : 0 < w) {len i : Nat} (h : i < len) : wordOf w i < wordsFor w len := by
  rw [lt_wordsFor_iff hw]
  exact lt_of_le_of_lt (Nat.div_mul_le_self i w) h

/-- A word index within a length that fits the capacity is a bank index. -/
theorem wordsFor_le_maxWords {c : Config} (hw : 0 < c.w) {len : Nat} (h : len ≤ c.capBits) :
    wordsFor c.w len ≤ c.maxWords := (wordsFor_le_iff hw _ _).2 h

/-! ### The parameters -/

theorem Config.legal_iff (c : Config) :
    c.legal = true ↔ 8 ≤ c.w ∧ 1 ≤ c.maxWords ∧ 9 ≤ c.aw ∧ c.capBits < 2 ^ c.aw := by
  simp [Config.legal, and_assoc]

theorem Config.legal_w_pos {c : Config} (h : c.legal = true) : 0 < c.w := by
  have := (Config.legal_iff c).1 h; omega

/-! ### MemRead, MemWrite, Swap -/

/-- MemWrite in terms of the two banks (R19): the back bank is written, the front bank is not. -/
theorem bank_memWrite (s : State) (k : Nat) (v : Word) (b : Bool) :
    (s.memWrite k v).bank b = if b = s.front then s.bank b else Bank.write (s.bank b) k (v % 2 ^ s.cfg.w) := by
  cases b <;> cases h : s.front <;> simp [State.bank, h]

@[simp] theorem bank_swap (s : State) (n : Nat) (x : Bool) : (s.swap n).bank x = s.bank x := rfl
@[simp] theorem bank_respond (s : State) (v : Nat) (x : Bool) : (s.respond v).bank x = s.bank x := rfl
@[simp] theorem bank_raise (s : State) (e : Status) (x : Bool) : (s.raise e).bank x = s.bank x := rfl
@[simp] theorem bank_deliver (s : State) (r : Response) (x : Bool) : (s.deliver r).bank x = s.bank x := rfl
@[simp] theorem bank_takeBeats (s : State) (rest : List Beat) (x : Bool) : (s.takeBeats rest).bank x = s.bank x := rfl
@[simp] theorem bank_openConstruct (s : State) (n len : Nat) (x : Bool) : (s.openConstruct n len).bank x = s.bank x := rfl
@[simp] theorem bank_countPayload (s : State) (x : Bool) : (s.countPayload).bank x = s.bank x := rfl
@[simp] theorem bank_loadNext (s : State) (rule gens : Nat) (x : Bool) : (s.loadNext rule gens).bank x = s.bank x := rfl
@[simp] theorem bank_startGeneration (s : State) (x : Bool) : (s.startGeneration).bank x = s.bank x := rfl
@[simp] theorem bank_advance (s : State) (cur : Word) (x : Bool) : (s.advance cur).bank x = s.bank x := rfl
@[simp] theorem bank_countGeneration (s : State) (x : Bool) : (s.countGeneration).bank x = s.bank x := rfl
@[simp] theorem bank_withBeats (s : State) (beats : List Beat) (x : Bool) : (s.withBeats beats).bank x = s.bank x := rfl

@[simp] theorem wordCount_memWrite (s : State) (k : Nat) (v : Word) : (s.memWrite k v).wordCount = s.wordCount := rfl
@[simp] theorem memRead_respond (s : State) (v : Nat) (j : Nat) : (s.respond v).memRead j = s.memRead j := rfl
@[simp] theorem wordCount_respond (s : State) (v : Nat) : (s.respond v).wordCount = s.wordCount := rfl
@[simp] theorem row_respond (s : State) (v : Nat) : (s.respond v).row = s.row := rfl
@[simp] theorem memRead_raise (s : State) (e : Status) (j : Nat) : (s.raise e).memRead j = s.memRead j := rfl
@[simp] theorem wordCount_raise (s : State) (e : Status) : (s.raise e).wordCount = s.wordCount := rfl
@[simp] theorem row_raise (s : State) (e : Status) : (s.raise e).row = s.row := rfl
@[simp] theorem memRead_deliver (s : State) (r : Response) (j : Nat) : (s.deliver r).memRead j = s.memRead j := rfl
@[simp] theorem wordCount_deliver (s : State) (r : Response) : (s.deliver r).wordCount = s.wordCount := rfl
@[simp] theorem row_deliver (s : State) (r : Response) : (s.deliver r).row = s.row := rfl
@[simp] theorem memRead_takeBeats (s : State) (rest : List Beat) (j : Nat) : (s.takeBeats rest).memRead j = s.memRead j := rfl
@[simp] theorem wordCount_takeBeats (s : State) (rest : List Beat) : (s.takeBeats rest).wordCount = s.wordCount := rfl
@[simp] theorem row_takeBeats (s : State) (rest : List Beat) : (s.takeBeats rest).row = s.row := rfl
@[simp] theorem memRead_openConstruct (s : State) (n len : Nat) (j : Nat) : (s.openConstruct n len).memRead j = s.memRead j := rfl
@[simp] theorem wordCount_openConstruct (s : State) (n len : Nat) : (s.openConstruct n len).wordCount = s.wordCount := rfl
@[simp] theorem row_openConstruct (s : State) (n len : Nat) : (s.openConstruct n len).row = s.row := rfl
@[simp] theorem memRead_countPayload (s : State) (j : Nat) : (s.countPayload).memRead j = s.memRead j := rfl
@[simp] theorem wordCount_countPayload (s : State) : (s.countPayload).wordCount = s.wordCount := rfl
@[simp] theorem row_countPayload (s : State) : (s.countPayload).row = s.row := rfl
@[simp] theorem memRead_loadNext (s : State) (rule gens : Nat) (j : Nat) : (s.loadNext rule gens).memRead j = s.memRead j := rfl
@[simp] theorem wordCount_loadNext (s : State) (rule gens : Nat) : (s.loadNext rule gens).wordCount = s.wordCount := rfl
@[simp] theorem row_loadNext (s : State) (rule gens : Nat) : (s.loadNext rule gens).row = s.row := rfl
@[simp] theorem memRead_startGeneration (s : State) (j : Nat) : (s.startGeneration).memRead j = s.memRead j := rfl
@[simp] theorem wordCount_startGeneration (s : State) : (s.startGeneration).wordCount = s.wordCount := rfl
@[simp] theorem row_startGeneration (s : State) : (s.startGeneration).row = s.row := rfl
@[simp] theorem memRead_advance (s : State) (cur : Word) (j : Nat) : (s.advance cur).memRead j = s.memRead j := rfl
@[simp] theorem wordCount_advance (s : State) (cur : Word) : (s.advance cur).wordCount = s.wordCount := rfl
@[simp] theorem row_advance (s : State) (cur : Word) : (s.advance cur).row = s.row := rfl
@[simp] theorem memRead_countGeneration (s : State) (j : Nat) : (s.countGeneration).memRead j = s.memRead j := rfl
@[simp] theorem wordCount_countGeneration (s : State) : (s.countGeneration).wordCount = s.wordCount := rfl
@[simp] theorem row_countGeneration (s : State) : (s.countGeneration).row = s.row := rfl
@[simp] theorem memRead_withBeats (s : State) (beats : List Beat) (j : Nat) : (s.withBeats beats).memRead j = s.memRead j := rfl
@[simp] theorem wordCount_withBeats (s : State) (beats : List Beat) : (s.withBeats beats).wordCount = s.wordCount := rfl
@[simp] theorem row_withBeats (s : State) (beats : List Beat) : (s.withBeats beats).row = s.row := rfl

/-- MemRead never sees a MemWrite before the Swap (R19, R115). -/
@[simp] theorem memRead_memWrite (s : State) (k j : Nat) (v : Word) : (s.memWrite k v).memRead j = s.memRead j := by
  simp [State.memRead, bank_memWrite]

/-- After Swap, MemRead reads the former back bank (R20). -/
theorem memRead_swap (s : State) (n j : Nat) : (s.swap n).memRead j = Bank.read (s.bank (!s.front)) j := rfl

@[simp] theorem row_memWrite (s : State) (k : Nat) (v : Word) : (s.memWrite k v).row = s.row := by
  unfold State.row
  simp only [memWrite_length, wordCount_memWrite, Row.mk.injEq, true_and]
  exact List.map_congr_left fun j _ => memRead_memWrite s k j v

/-! ### The Row -/

@[simp] theorem row_length (s : State) : s.row.length = s.length := rfl

@[simp] theorem row_words_length (s : State) : s.row.words.length = s.wordCount := by simp [State.row]

theorem row_words_getD (s : State) (k : Nat) (h : k < s.wordCount) : s.row.words.getD k 0 = s.memRead k := by
  simp [State.row, List.getD_eq_getElem?_getD, h]

/-- The Row is all a state shows: the same parameters, length and words give the same Row (R13). -/
theorem row_eq_of (s t : State) (hc : s.cfg = t.cfg) (hl : s.length = t.length)
    (hr : ∀ k, k < s.wordCount → s.memRead k = t.memRead k) : s.row = t.row := by
  have hw : s.wordCount = t.wordCount := by simp [State.wordCount, hc, hl]
  unfold State.row
  rw [← hw, hl]
  congr 1
  exact List.map_congr_left fun k hk => hr k (List.mem_range.1 hk)

/-- A cell is one bit of one word of the front bank (R29). -/
theorem cell_eq (s : State) (hw : 0 < s.cfg.w) (i : Nat) (h : i < s.length) :
    s.cell i = (s.memRead (wordOf s.cfg.w i)).testBit (bitOf s.cfg.w i) := by
  unfold State.cell Row.cell
  rw [row_words_getD s _ (wordOf_lt hw h)]

/-- `bit` inside the Row (R31). -/
theorem Row.bit_of_lt (w : Nat) (r : Row) (i : Nat) (h : i < r.length) : r.bit w (i : Int) = r.cell w i := by
  have : (0 : Int) ≤ i ∧ (i : Int) < r.length := by omega
  simp only [Row.bit, if_pos this, Int.toNat_natCast]

/-- `bit` outside the Row (R31). -/
theorem Row.bit_of_not (w : Nat) (r : Row) (i : Int) (h : ¬(0 ≤ i ∧ i < r.length)) : r.bit w i = false := if_neg h

end Sys2Proof.Machine
end

