-- ==== Sys2Proof/Laws/Pipeline.lean ====
section
/-! SUPPORT. What the datapath can do: one word, a run of words, a generation, a run of generations: which fields each
leaves alone, and which bank words. That it computes the cells of R91 is an obligation (R117). -/

namespace Sys2Proof.Machine

/-! ### One word -/

/-- One word of a generation changes at most the back bank, `carry` and `k`. -/
theorem pipeWord_eq (s : State) : s.pipeWord =
    { s with
      bank0 := s.pipeWord.bank0, bank1 := s.pipeWord.bank1, carry := BitVec.ofNat 2 s.curWord, k := s.k + 1 } := rfl

@[simp] theorem pipeWord_front (s : State) : s.pipeWord.front = s.front := rfl
@[simp] theorem pipeWord_cfg (s : State) : s.pipeWord.cfg = s.cfg := rfl
@[simp] theorem pipeWord_length (s : State) : s.pipeWord.length = s.length := rfl
@[simp] theorem pipeWord_k (s : State) : s.pipeWord.k = s.k + 1 := rfl
@[simp] theorem pipeWord_carry (s : State) : s.pipeWord.carry = BitVec.ofNat 2 s.curWord := rfl
@[simp] theorem pipeWord_ruleQ (s : State) : s.pipeWord.ruleQ = s.ruleQ := rfl

/-- One word in terms of the banks: word `k` of the back bank (R115). -/
theorem bank_pipeWord (s : State) (b : Bool) : s.pipeWord.bank b =
    if b = s.front then s.bank b else Bank.write (s.bank b) s.k (s.newWord % 2 ^ s.cfg.w) := by
  unfold State.pipeWord
  rw [bank_advance, bank_memWrite]

@[simp] theorem memRead_pipeWord (s : State) (j : Nat) : s.pipeWord.memRead j = s.memRead j := by
  unfold State.pipeWord
  rw [memRead_advance, memRead_memWrite]

/-! ### A run of words -/

/-- A run of words changes at most the back bank, `carry` and `k`. -/
theorem pipeWords_eq (n : Nat) (s : State) : State.pipeWords n s =
    { s with
      bank0 := (State.pipeWords n s).bank0, bank1 := (State.pipeWords n s).bank1,
      carry := (State.pipeWords n s).carry, k := s.k + n } := by
  induction n generalizing s with
  | zero => rfl
  | succ n ih =>
    show State.pipeWords n s.pipeWord = _
    rw [ih, pipeWord_eq s]
    simp only [State.pipeWords, State.mk.injEq, true_and, and_true]
    exact ⟨rfl, rfl, rfl, by omega⟩

/-- A run of words does not write the front bank (R115). -/
theorem pipeWords_front_bank (n : Nat) (s : State) : (State.pipeWords n s).bank s.front = s.bank s.front := by
  induction n generalizing s with
  | zero => rfl
  | succ n ih =>
    show (State.pipeWords n s.pipeWord).bank s.front = _
    have := ih s.pipeWord
    rw [pipeWord_front] at this
    rw [this, bank_pipeWord, if_pos rfl]

/-- A run of words writes the back bank at the indices it passes only (R115). -/
theorem read_pipeWords_other (n : Nat) (s : State) (j : Nat) (h : j < s.k ∨ s.k + n ≤ j) :
    Bank.read ((State.pipeWords n s).bank (!s.front)) j = Bank.read (s.bank (!s.front)) j := by
  induction n generalizing s with
  | zero => rfl
  | succ n ih =>
    show Bank.read ((State.pipeWords n s.pipeWord).bank (!s.front)) j = _
    have := ih s.pipeWord (by rw [pipeWord_k]; omega)
    rw [pipeWord_front] at this
    have hne : (!s.front) ≠ s.front := by cases s.front <;> decide
    rw [this, bank_pipeWord, if_neg hne, Bank.read_write_other _ _ _ _ (by omega)]

/-- A run of words one longer: its last word is written on the state the others left. -/
theorem pipeWords_succ (n : Nat) (s : State) : State.pipeWords (n + 1) s = (State.pipeWords n s).pipeWord := by
  induction n generalizing s with
  | zero => rfl
  | succ n ih => exact ih s.pipeWord

/-- Word `k + m` of the back bank, after a run that passes it, is the word the datapath makes on the state the `m`
words before it left (R115). -/
theorem read_pipeWords (n : Nat) (s : State) (m : Nat) (h : m < n) :
    Bank.read ((State.pipeWords n s).bank (!s.front)) (s.k + m) = (State.pipeWords m s).newWord % 2 ^ s.cfg.w := by
  induction n with
  | zero => omega
  | succ n ih =>
    have e := pipeWords_eq n s
    have hf : (State.pipeWords n s).front = s.front := by rw [e]
    have hk : (State.pipeWords n s).k = s.k + n := by rw [e]
    have hc : (State.pipeWords n s).cfg = s.cfg := by rw [e]
    have hne : (!s.front) ≠ s.front := by cases s.front <;> decide
    rw [pipeWords_succ, bank_pipeWord, hf, if_neg hne, hk, hc, Bank.read_write]
    by_cases hm : m = n
    · subst hm; rw [if_pos rfl]
    · rw [if_neg (by omega), ih (by omega)]

/-! ### Generations -/

/-- One generation: the fields it leaves alone (R116). -/
theorem generation_eq (s : State) : s.generation =
    { s with
      length := s.length + 2, front := !s.front,
      bank0 := s.generation.bank0, bank1 := s.generation.bank1,
      carry := s.generation.carry, k := wordsFor s.cfg.w (s.length + 2) } := by
  conv_lhs => unfold State.generation State.swap
  rw [pipeWords_eq]
  simp only [startGeneration_front, startGeneration_k, startGeneration_cfg, Nat.zero_add]
  rfl

@[simp] theorem generation_cfg (s : State) : s.generation.cfg = s.cfg := by rw [generation_eq]
@[simp] theorem generation_length (s : State) : s.generation.length = s.length + 2 := by rw [generation_eq]
@[simp] theorem generation_front (s : State) : s.generation.front = !s.front := by rw [generation_eq]
@[simp] theorem generation_k (s : State) : s.generation.k = wordsFor s.cfg.w (s.length + 2) := by rw [generation_eq]
@[simp] theorem generation_gensLeft (s : State) : s.generation.gensLeft = s.gensLeft := by rw [generation_eq]
@[simp] theorem generation_ruleQ (s : State) : s.generation.ruleQ = s.ruleQ := by rw [generation_eq]
@[simp] theorem generation_busy (s : State) : s.generation.busy = s.busy := by rw [generation_eq]
@[simp] theorem generation_payloadLeft (s : State) : s.generation.payloadLeft = s.payloadLeft := by rw [generation_eq]
@[simp] theorem generation_nQ (s : State) : s.generation.nQ = s.nQ := by rw [generation_eq]
@[simp] theorem generation_lenQ (s : State) : s.generation.lenQ = s.lenQ := by rw [generation_eq]
@[simp] theorem generation_keep (s : State) : s.generation.keep = s.keep := by rw [generation_eq]
@[simp] theorem generation_rsp (s : State) : s.generation.rsp = s.rsp := by rw [generation_eq]
@[simp] theorem generation_rst (s : State) : s.generation.rst = s.rst := by rw [generation_eq]
@[simp] theorem generation_rspReady (s : State) : s.generation.rspReady = s.rspReady := by rw [generation_eq]
@[simp] theorem generation_cmdIn (s : State) : s.generation.cmdIn = s.cmdIn := by rw [generation_eq]
@[simp] theorem generation_delivered (s : State) : s.generation.delivered = s.delivered := by rw [generation_eq]

/-- The Row the generation reads is left in the former front bank (R20, R115). -/
theorem generation_old_bank (s : State) : s.generation.bank s.front = s.bank s.front := by
  have := pipeWords_front_bank (wordsFor s.cfg.w (s.length + 2)) s.startGeneration
  simpa [State.generation] using this

/-- A generation's new words, as MemRead sees them after its Swap (R115). -/
theorem memRead_generation (s : State) (k : Nat) (h : k < wordsFor s.cfg.w (s.length + 2)) :
    s.generation.memRead k = (State.pipeWords k s.startGeneration).newWord % 2 ^ s.cfg.w := by
  have e := pipeWords_eq (wordsFor s.cfg.w (s.length + 2)) s.startGeneration
  have hf : (State.pipeWords (wordsFor s.cfg.w (s.length + 2)) s.startGeneration).front = s.front := by rw [e]; rfl
  have := read_pipeWords (wordsFor s.cfg.w (s.length + 2)) s.startGeneration k h
  unfold State.generation
  rw [memRead_swap, hf]
  simpa using this

/-- A generation leaves both banks alone at and beyond the new word count. -/
theorem read_generation_other (s : State) (b : Bool) (j : Nat) (h : wordsFor s.cfg.w (s.length + 2) ≤ j) :
    Bank.read (s.generation.bank b) j = Bank.read (s.bank b) j := by
  by_cases hb : b = s.front
  · subst hb; rw [generation_old_bank]
  · have hb' : b = !s.front := by cases b <;> cases hs : s.front <;> simp_all
    subst hb'
    have := read_pipeWords_other (wordsFor s.cfg.w (s.length + 2)) s.startGeneration j
      (.inr (by simpa using h))
    simpa [State.generation] using this

/-- `g` generations: the fields they leave alone (R97, R103). -/
theorem generations_eq (g : Nat) (s : State) : State.generations g s =
    { s with
      length := s.length + 2 * g, front := if g % 2 = 0 then s.front else !s.front,
      bank0 := (State.generations g s).bank0, bank1 := (State.generations g s).bank1,
      carry := (State.generations g s).carry, k := (State.generations g s).k, gensLeft := s.gensLeft - g } := by
  induction g generalizing s with
  | zero => rfl
  | succ g ih =>
    show State.generations g s.generation.countGeneration = _
    rw [ih]
    simp only [countGeneration_cfg, countGeneration_length, countGeneration_front, countGeneration_gensLeft,
      countGeneration_ruleQ, countGeneration_busy, countGeneration_payloadLeft, countGeneration_nQ,
      countGeneration_lenQ, countGeneration_keep, countGeneration_rsp, countGeneration_rst, countGeneration_rspReady,
      countGeneration_cmdIn, countGeneration_delivered, generation_cfg, generation_length, generation_front,
      generation_gensLeft, generation_ruleQ, generation_busy, generation_payloadLeft, generation_nQ, generation_lenQ,
      generation_keep, generation_rsp, generation_rst, generation_rspReady, generation_cmdIn, generation_delivered,
      State.generations, State.mk.injEq, true_and, and_true]
    refine ⟨by omega, ?_, by omega⟩
    rcases Nat.mod_two_eq_zero_or_one g with h | h
    · rw [if_pos h, if_neg (by omega)]
    · rw [if_neg (by omega), if_pos (by omega), Bool.not_not]

/-- After at least one generation the word counter is the last word count (R115). -/
theorem generations_k_le (g : Nat) (s : State) (m : Nat) (hk : s.k ≤ m)
    (h : wordsFor s.cfg.w (s.length + 2 * g) ≤ m) : (State.generations g s).k ≤ m := by
  induction g generalizing s with
  | zero => exact hk
  | succ g ih =>
    have hc : s.generation.countGeneration.cfg = s.cfg := by simp
    have hl : s.generation.countGeneration.length = s.length + 2 := by simp
    have hk' : s.generation.countGeneration.k = wordsFor s.cfg.w (s.length + 2) := by simp
    refine ih _ ?_ ?_
    · rw [hk']
      refine le_trans ?_ h
      unfold wordsFor ceilDiv
      exact Nat.div_le_div_right (by omega)
    · rw [hc, hl]
      rwa [show s.length + 2 + 2 * g = s.length + 2 * (g + 1) from by omega]

/-- `g` generations leave both banks alone at and beyond the last word count. -/
theorem read_generations_other (g : Nat) (s : State) (b : Bool) (j : Nat)
    (h : wordsFor s.cfg.w (s.length + 2 * g) ≤ j) :
    Bank.read ((State.generations g s).bank b) j = Bank.read (s.bank b) j := by
  induction g generalizing s with
  | zero => rfl
  | succ g ih =>
    have hc : s.generation.countGeneration.cfg = s.cfg := by simp
    have hl : s.generation.countGeneration.length = s.length + 2 := by simp
    show Bank.read ((State.generations g s.generation.countGeneration).bank b) j = _
    have h2 : wordsFor s.cfg.w (s.length + 2) ≤ j := by
      refine le_trans ?_ h
      unfold wordsFor ceilDiv
      exact Nat.div_le_div_right (by omega)
    rw [ih _ (by rw [hc, hl, show s.length + 2 + 2 * g = s.length + 2 * (g + 1) from by omega]; exact h),
      bank_countGeneration, read_generation_other s b j h2]

/-! ### The datapath does not look at the host's side -/

theorem pipeWords_takeBeats (n : Nat) (s : State) (rest : List Beat) :
    State.pipeWords n (s.takeBeats rest) = (State.pipeWords n s).takeBeats rest := by
  induction n generalizing s with
  | zero => rfl
  | succ n ih => exact ih s.pipeWord

theorem generations_takeBeats (g : Nat) (s : State) (rest : List Beat) :
    State.generations g (s.takeBeats rest) = (State.generations g s).takeBeats rest := by
  induction g generalizing s with
  | zero => rfl
  | succ g ih =>
    have h : (s.takeBeats rest).generation = s.generation.takeBeats rest := by
      have := pipeWords_takeBeats (wordsFor s.cfg.w (s.length + 2)) s.startGeneration rest
      show (State.pipeWords _ (s.startGeneration.takeBeats rest)).swap _ = _
      rw [show (wordsFor (s.takeBeats rest).cfg.w ((s.takeBeats rest).length + 2)) =
        wordsFor s.cfg.w (s.length + 2) from rfl, this]
      rfl
    show State.generations g (s.takeBeats rest).generation.countGeneration = _
    rw [h]
    exact ih s.generation.countGeneration

end Sys2Proof.Machine
end

