-- ==== Sys2Proof/Laws/Congruence.lean ====
section
/-! SUPPORT. What the datapath reads: two states with the same parameters, rule and length, and the same words of the Row
in whichever bank is the front one, are taken to the same words. -/

namespace Sys2Proof.Machine

/-- All a generation reads: the parameters, the rule, the length and the words of the Row (R107). -/
def SameInput (s t : State) : Prop :=
  s.cfg = t.cfg ∧ s.ruleQ = t.ruleQ ∧ s.length = t.length ∧ ∀ k, k < s.wordCount → s.memRead k = t.memRead k

theorem SameInput.wordCount {s t : State} (h : SameInput s t) : s.wordCount = t.wordCount := by
  simp [State.wordCount, h.1, h.2.2.1]

/-- The word made at the same place with the same carry is the same (R107 to R113). -/
theorem SameInput.curWord {s t : State} (h : SameInput s t) (hk : s.k = t.k) : s.curWord = t.curWord := by
  have hr : s.rawWord = t.rawWord := by
    unfold State.rawWord
    rw [← h.wordCount, ← hk]
    split
    · next hlt => exact h.2.2.2 _ hlt
    · rfl
  unfold State.curWord
  rw [hr, h.1, h.2.2.1, hk]

theorem SameInput.newWord {s t : State} (h : SameInput s t) (hk : s.k = t.k) (hc : s.carry = t.carry) :
    s.newWord = t.newWord := by
  unfold State.newWord State.outWord
  rw [h.curWord hk, h.1, h.2.1, h.2.2.1, hk, hc]

/-- The words before it leave the same input, place and carry. -/
theorem SameInput.pipeWords {s t : State} (h : SameInput s t) (hk : s.k = t.k) (hc : s.carry = t.carry) (n : Nat) :
    SameInput (State.pipeWords n s) (State.pipeWords n t) ∧ (State.pipeWords n s).k = (State.pipeWords n t).k ∧
      (State.pipeWords n s).carry = (State.pipeWords n t).carry := by
  induction n generalizing s t with
  | zero => exact ⟨h, hk, hc⟩
  | succ n ih =>
    have h' : SameInput s.pipeWord t.pipeWord := by
      refine ⟨h.1, h.2.1, h.2.2.1, fun k hlt => ?_⟩
      rw [memRead_pipeWord, memRead_pipeWord]
      exact h.2.2.2 k hlt
    exact ih h' (by rw [pipeWord_k, pipeWord_k, hk]) (by rw [pipeWord_carry, pipeWord_carry, h.curWord hk])

/-- A generation takes the same input to the same input. -/
theorem SameInput.generation {s t : State} (h : SameInput s t) : SameInput s.generation t.generation := by
  have hg : SameInput s.startGeneration t.startGeneration := ⟨h.1, h.2.1, h.2.2.1, h.2.2.2⟩
  refine ⟨by simpa using h.1, by simpa using h.2.1, by simpa using h.2.2.1, fun k hk => ?_⟩
  have hk' : k < wordsFor s.cfg.w (s.length + 2) := by
    unfold State.wordCount at hk
    rwa [generation_cfg, generation_length] at hk
  rw [memRead_generation s k hk', memRead_generation t k (by rw [← h.1, ← h.2.2.1]; exact hk'), ← h.1]
  obtain ⟨hi, hkk, hcc⟩ := hg.pipeWords rfl rfl k
  rw [hi.newWord hkk hcc]

/-- So do any number of generations (R102). -/
theorem SameInput.generations {s t : State} (h : SameInput s t) (g : Nat) :
    SameInput (State.generations g s) (State.generations g t) := by
  induction g generalizing s t with
  | zero => exact h
  | succ g ih =>
    have hg := h.generation
    exact ih (s := s.generation.countGeneration) (t := t.generation.countGeneration) ⟨hg.1, hg.2.1, hg.2.2.1, hg.2.2.2⟩

end Sys2Proof.Machine
end

