-- ==== Sys2Proof/Laws/Cost.lean ====
section
/-! SUPPORT. The accesses of a run of generations: which indices they read and write. That the counts are those of R161 is
an obligation. -/

namespace Sys2Proof.Machine

/-- A length that does not shrink needs no fewer words. -/
theorem wordsFor_mono (w : Nat) {a b : Nat} (h : a ≤ b) : wordsFor w a ≤ wordsFor w b := by
  unfold wordsFor ceilDiv; exact Nat.div_le_div_right (by omega)

/-- A run of words reads the indices it passes below the old word count, and writes those it passes (R107, R115). -/
theorem mem_pipeAccesses (n : Nat) (s : State) (a : Access) : a ∈ State.pipeAccesses n s ↔
    (∃ j, a = .read j ∧ s.k ≤ j ∧ j < s.k + n ∧ j < s.wordCount) ∨ ∃ j, a = .write j ∧ s.k ≤ j ∧ j < s.k + n := by
  induction n generalizing s with
  | zero =>
    simp only [State.pipeAccesses, List.not_mem_nil, false_iff, not_or, not_exists]
    exact ⟨fun j h => by omega, fun j h => by omega⟩
  | succ n ih =>
    have hw : s.pipeWord.wordCount = s.wordCount := rfl
    simp only [State.pipeAccesses, List.mem_append, ih, State.pipeWordAccesses, pipeWord_k, hw]
    cases a with
    | read j => by_cases h : s.k < s.wordCount <;> simp [h] <;> omega
    | write j => by_cases h : s.k < s.wordCount <;> simp [h] <;> omega

/-- The accesses of one generation. -/
theorem mem_generationAccesses (s : State) (a : Access) : a ∈ s.generationAccesses ↔
    (∃ j, a = .read j ∧ j < s.wordCount) ∨ ∃ j, a = .write j ∧ j < wordsFor s.cfg.w (s.length + 2) := by
  have hm : s.wordCount ≤ wordsFor s.cfg.w (s.length + 2) := wordsFor_mono _ (by omega)
  have h0 : s.startGeneration.wordCount = s.wordCount := rfl
  unfold State.generationAccesses
  rw [mem_pipeAccesses, startGeneration_k, h0]
  constructor
  · rintro (⟨j, h, _, _, hj⟩ | ⟨j, h, _, hj⟩)
    · exact .inl ⟨j, h, hj⟩
    · exact .inr ⟨j, h, by omega⟩
  · rintro (⟨j, h, hj⟩ | ⟨j, h, hj⟩)
    · exact .inl ⟨j, h, by omega, by omega, hj⟩
    · exact .inr ⟨j, h, by omega, by omega⟩

/-- `g` generations write the indices below the last word count, if there is a generation at all. -/
theorem write_mem_generationsAccesses (g : Nat) (s : State) (j : Nat) :
    Access.write j ∈ State.generationsAccesses g s ↔ 0 < g ∧ j < wordsFor s.cfg.w (s.length + 2 * g) := by
  induction g generalizing s with
  | zero => simp [State.generationsAccesses]
  | succ g ih =>
    have hc : s.generation.countGeneration.cfg = s.cfg := by simp
    have hl : s.generation.countGeneration.length = s.length + 2 := by simp
    have hm : wordsFor s.cfg.w (s.length + 2) ≤ wordsFor s.cfg.w (s.length + 2 * (g + 1)) := wordsFor_mono _ (by omega)
    simp only [State.generationsAccesses, List.mem_append, mem_generationAccesses, ih, hc, hl]
    rw [show s.length + 2 + 2 * g = s.length + 2 * (g + 1) from by omega]
    constructor
    · rintro ((⟨_, h, _⟩ | ⟨i, h, hi⟩) | ⟨_, h⟩)
      · cases h
      · cases h; exact ⟨by omega, by omega⟩
      · exact ⟨by omega, h⟩
    · rintro ⟨_, h⟩
      rcases Nat.eq_zero_or_pos g with rfl | hg
      · exact .inl (.inr ⟨j, rfl, by simpa using h⟩)
      · exact .inr ⟨hg, h⟩

/-- At least one generation reads every word of the Row it starts from. -/
theorem read_mem_generationsAccesses (g : Nat) (s : State) (j : Nat) (hg : 0 < g) (hj : j < s.wordCount) :
    Access.read j ∈ State.generationsAccesses g s := by
  obtain ⟨g, rfl⟩ : ∃ m, g = m + 1 := ⟨g - 1, by omega⟩
  exact List.mem_append.2 (.inl ((mem_generationAccesses s _).2 (.inl ⟨j, rfl, hj⟩)))

/-- Which accesses a run of words makes follows from where it stands and the length alone (R121). -/
theorem pipeAccesses_congr (n : Nat) (s t : State) (hk : s.k = t.k) (hw : s.wordCount = t.wordCount) :
    State.pipeAccesses n s = State.pipeAccesses n t := by
  induction n generalizing s t with
  | zero => rfl
  | succ n ih =>
    have e := ih s.pipeWord t.pipeWord (by rw [pipeWord_k, pipeWord_k, hk]) hw
    simp only [State.pipeAccesses, State.pipeWordAccesses, e, hk, hw]

/-- Which accesses generations make follows from the parameters and the length alone (R121). -/
theorem generationsAccesses_congr (g : Nat) (s t : State) (hc : s.cfg = t.cfg) (hl : s.length = t.length) :
    State.generationsAccesses g s = State.generationsAccesses g t := by
  induction g generalizing s t with
  | zero => rfl
  | succ g ih =>
    have e := ih s.generation.countGeneration t.generation.countGeneration (by simpa using hc) (by simpa using hl)
    have hw : s.wordCount = t.wordCount := by simp [State.wordCount, hc, hl]
    have e' := pipeAccesses_congr (wordsFor t.cfg.w (t.length + 2)) s.startGeneration t.startGeneration rfl hw
    simp only [State.generationsAccesses, State.generationAccesses, hc, hl, e, e']

end Sys2Proof.Machine
end

