-- ==== Sys2Proof/Laws/Decode.lean ====
section
/-! SUPPORT. What the decoder can answer, and the range of the lanes. -/

namespace Sys2Proof

theorem opLane_lt (d : Beat) : opLane d < 16 := Nat.mod_lt _ (by decide)
theorem aLane_lt (c : Config) (d : Beat) : aLane c d < 2 ^ c.aw := Nat.mod_lt _ (by positivity)
theorem bLane_lt (c : Config) (d : Beat) : bLane c d < 2 ^ c.aw := Nat.mod_lt _ (by positivity)
theorem wLane_lt (c : Config) (d : Beat) : wLane c d < 2 ^ c.w := Nat.mod_lt _ (by positivity)

/-- What decoding answers, once: nothing without a header; for a CONSTRUCT header (R48) the command if its payload is
all there and otherwise the two operands; for every other header a command of one beat (R59). -/
theorem decode_cases (c : Config) (beats : List Beat) :
    (beats = [] ∧ decode c beats = .error .noHeader) ∨
    (∃ h rest, beats = h :: rest ∧ opLane h = 1 ∧
      ((rest.length < aLane c h ∧ decode c beats = .error (.payloadOutstanding (aLane c h) (bLane c h))) ∨
       (aLane c h ≤ rest.length ∧ decode c beats =
         .ok (.construct (aLane c h) (bLane c h) ((rest.take (aLane c h)).map (wLane c)), rest.drop (aLane c h))))) ∨
    (∃ h rest i, beats = h :: rest ∧ opLane h ≠ 1 ∧ decode c beats = .ok (i, rest) ∧ i.opcode = opLane h ∧
      (i = .next (aLane c h) (bLane c h) ∨ i = .getw (aLane c h) ∨ i = .getb (aLane c h) ∨ i = .len ∨
        i.isReserved = true)) := by
  cases beats with
  | nil => exact .inl ⟨rfl, rfl⟩
  | cons h rest =>
    have hlt := opLane_lt h
    by_cases h1 : opLane h = 1
    · refine .inr (.inl ⟨h, rest, rfl, h1, ?_⟩)
      by_cases hr : rest.length < aLane c h
      · exact .inl ⟨hr, by simp [decode, h1, hr]⟩
      · exact .inr ⟨Nat.le_of_not_lt hr, by simp [decode, h1, hr]⟩
    · refine .inr (.inr ?_)
      rcases (by omega : opLane h = 0 ∨ opLane h = 2 ∨ opLane h = 3 ∨ opLane h = 4 ∨ opLane h = 5 ∨ opLane h = 6 ∨
        opLane h = 7 ∨ opLane h = 8 ∨ opLane h = 9 ∨ opLane h = 10 ∨ opLane h = 11 ∨ opLane h = 12 ∨ opLane h = 13 ∨
        opLane h = 14 ∨ opLane h = 15) with e | e | e | e | e | e | e | e | e | e | e | e | e | e | e
      · exact ⟨h, rest, .reserved0, rfl, h1, by simp [decode, e], e.symm, by simp [Instr.isReserved]⟩
      · exact ⟨h, rest, .next (aLane c h) (bLane c h), rfl, h1, by simp [decode, e], e.symm, by simp [Instr.isReserved]⟩
      · exact ⟨h, rest, .getw (aLane c h), rfl, h1, by simp [decode, e], e.symm, by simp [Instr.isReserved]⟩
      · exact ⟨h, rest, .getb (aLane c h), rfl, h1, by simp [decode, e], e.symm, by simp [Instr.isReserved]⟩
      · exact ⟨h, rest, .len, rfl, h1, by simp [decode, e], e.symm, by simp [Instr.isReserved]⟩
      · exact ⟨h, rest, .reserved6, rfl, h1, by simp [decode, e], e.symm, by simp [Instr.isReserved]⟩
      · exact ⟨h, rest, .reserved7, rfl, h1, by simp [decode, e], e.symm, by simp [Instr.isReserved]⟩
      · exact ⟨h, rest, .reserved8, rfl, h1, by simp [decode, e], e.symm, by simp [Instr.isReserved]⟩
      · exact ⟨h, rest, .reserved9, rfl, h1, by simp [decode, e], e.symm, by simp [Instr.isReserved]⟩
      · exact ⟨h, rest, .reservedA, rfl, h1, by simp [decode, e], e.symm, by simp [Instr.isReserved]⟩
      · exact ⟨h, rest, .reservedB, rfl, h1, by simp [decode, e], e.symm, by simp [Instr.isReserved]⟩
      · exact ⟨h, rest, .reservedC, rfl, h1, by simp [decode, e], e.symm, by simp [Instr.isReserved]⟩
      · exact ⟨h, rest, .reservedD, rfl, h1, by simp [decode, e], e.symm, by simp [Instr.isReserved]⟩
      · exact ⟨h, rest, .reservedE, rfl, h1, by simp [decode, e], e.symm, by simp [Instr.isReserved]⟩
      · exact ⟨h, rest, .reservedF, rfl, h1, by simp [decode, e], e.symm, by simp [Instr.isReserved]⟩

/-- A decoded command is well formed: every operand fits its lane (R55). -/
theorem decode_wellFormed (c : Config) (beats rest : List Beat) (i : Instr) (h : decode c beats = .ok (i, rest)) :
    WellFormed c i = true := by
  rcases decode_cases c beats with ⟨_, e⟩ | ⟨d, r, _, _, ⟨_, e⟩ | ⟨hl, e⟩⟩ | ⟨d, r, j, _, _, e, _, hj⟩
  · rw [e] at h; cases h
  · rw [e] at h; cases h
  · rw [e] at h
    cases h
    have hp : ∀ v ∈ (r.take (aLane c d)).map (wLane c), fits c.w v = true := by
      intro v hv
      obtain ⟨b, _, rfl⟩ := List.mem_map.1 hv
      simpa [fits] using wLane_lt c b
    simp only [WellFormed, Bool.and_eq_true, List.all_eq_true, decide_eq_true_eq]
    exact ⟨⟨⟨by simpa [fits] using aLane_lt c d, by simpa [fits] using bLane_lt c d⟩, by simpa using hl⟩, hp⟩
  · rw [e] at h
    cases h
    rcases hj with rfl | rfl | rfl | rfl | hj
    · simp [WellFormed, fits, aLane_lt, bLane_lt]
    · simp [WellFormed, fits, aLane_lt]
    · simp [WellFormed, fits, aLane_lt]
    · rfl
    · cases i <;> first | rfl | simp [Instr.isReserved] at hj

end Sys2Proof
end

