-- ==== Sys2Proof/Laws/Framer.lean ====
section
/-! SUPPORT. What the CONSTRUCT framer can do: one payload word, a run of payload words, the close. -/

namespace Sys2Proof.Machine

/-- One payload word changes at most the back bank and `payload_left` (R73). -/
theorem acceptPayload_eq (s : State) (v : Word) : s.acceptPayload v =
    { s with
      bank0 := (s.acceptPayload v).bank0, bank1 := (s.acceptPayload v).bank1, payloadLeft := s.payloadLeft - 1 } := by
  unfold State.acceptPayload
  split <;> rfl

/-- One payload word in terms of the banks (R68, R70, R71, R73): it is written to the back bank, at the index the
count gives, where the CONSTRUCT is kept and the Row needs the word. -/
theorem bank_acceptPayload (s : State) (v : Word) (b : Bool) : (s.acceptPayload v).bank b =
    if b ≠ s.front ∧ s.keep = true ∧ s.nQ - s.payloadLeft < wordsFor s.cfg.w s.lenQ
    then Bank.write (s.bank b) (s.nQ - s.payloadLeft) (v % 2 ^ s.cfg.w) else s.bank b := by
  unfold State.acceptPayload
  by_cases h : s.keep ∧ s.nQ - s.payloadLeft < wordsFor s.cfg.w s.lenQ
  · by_cases hb : b = s.front <;> simp [h, hb, bank_memWrite]
  · rw [if_neg h, if_neg fun hh => h hh.2]; rfl

/-- A payload word that is written (R68). -/
theorem acceptPayload_kept (s : State) (v : Word)
    (h : s.keep = true ∧ s.nQ - s.payloadLeft < wordsFor s.cfg.w s.lenQ) :
    s.acceptPayload v = (s.memWrite (s.nQ - s.payloadLeft) v).countPayload := if_pos h

/-- A payload word that is dropped (R70, R73). -/
theorem acceptPayload_dropped (s : State) (v : Word)
    (h : ¬(s.keep = true ∧ s.nQ - s.payloadLeft < wordsFor s.cfg.w s.lenQ)) :
    s.acceptPayload v = s.countPayload := if_neg h

theorem acceptPayload_takeBeats (s : State) (v : Word) (rest : List Beat) :
    (s.takeBeats rest).acceptPayload v = (s.acceptPayload v).takeBeats rest := by
  by_cases h : s.keep = true ∧ s.nQ - s.payloadLeft < wordsFor s.cfg.w s.lenQ
  · rw [acceptPayload_kept s v h, acceptPayload_kept (s.takeBeats rest) v h]; rfl
  · rw [acceptPayload_dropped s v h, acceptPayload_dropped (s.takeBeats rest) v h]; rfl

/-- A run of payload words changes at most the back bank and `payload_left`. -/
theorem foldl_acceptPayload_eq (p : List Word) (s : State) : p.foldl State.acceptPayload s =
    { s with
      bank0 := (p.foldl State.acceptPayload s).bank0, bank1 := (p.foldl State.acceptPayload s).bank1,
      payloadLeft := s.payloadLeft - p.length } := by
  induction p generalizing s with
  | nil => rfl
  | cons v p ih =>
    rw [List.foldl_cons, ih]
    rw [acceptPayload_eq s v]
    simp only [List.length_cons, State.mk.injEq, true_and, and_true]
    omega

theorem foldl_acceptPayload_takeBeats (p : List Word) (s : State) (rest : List Beat) :
    p.foldl State.acceptPayload (s.takeBeats rest) = (p.foldl State.acceptPayload s).takeBeats rest := by
  induction p generalizing s with
  | nil => rfl
  | cons v p ih => rw [List.foldl_cons, List.foldl_cons, acceptPayload_takeBeats, ih]

/-- The front bank is not written by payload words (R19). -/
theorem foldl_acceptPayload_front (p : List Word) (s : State) :
    (p.foldl State.acceptPayload s).bank s.front = s.bank s.front := by
  induction p generalizing s with
  | nil => rfl
  | cons v p ih =>
    have hf : (s.acceptPayload v).front = s.front := by rw [acceptPayload_eq]
    rw [List.foldl_cons, ← hf, ih, hf, bank_acceptPayload]
    simp

/-- Payload words of a CONSTRUCT that is not kept are dropped: neither bank is written (R73). -/
theorem foldl_acceptPayload_dropped (p : List Word) (s : State) (h : s.keep = false) :
    p.foldl State.acceptPayload s = { s with payloadLeft := s.payloadLeft - p.length } := by
  induction p generalizing s with
  | nil => rfl
  | cons v p ih =>
    have h1 : s.acceptPayload v = s.countPayload := by simp [State.acceptPayload, h]
    rw [List.foldl_cons, h1, ih _ (by simpa using h)]
    simp only [State.countPayload, List.length_cons, State.mk.injEq, true_and, and_true]
    omega

/-- A run of payload words of a kept CONSTRUCT, read back from the back bank: word `j` is the payload word of its
place where the run reaches it and the Row needs it, and as before elsewhere (R68, R70, R71). -/
theorem read_foldl_acceptPayload (p : List Word) (s : State) (hk : s.keep = true) (hn : p.length ≤ s.payloadLeft)
    (hl : s.payloadLeft ≤ s.nQ) (j : Nat) :
    Bank.read ((p.foldl State.acceptPayload s).bank (!s.front)) j =
      if s.nQ - s.payloadLeft ≤ j ∧ j < s.nQ - s.payloadLeft + p.length ∧ j < wordsFor s.cfg.w s.lenQ
      then p.getD (j - (s.nQ - s.payloadLeft)) 0 % 2 ^ s.cfg.w else Bank.read (s.bank (!s.front)) j := by
  induction p generalizing s with
  | nil => rw [if_neg (by simp; omega)]; rfl
  | cons v p ih =>
    simp only [List.length_cons] at hn
    have e := acceptPayload_eq s v
    have hf : (s.acceptPayload v).front = s.front := by rw [e]
    have hc : (s.acceptPayload v).cfg = s.cfg := by rw [e]
    have hq : (s.acceptPayload v).nQ = s.nQ := by rw [e]
    have hlq : (s.acceptPayload v).lenQ = s.lenQ := by rw [e]
    have hkk : (s.acceptPayload v).keep = s.keep := by rw [e]
    have hp : (s.acceptPayload v).payloadLeft = s.payloadLeft - 1 := by rw [e]
    rw [List.foldl_cons, ← hf, ih _ (by rw [hkk, hk]) (by rw [hp]; omega) (by rw [hp, hq]; omega)]
    rw [hf, hc, hq, hlq, hp, bank_acceptPayload]
    have hne : (!s.front) ≠ s.front := by cases s.front <;> decide
    simp only [hne, ne_eq, not_false_eq_true, hk, true_and, List.length_cons]
    by_cases hj : j = s.nQ - s.payloadLeft
    · subst hj
      rw [if_neg (by omega)]
      by_cases hneed : s.nQ - s.payloadLeft < wordsFor s.cfg.w s.lenQ
      · rw [if_pos hneed, if_pos (by omega), Bank.read_write_same]; simp
      · rw [if_neg hneed, if_neg (by omega)]
    · have hrd : Bank.read (if s.nQ - s.payloadLeft < wordsFor s.cfg.w s.lenQ
          then Bank.write (s.bank (!s.front)) (s.nQ - s.payloadLeft) (v % 2 ^ s.cfg.w) else s.bank (!s.front)) j =
          Bank.read (s.bank (!s.front)) j := by
        split
        · exact Bank.read_write_other _ _ _ _ hj
        · rfl
      rw [hrd]
      by_cases hc2 : s.nQ - s.payloadLeft ≤ j ∧ j < s.nQ - s.payloadLeft + (p.length + 1) ∧ j < wordsFor s.cfg.w s.lenQ
      · rw [if_pos hc2, if_pos (by omega)]
        have : j - (s.nQ - s.payloadLeft) = (j - (s.nQ - (s.payloadLeft - 1))) + 1 := by omega
        rw [this, List.getD_cons_succ]
      · rw [if_neg hc2, if_neg (by omega)]

/-- The last beat of a CONSTRUCT either replaces the Row or raises the error of its header (R68). -/
theorem closeConstruct_cases (s : State) :
    (constructStatus s.cfg s.nQ s.lenQ = .ok ∧ s.closeConstruct = (s.swap s.lenQ).respond 0) ∨
    (constructStatus s.cfg s.nQ s.lenQ ≠ .ok ∧ s.closeConstruct = s.raise (constructStatus s.cfg s.nQ s.lenQ)) := by
  unfold State.closeConstruct
  split <;> simp_all

theorem closeConstruct_takeBeats (s : State) (rest : List Beat) :
    (s.takeBeats rest).closeConstruct = s.closeConstruct.takeBeats rest := by
  unfold State.closeConstruct
  simp only [takeBeats_cfg, takeBeats_nQ, takeBeats_lenQ]
  split <;> rfl

/-- When a CONSTRUCT is accepted (R69, R72): it is well sized and fits the capacity. -/
theorem constructStatus_ok_iff (c : Config) (n len : Nat) :
    constructStatus c n len = .ok ↔ len ≤ c.w * n ∧ wordsFor c.w len ≤ c.maxWords := by
  unfold constructStatus
  split
  · simp; omega
  · split <;> simp <;> omega

/-- When a NEXT is accepted (R98, R100). -/
theorem nextStatus_ok_iff (c : Config) (length rule gens : Nat) :
    nextStatus c length rule gens = .ok ↔ rule ≤ 255 ∧ length + 2 * gens ≤ c.capBits := by
  unfold nextStatus
  split
  · simp; omega
  · split <;> simp <;> omega

end Sys2Proof.Machine
end

