-- ==== Sys2Proof/Laws/Exec.lean ====
section
/-! SUPPORT. What a command can do: its outcomes, one inversion lemma per meaning, and the part of the state no command
touches. -/

namespace Sys2Proof.Machine

/-! ### The meanings, by cases -/

/-- GETW, inverted (R76): OutOfRange, the word, or a fault in a state beyond R14. -/
theorem execGetw_cases (idx : Nat) (s : State) :
    (s.wordCount ≤ idx ∧ execGetw idx s = .next (s.raise .outOfRange)) ∨
    (idx < s.wordCount ∧ idx < s.cfg.maxWords ∧ execGetw idx s = .next (s.respond (s.memRead idx))) ∨
    (idx < s.wordCount ∧ s.cfg.maxWords ≤ idx ∧ execGetw idx s = .fault (.bankIndexBeyondCapacity idx)) := by
  unfold execGetw getwStatus
  by_cases h : idx ≥ wordsFor s.cfg.w s.length
  · exact .inl ⟨h, by rw [if_pos h]⟩
  · refine .inr ?_
    have h' : idx < s.wordCount := Nat.lt_of_not_le h
    by_cases hm : idx < s.cfg.maxWords
    · exact .inl ⟨h', hm, by simp only [if_neg h, if_pos hm]⟩
    · exact .inr ⟨h', Nat.le_of_not_lt hm, by simp only [if_neg h, if_neg hm]⟩

/-- GETB, inverted (R75): OutOfRange, the cell, or a fault in a state beyond R14. -/
theorem execGetb_cases (i : Nat) (s : State) :
    (s.length ≤ i ∧ execGetb i s = .next (s.raise .outOfRange)) ∨
    (i < s.length ∧ wordOf s.cfg.w i < s.cfg.maxWords ∧
      execGetb i s = .next (s.respond ((s.memRead (wordOf s.cfg.w i) >>> bitOf s.cfg.w i) &&& 1))) ∨
    (i < s.length ∧ s.cfg.maxWords ≤ wordOf s.cfg.w i ∧
      execGetb i s = .fault (.bankIndexBeyondCapacity (wordOf s.cfg.w i))) := by
  unfold execGetb getbStatus
  by_cases h : i ≥ s.length
  · exact .inl ⟨h, by rw [if_pos h]⟩
  · refine .inr ?_
    have h' : i < s.length := Nat.lt_of_not_le h
    by_cases hm : wordOf s.cfg.w i < s.cfg.maxWords
    · exact .inl ⟨h', hm, by simp only [if_neg h, if_pos hm]⟩
    · exact .inr ⟨h', Nat.le_of_not_lt hm, by simp only [if_neg h, if_neg hm]⟩

/-- NEXT, inverted (R97): accepted and run, or an error that touches nothing. -/
theorem execNext_cases (rule gens : Nat) (s : State) :
    (nextStatus s.cfg s.length rule gens = .ok ∧
      execNext rule gens s = .next ((State.generations gens (s.loadNext rule gens)).respond 0)) ∨
    (nextStatus s.cfg s.length rule gens ≠ .ok ∧
      execNext rule gens s = .next (s.raise (nextStatus s.cfg s.length rule gens))) := by
  unfold execNext
  split <;> simp_all

/-- CONSTRUCT, inverted (R68): the payload is stored and the Row replaced, or the payload is dropped and the error
raised. -/
theorem execConstruct_cases (n len : Nat) (p : List Word) (s : State) :
    (constructStatus s.cfg n len = .ok ∧
      execConstruct n len p s =
        .next (((p.foldl State.acceptPayload (s.openConstruct n len)).swap len).respond 0)) ∨
    (constructStatus s.cfg n len ≠ .ok ∧
      execConstruct n len p s =
        .next (State.raise
          { s.openConstruct n len with payloadLeft := n - p.length } (constructStatus s.cfg n len))) := by
  have e := foldl_acceptPayload_eq p (s.openConstruct n len)
  have hc : (p.foldl State.acceptPayload (s.openConstruct n len)).cfg = s.cfg := by rw [e]; rfl
  have hn : (p.foldl State.acceptPayload (s.openConstruct n len)).nQ = n := by rw [e]; rfl
  have hl : (p.foldl State.acceptPayload (s.openConstruct n len)).lenQ = len := by rw [e]; rfl
  rcases closeConstruct_cases (p.foldl State.acceptPayload (s.openConstruct n len)) with ⟨h, heq⟩ | ⟨h, heq⟩
  · rw [hc, hn, hl] at h
    rw [hl] at heq
    exact .inl ⟨h, by unfold execConstruct; rw [heq]⟩
  · rw [hc, hn, hl] at h heq
    have hk : (s.openConstruct n len).keep = false := by
      show (constructStatus s.cfg n len == .ok) = false
      simpa using h
    refine .inr ⟨h, ?_⟩
    unfold execConstruct
    rw [heq, foldl_acceptPayload_dropped p _ hk]
    rfl

/-! ### Every command -/

/-- Every reserved opcode means the same (R57). -/
theorem exec_reserved (i : Instr) (s : State) (h : i.isReserved = true) :
    exec i s = .next (s.raise .illegalCommand) := by
  cases i <;> first | rfl | simp [Instr.isReserved] at h

/-- What a command leaves alone whatever it does: the parameters, the pins, the presented beats, the responses taken. -/
theorem exec_keeps (i : Instr) (s t : State) (h : exec i s = .next t) :
    t.cfg = s.cfg ∧ t.rst = s.rst ∧ t.rspReady = s.rspReady ∧ t.cmdIn = s.cmdIn ∧ t.delivered = s.delivered := by
  by_cases hr : i.isReserved = true
  · rw [exec_reserved i s hr] at h; cases h; exact ⟨rfl, rfl, rfl, rfl, rfl⟩
  · cases i with
    | construct n len p =>
      rcases execConstruct_cases n len p s with ⟨_, e⟩ | ⟨_, e⟩ <;> rw [exec, e] at h <;> cases h
      · have e := foldl_acceptPayload_eq p (s.openConstruct n len)
        simp only [respond_cfg, respond_rst, respond_rspReady, respond_cmdIn, respond_delivered, swap_cfg, swap_rst,
          swap_rspReady, swap_cmdIn, swap_delivered]
        rw [e]
        exact ⟨rfl, rfl, rfl, rfl, rfl⟩
      · exact ⟨rfl, rfl, rfl, rfl, rfl⟩
    | next rule gens =>
      rcases execNext_cases rule gens s with ⟨_, e⟩ | ⟨_, e⟩ <;> rw [exec, e] at h <;> cases h
      · rw [generations_eq]; exact ⟨rfl, rfl, rfl, rfl, rfl⟩
      · exact ⟨rfl, rfl, rfl, rfl, rfl⟩
    | getw idx =>
      rcases execGetw_cases idx s with ⟨_, e⟩ | ⟨_, _, e⟩ | ⟨_, _, e⟩ <;> rw [exec, e] at h <;> cases h <;>
        exact ⟨rfl, rfl, rfl, rfl, rfl⟩
    | getb i =>
      rcases execGetb_cases i s with ⟨_, e⟩ | ⟨_, _, e⟩ | ⟨_, _, e⟩ <;> rw [exec, e] at h <;> cases h <;>
        exact ⟨rfl, rfl, rfl, rfl, rfl⟩
    | len => cases h; exact ⟨rfl, rfl, rfl, rfl, rfl⟩
    | _ => exact absurd rfl hr

/-- Every command that does not stop is answered (R46): a response waits and the block is busy. -/
theorem exec_answers (i : Instr) (s t : State) (h : exec i s = .next t) : t.busy = true ∧ ∃ r, t.rsp = some r := by
  by_cases hr : i.isReserved = true
  · rw [exec_reserved i s hr] at h; cases h; exact ⟨rfl, _, rfl⟩
  · cases i with
    | construct n len p =>
      rcases execConstruct_cases n len p s with ⟨_, e⟩ | ⟨_, e⟩ <;> rw [exec, e] at h <;> cases h <;> exact ⟨rfl, _, rfl⟩
    | next rule gens =>
      rcases execNext_cases rule gens s with ⟨_, e⟩ | ⟨_, e⟩ <;> rw [exec, e] at h <;> cases h <;> exact ⟨rfl, _, rfl⟩
    | getw idx =>
      rcases execGetw_cases idx s with ⟨_, e⟩ | ⟨_, _, e⟩ | ⟨_, _, e⟩ <;> rw [exec, e] at h <;> cases h <;>
        exact ⟨rfl, _, rfl⟩
    | getb i =>
      rcases execGetb_cases i s with ⟨_, e⟩ | ⟨_, _, e⟩ | ⟨_, _, e⟩ <;> rw [exec, e] at h <;> cases h <;>
        exact ⟨rfl, _, rfl⟩
    | len => cases h; exact ⟨rfl, _, rfl⟩
    | _ => exact absurd rfl hr

/-- No meaning answers with a refusal. -/
theorem exec_not_refused (i : Instr) (s : State) (r : Refusal) : exec i s ≠ .refused r := by
  by_cases hr : i.isReserved = true
  · rw [exec_reserved i s hr]; exact fun h => nomatch h
  · cases i with
    | construct n len p =>
      rcases execConstruct_cases n len p s with ⟨_, e⟩ | ⟨_, e⟩ <;> rw [exec, e] <;> exact fun h => nomatch h
    | next rule gens =>
      rcases execNext_cases rule gens s with ⟨_, e⟩ | ⟨_, e⟩ <;> rw [exec, e] <;> exact fun h => nomatch h
    | getw idx =>
      rcases execGetw_cases idx s with ⟨_, e⟩ | ⟨_, _, e⟩ | ⟨_, _, e⟩ <;> rw [exec, e] <;> exact fun h => nomatch h
    | getb i =>
      rcases execGetb_cases i s with ⟨_, e⟩ | ⟨_, _, e⟩ | ⟨_, _, e⟩ <;> rw [exec, e] <;> exact fun h => nomatch h
    | len => exact fun h => nomatch h
    | _ => exact absurd rfl hr

/-- An outcome with its next state changed. -/
def mapNext (f : State → State) : Host.Outcome State Fault Refusal → Host.Outcome State Fault Refusal
  | .next t => .next (f t)
  | .fault r => .fault r
  | .refused r => .refused r

/-- A command does not look at the beats presented after it. -/
theorem exec_takeBeats (i : Instr) (s : State) (rest : List Beat) :
    exec i (s.takeBeats rest) = mapNext (fun t => t.takeBeats rest) (exec i s) := by
  by_cases hr : i.isReserved = true
  · rw [exec_reserved i s hr, exec_reserved i _ hr]; rfl
  · cases i with
    | construct n len p =>
      show Host.Outcome.next _ = Host.Outcome.next _
      have h1 : (s.takeBeats rest).openConstruct n len = (s.openConstruct n len).takeBeats rest := rfl
      rw [h1, foldl_acceptPayload_takeBeats, closeConstruct_takeBeats]
    | next rule gens =>
      have h1 : (s.takeBeats rest).loadNext rule gens = (s.loadNext rule gens).takeBeats rest := rfl
      have hs : nextStatus (s.takeBeats rest).cfg (s.takeBeats rest).length rule gens =
        nextStatus s.cfg s.length rule gens := rfl
      rcases execNext_cases rule gens s with ⟨h, e⟩ | ⟨h, e⟩ <;>
        rcases execNext_cases rule gens (s.takeBeats rest) with ⟨h', e'⟩ | ⟨h', e'⟩
      · show execNext rule gens _ = mapNext _ (execNext rule gens s)
        rw [e, e', h1, generations_takeBeats]; rfl
      · exact absurd (hs ▸ h) h'
      · exact absurd (hs ▸ h') h
      · show execNext rule gens _ = mapNext _ (execNext rule gens s)
        rw [e, e']; rfl
    | getw idx =>
      show execGetw idx _ = mapNext _ (execGetw idx s)
      rcases execGetw_cases idx s with ⟨_, e⟩ | ⟨_, _, e⟩ | ⟨_, _, e⟩ <;>
        rcases execGetw_cases idx (s.takeBeats rest) with ⟨_, e'⟩ | ⟨_, _, e'⟩ | ⟨_, _, e'⟩ <;>
        simp only [wordCount_takeBeats, takeBeats_cfg] at * <;> first | omega | (rw [e, e']; rfl)
    | getb i =>
      show execGetb i _ = mapNext _ (execGetb i s)
      rcases execGetb_cases i s with ⟨_, e⟩ | ⟨_, _, e⟩ | ⟨_, _, e⟩ <;>
        rcases execGetb_cases i (s.takeBeats rest) with ⟨_, e'⟩ | ⟨_, _, e'⟩ | ⟨_, _, e'⟩ <;>
        simp only [takeBeats_length, takeBeats_cfg] at * <;> first | omega | (rw [e, e']; rfl)
    | len => rfl
    | _ => exact absurd rfl hr

end Sys2Proof.Machine
end

