-- ==== Sys2Proof/Laws/Lanes.lean ====
section
/-! SUPPORT. The lanes of the beats an assembler emits (R47, R50 to R54). -/

namespace Sys2Proof

theorem header_testBit (c : Config) (op a b j : Nat) : (headerBeat c op a b).testBit j =
    (op.testBit j || (decide (4 ≤ j) && a.testBit (j - 4)) || (decide (c.aw + 4 ≤ j) && b.testBit (j - (c.aw + 4)))) := by
  unfold headerBeat; simp [Nat.testBit_or, Nat.testBit_shiftLeft]

theorem testBit_eq_false_of_lt {x n j : Nat} (h : x < 2^n) (hj : n ≤ j) : x.testBit j = false :=
  Nat.testBit_lt_two_pow (lt_of_lt_of_le h (Nat.pow_le_pow_right (by omega) hj))

theorem opLane_header (c : Config) (op a b : Nat) (ho : op < 16) : opLane (headerBeat c op a b) = op := by
  apply Nat.eq_of_testBit_eq; intro j
  unfold opLane
  rw [show (16:Nat) = 2^4 from rfl, Nat.testBit_mod_two_pow, header_testBit]
  by_cases h : j < 4
  · simp [h, show ¬ 4 ≤ j by omega, show ¬ c.aw + 4 ≤ j by omega]
  · simp [h, testBit_eq_false_of_lt (show op < 2^4 from ho) (by omega : 4 ≤ j)]

theorem aLane_header (c : Config) (op a b : Nat) (ho : op < 16) (ha : a < 2^c.aw) : aLane c (headerBeat c op a b) = a := by
  apply Nat.eq_of_testBit_eq; intro j
  unfold aLane
  rw [Nat.testBit_mod_two_pow, Nat.testBit_shiftRight, header_testBit]
  by_cases h : j < c.aw
  · simp [h, testBit_eq_false_of_lt (show op < 2^4 from ho) (by omega : 4 ≤ 4 + j), show ¬ c.aw + 4 ≤ 4 + j by omega]
  · simp [h, testBit_eq_false_of_lt ha (by omega : c.aw ≤ j)]

theorem bLane_header (c : Config) (op a b : Nat) (ho : op < 16) (ha : a < 2^c.aw) (hb : b < 2^c.aw) : bLane c (headerBeat c op a b) = b := by
  apply Nat.eq_of_testBit_eq; intro j
  unfold bLane
  rw [Nat.testBit_mod_two_pow, Nat.testBit_shiftRight, header_testBit]
  by_cases h : j < c.aw
  · simp [h, testBit_eq_false_of_lt (show op < 2^4 from ho) (by omega : 4 ≤ c.aw + 4 + j), testBit_eq_false_of_lt ha (by omega : c.aw ≤ c.aw + 4 + j - 4)]
  · simp [h, testBit_eq_false_of_lt hb (by omega : c.aw ≤ j)]

theorem wLane_payload (c : Config) (v : Nat) (hv : v < 2^c.w) : wLane c (payloadBeat c v) = v := by
  unfold wLane payloadBeat
  rw [Nat.shiftLeft_shiftRight, Nat.mod_eq_of_lt hv]

end Sys2Proof
end

