-- ==== Sys2Proof/Laws/PerInstr.lean ====
section
/-! SUPPORT. Facts about every command as syntax, one lemma per constructor. -/

/-- A command's beats begin with a header of its opcode, which fits the lane `op` (R47, R49). -/
def Sys2Proof.Laws.HeaderOfOpcode.Statement (i : Sys2Proof.Instr) : Prop :=
  i.opcode < 16 ∧ ∀ c : Sys2Proof.Config, ∃ a b tail,
    Sys2Proof.encode c i = Sys2Proof.headerBeat c i.opcode a b :: tail

theorem Sys2Proof.Laws.HeaderOfOpcode.construct (n len : Nat) (payload : List Sys2Proof.Word) :
    Sys2Proof.Laws.HeaderOfOpcode.Statement (.construct n len payload) :=
  ⟨by simp [Sys2Proof.Instr.opcode], fun c => ⟨n, len, payload.map (Sys2Proof.payloadBeat c), rfl⟩⟩

theorem Sys2Proof.Laws.HeaderOfOpcode.next (rule gens : Nat) :
    Sys2Proof.Laws.HeaderOfOpcode.Statement (.next rule gens) := ⟨by simp [Sys2Proof.Instr.opcode], fun _ => ⟨rule, gens, [], rfl⟩⟩

theorem Sys2Proof.Laws.HeaderOfOpcode.getw (idx : Nat) :
    Sys2Proof.Laws.HeaderOfOpcode.Statement (.getw idx) := ⟨by simp [Sys2Proof.Instr.opcode], fun _ => ⟨idx, 0, [], rfl⟩⟩

theorem Sys2Proof.Laws.HeaderOfOpcode.getb (i : Nat) :
    Sys2Proof.Laws.HeaderOfOpcode.Statement (.getb i) := ⟨by simp [Sys2Proof.Instr.opcode], fun _ => ⟨i, 0, [], rfl⟩⟩

theorem Sys2Proof.Laws.HeaderOfOpcode.len :
    Sys2Proof.Laws.HeaderOfOpcode.Statement .len := ⟨by simp [Sys2Proof.Instr.opcode], fun _ => ⟨0, 0, [], rfl⟩⟩

theorem Sys2Proof.Laws.HeaderOfOpcode.reserved0 :
    Sys2Proof.Laws.HeaderOfOpcode.Statement .reserved0 := ⟨by simp [Sys2Proof.Instr.opcode], fun _ => ⟨0, 0, [], rfl⟩⟩

theorem Sys2Proof.Laws.HeaderOfOpcode.reserved6 :
    Sys2Proof.Laws.HeaderOfOpcode.Statement .reserved6 := ⟨by simp [Sys2Proof.Instr.opcode], fun _ => ⟨0, 0, [], rfl⟩⟩

theorem Sys2Proof.Laws.HeaderOfOpcode.reserved7 :
    Sys2Proof.Laws.HeaderOfOpcode.Statement .reserved7 := ⟨by simp [Sys2Proof.Instr.opcode], fun _ => ⟨0, 0, [], rfl⟩⟩

theorem Sys2Proof.Laws.HeaderOfOpcode.reserved8 :
    Sys2Proof.Laws.HeaderOfOpcode.Statement .reserved8 := ⟨by simp [Sys2Proof.Instr.opcode], fun _ => ⟨0, 0, [], rfl⟩⟩

theorem Sys2Proof.Laws.HeaderOfOpcode.reserved9 :
    Sys2Proof.Laws.HeaderOfOpcode.Statement .reserved9 := ⟨by simp [Sys2Proof.Instr.opcode], fun _ => ⟨0, 0, [], rfl⟩⟩

theorem Sys2Proof.Laws.HeaderOfOpcode.reservedA :
    Sys2Proof.Laws.HeaderOfOpcode.Statement .reservedA := ⟨by simp [Sys2Proof.Instr.opcode], fun _ => ⟨0, 0, [], rfl⟩⟩

theorem Sys2Proof.Laws.HeaderOfOpcode.reservedB :
    Sys2Proof.Laws.HeaderOfOpcode.Statement .reservedB := ⟨by simp [Sys2Proof.Instr.opcode], fun _ => ⟨0, 0, [], rfl⟩⟩

theorem Sys2Proof.Laws.HeaderOfOpcode.reservedC :
    Sys2Proof.Laws.HeaderOfOpcode.Statement .reservedC := ⟨by simp [Sys2Proof.Instr.opcode], fun _ => ⟨0, 0, [], rfl⟩⟩

theorem Sys2Proof.Laws.HeaderOfOpcode.reservedD :
    Sys2Proof.Laws.HeaderOfOpcode.Statement .reservedD := ⟨by simp [Sys2Proof.Instr.opcode], fun _ => ⟨0, 0, [], rfl⟩⟩

theorem Sys2Proof.Laws.HeaderOfOpcode.reservedE :
    Sys2Proof.Laws.HeaderOfOpcode.Statement .reservedE := ⟨by simp [Sys2Proof.Instr.opcode], fun _ => ⟨0, 0, [], rfl⟩⟩

theorem Sys2Proof.Laws.HeaderOfOpcode.reservedF :
    Sys2Proof.Laws.HeaderOfOpcode.Statement .reservedF := ⟨by simp [Sys2Proof.Instr.opcode], fun _ => ⟨0, 0, [], rfl⟩⟩
end

