-- ==== Sys2Proof/Laws/Step.lean ====
section
/-! SUPPORT. What a step can do, once: every invariant of the machine is proved from this case list. -/

namespace Sys2Proof.Machine

/-- The idle block, by what its decoder answers. -/
theorem fetchAndRun_cases (s : State) :
    (s.cmdIn = [] ∧ fetchAndRun s = .next s) ∨
    (∃ h rest, s.cmdIn = h :: rest ∧ opLane h = 1 ∧ rest.length < aLane s.cfg h ∧
      fetchAndRun s = .next (s.acceptHeader (aLane s.cfg h) (bLane s.cfg h))) ∨
    (∃ i rest, decode s.cfg s.cmdIn = .ok (i, rest) ∧ WellFormed s.cfg i = true ∧
      fetchAndRun s = exec i (s.takeBeats rest)) := by
  rcases decode_cases s.cfg s.cmdIn with ⟨hb, e⟩ | ⟨d, r, hb, h1, ⟨hl, e⟩ | ⟨hl, e⟩⟩ | ⟨d, r, j, hb, _, e, _, hj⟩
  · exact .inl ⟨hb, by unfold fetchAndRun; rw [e]⟩
  · exact .inr (.inl ⟨d, r, hb, h1, hl, by unfold fetchAndRun; rw [e]⟩)
  · exact .inr (.inr ⟨_, _, e, decode_wellFormed _ _ _ _ e, by unfold fetchAndRun; rw [e]⟩)
  · exact .inr (.inr ⟨_, _, e, decode_wellFormed _ _ _ _ e, by unfold fetchAndRun; rw [e]⟩)

/-- A beat of the CONSTRUCT in progress, by cases. -/
theorem receive_cases (s : State) :
    (s.payloadLeft = 0 ∧ s.receive = s.closeConstruct) ∨
    (0 < s.payloadLeft ∧ s.cmdIn = [] ∧ s.receive = s) ∨
    (∃ d rest, 0 < s.payloadLeft ∧ s.cmdIn = d :: rest ∧ s.payloadLeft = 1 ∧
      s.receive = ((s.takeBeats rest).acceptPayload (wLane s.cfg d)).closeConstruct) ∨
    (∃ d rest, 0 < s.payloadLeft ∧ s.cmdIn = d :: rest ∧ s.payloadLeft ≠ 1 ∧
      s.receive = (s.takeBeats rest).acceptPayload (wLane s.cfg d)) := by
  unfold State.receive
  by_cases h0 : s.payloadLeft = 0
  · exact .inl ⟨h0, by rw [if_pos h0]⟩
  · have hp : 0 < s.payloadLeft := Nat.pos_of_ne_zero h0
    rw [if_neg h0]
    cases hc : s.cmdIn with
    | nil => exact .inr (.inl ⟨hp, rfl, rfl⟩)
    | cons d rest =>
      by_cases h1 : s.payloadLeft = 1
      · exact .inr (.inr (.inl ⟨d, rest, hp, rfl, h1, by simp only [if_pos h1]⟩))
      · exact .inr (.inr (.inr ⟨d, rest, hp, rfl, h1, by simp only [if_neg h1]⟩))

/-- What a step can do, once: refuse an illegal configuration; reset; hold or transfer a response; go on with a
CONSTRUCT in progress; fetch. -/
theorem step_cases (s : State) :
    (s.cfg.legal = false ∧ step s = .refused .illegalConfiguration) ∨
    (s.cfg.legal = true ∧ s.rst = true ∧ step s = .next s.resetEdge) ∨
    (∃ r, s.cfg.legal = true ∧ s.rst = false ∧ s.rsp = some r ∧
      step s = .next (if s.rspReady = true then s.deliver r else s)) ∨
    (s.cfg.legal = true ∧ s.rst = false ∧ s.rsp = none ∧ s.busy = true ∧ step s = .next s.receive) ∨
    (s.cfg.legal = true ∧ s.rst = false ∧ s.rsp = none ∧ s.busy = false ∧ step s = fetchAndRun s) := by
  unfold step
  cases hl : s.cfg.legal
  · exact .inl ⟨rfl, rfl⟩
  · refine .inr ?_
    cases hr : s.rst
    · refine .inr ?_
      cases hp : s.rsp with
      | some r => exact .inl ⟨r, rfl, rfl, rfl, rfl⟩
      | none =>
        refine .inr ?_
        cases hb : s.busy
        · exact .inr ⟨rfl, rfl, rfl, rfl, rfl⟩
        · exact .inl ⟨rfl, rfl, rfl, rfl, rfl⟩
    · exact .inl ⟨rfl, rfl, rfl⟩

end Sys2Proof.Machine
end

