-- ==== Sys2Proof/Laws/WellKept.lean ====
section
/-! SUPPORT. Every operation over the word store keeps both banks in their canonical form, within `MAXWORDS` words of
`W` bits; and `runSteps` is the host's `run`. -/

namespace Sys2Proof.Machine

/-- Both banks are well formed, said of the two fields and of `bank b`. -/
theorem wf_banks_iff (s : State) : (Bank.wf s.cfg s.bank0 = true ∧ Bank.wf s.cfg s.bank1 = true) ↔
    ∀ b, Bank.wf s.cfg (s.bank b) = true := by
  constructor
  · rintro ⟨h0, h1⟩ b; cases b <;> simp [State.bank, *]
  · intro h; exact ⟨h false, h true⟩

theorem wf_resetWith (c : Config) (b : Bool) : Bank.wf c ((State.resetWith c).bank b) = true := by cases b <;> rfl

theorem wf_memWrite (s : State) (k : Nat) (v : Word) (h : ∀ b, Bank.wf s.cfg (s.bank b) = true)
    (hk : k < s.cfg.maxWords) (b : Bool) : Bank.wf s.cfg ((s.memWrite k v).bank b) = true := by
  rw [bank_memWrite]
  split
  · exact h b
  · exact Bank.wf_write _ _ _ _ (h b) hk (Nat.mod_lt _ (Nat.two_pow_pos _))

theorem wf_acceptPayload (s : State) (v : Word) (h : ∀ b, Bank.wf s.cfg (s.bank b) = true)
    (hk : s.keep = true → wordsFor s.cfg.w s.lenQ ≤ s.cfg.maxWords) (b : Bool) :
    Bank.wf s.cfg ((s.acceptPayload v).bank b) = true := by
  rw [bank_acceptPayload]
  split
  · next hh => exact Bank.wf_write _ _ _ _ (h b) (by have := hk hh.2.1; omega) (Nat.mod_lt _ (Nat.two_pow_pos _))
  · exact h b

theorem wf_foldl_acceptPayload (p : List Word) (s : State) (h : ∀ b, Bank.wf s.cfg (s.bank b) = true)
    (hk : s.keep = true → wordsFor s.cfg.w s.lenQ ≤ s.cfg.maxWords) (b : Bool) :
    Bank.wf s.cfg ((p.foldl State.acceptPayload s).bank b) = true := by
  induction p generalizing s with
  | nil => exact h b
  | cons v p ih =>
    have e := acceptPayload_eq s v
    have hc : (s.acceptPayload v).cfg = s.cfg := by rw [e]
    have hl : (s.acceptPayload v).lenQ = s.lenQ := by rw [e]
    have hkk : (s.acceptPayload v).keep = s.keep := by rw [e]
    have := ih (s.acceptPayload v) (by rw [hc]; exact wf_acceptPayload s v h hk) (by rw [hc, hl, hkk]; exact hk)
    rw [hc] at this; exact this

theorem wf_pipeWords (n : Nat) (s : State) (h : ∀ b, Bank.wf s.cfg (s.bank b) = true)
    (hk : s.k + n ≤ s.cfg.maxWords) (b : Bool) : Bank.wf s.cfg ((State.pipeWords n s).bank b) = true := by
  induction n generalizing s with
  | zero => exact h b
  | succ n ih =>
    refine ih s.pipeWord ?_ (by rw [pipeWord_k, pipeWord_cfg]; omega)
    intro b
    rw [pipeWord_cfg, bank_pipeWord]
    split
    · exact h b
    · exact Bank.wf_write _ _ _ _ (h b) (by omega) (Nat.mod_lt _ (Nat.two_pow_pos _))

theorem wf_generation (s : State) (h : ∀ b, Bank.wf s.cfg (s.bank b) = true)
    (hk : wordsFor s.cfg.w (s.length + 2) ≤ s.cfg.maxWords) (b : Bool) :
    Bank.wf s.cfg (s.generation.bank b) = true :=
  wf_pipeWords _ s.startGeneration h (by simpa using hk) b

theorem wf_generations (g : Nat) (s : State) (h : ∀ b, Bank.wf s.cfg (s.bank b) = true)
    (hk : wordsFor s.cfg.w (s.length + 2 * g) ≤ s.cfg.maxWords) (b : Bool) :
    Bank.wf s.cfg ((State.generations g s).bank b) = true := by
  induction g generalizing s with
  | zero => exact h b
  | succ g ih =>
    have hm : wordsFor s.cfg.w (s.length + 2) ≤ s.cfg.maxWords := by
      refine le_trans ?_ hk; unfold wordsFor ceilDiv; exact Nat.div_le_div_right (by omega)
    have hc : s.generation.countGeneration.cfg = s.cfg := by rw [countGeneration_cfg, generation_cfg]
    have hl : s.generation.countGeneration.length = s.length + 2 := by rw [countGeneration_length, generation_length]
    have := ih s.generation.countGeneration (by rw [hc]; exact wf_generation s h hm)
      (by rw [hc, hl, show s.length + 2 + 2 * g = s.length + 2 * (g + 1) by omega]; exact hk)
    rw [hc] at this
    exact this

/-- `runSteps` is `Host.Core.run` of the machine. -/
theorem runSteps_eq_run (k : Nat) (s : State) : runSteps k s = Sys2Proof.core.run k s := by
  induction k generalizing s with
  | zero => rfl
  | succ k ih =>
    simp only [runSteps, Host.Core.run]
    have e : Sys2Proof.core.step s = step s := rfl
    rw [e]
    cases step s with
    | next t => exact ih t
    | fault r => rfl
    | refused r => rfl

end Sys2Proof.Machine
end

