-- ==== Sys2Proof/Laws/Words.lean ====
section
/-! SUPPORT. Words bit by bit: complement within W bits, packing cells into a word, equality of words. -/

namespace Sys2Proof.Machine

/-- One bit of a stream or its complement (R112). -/
theorem passOrInvert_testBit (w : Nat) (b : Bool) (x : Word) (j : Nat) (hj : j < w) :
    (passOrInvert w b x).testBit j = (x.testBit j == b) := by
  unfold passOrInvert ones
  cases b <;> simp [Nat.testBit_xor, Nat.testBit_two_pow_sub_one, hj]

/-- A stream or its complement is a word (R112). -/
theorem passOrInvert_lt (w : Nat) (b : Bool) (x : Word) (hx : x < 2^w) : passOrInvert w b x < 2^w := by
  unfold passOrInvert ones
  split
  · exact hx
  · exact Nat.xor_lt_two_pow (by have := Nat.two_pow_pos w; omega) hx

/-- `packWord` is the word whose cell at place `t` is `f t` (R94). -/
theorem packWord_spec (w : Nat) (f : Nat → Bool) : packWord w f < 2^w ∧ ∀ t, t < w → (packWord w f).testBit (w-1-t) = f t := by
  induction w generalizing f with
  | zero => simp [packWord]
  | succ w ih =>
    have e : packWord (w+1) f = (f 0).toNat * 2^w + packWord w (fun t => f (t+1)) := by
      unfold packWord
      rw [List.range_succ_eq_map, List.map_cons, List.sum_cons, List.map_map]
      congr 1
      · simp [Nat.shiftLeft_eq]
      · congr 1
        apply List.map_congr_left
        intro a ha
        simp [Function.comp]; congr 1; omega
    obtain ⟨hlt, hb⟩ := ih (fun t => f (t+1))
    have hbit : ∀ j, (packWord (w+1) f).testBit j = if j < w then (packWord w (fun t => f (t+1))).testBit j else (f 0).toNat.testBit (j - w) := by
      intro j
      rw [e, Nat.mul_comm, Nat.testBit_two_pow_mul_add _ hlt]
    constructor
    · apply Nat.lt_pow_two_of_testBit
      intro j hj
      rw [hbit, if_neg (by omega)]
      cases f 0
      · simp
      · simp only [Bool.toNat_true]; exact Nat.testBit_lt_two_pow (lt_of_lt_of_le (by omega : 1 < 2^1) (Nat.pow_le_pow_right (by omega) (by omega)))
    · intro t ht
      rw [hbit]
      by_cases h0 : t = 0
      · subst h0; simp
        cases f 0 <;> rfl
      · rw [if_pos (by omega)]
        have := hb (t-1) (by omega)
        rw [show t - 1 + 1 = t by omega] at this
        rw [← this]; congr 1; omega

/-- Two words of `W` bits with the same cells are the same word. -/
theorem word_ext (w : Nat) (a b : Nat) (ha : a < 2^w) (hb : b < 2^w) (h : ∀ t, t < w → a.testBit (w-1-t) = b.testBit (w-1-t)) : a = b := by
  apply Nat.eq_of_testBit_eq
  intro j
  by_cases hj : j < w
  · have := h (w-1-j) (by omega)
    rwa [show w - 1 - (w-1-j) = j by omega] at this
  · rw [Nat.testBit_lt_two_pow (lt_of_lt_of_le ha (Nat.pow_le_pow_right (by omega) (by omega))),
      Nat.testBit_lt_two_pow (lt_of_lt_of_le hb (Nat.pow_le_pow_right (by omega) (by omega)))]

end Sys2Proof.Machine
end

