-- ==== Sys2Proof/Tests/Slice0.lean ====
section
/-! SUPPORT. Tests: ill-formed terms, words written out from the encoding, one-step vectors of
95_test_vectors.md, and for every statement with hypotheses a state and operands that meet them. -/

namespace Sys2Proof.Tests

open Sys2Proof Sys2Proof.Machine

/-- The reference block with a Row of `len` cells in `bank[0]`. -/
def rowState (len : Nat) (b : Bank) : State := { State.reset with length := len, bank0 := b }

/-- The Row "110010001" of 95_test_vectors.md section 6. -/
def nine : State := rowState 9 [(0, 0xC8), (1, 0x80)]

/-- A Row of 64 cells, all 0: the capacity of `REF8`. -/
def full : State := rowState 64 []

/-- What an outcome shows: the status and value of the response, the length and the words of the Row. -/
def seen (o : Host.Outcome State Fault Refusal) : Option (Status × Nat × Nat × List Word) :=
  match o with
  | .next t => t.rsp.map fun r => (r.status, r.val, t.row.length, t.row.words)
  | .fault _ => none
  | .refused _ => none

/-- The command decoding finds, without the beats after it. -/
def commandIn (beats : List Beat) : Option Instr :=
  match decode .ref8 beats with
  | .ok (i, _) => some i
  | .error _ => none

/-! ### WellFormed refuses (R62) -/

/-- A small configuration: operands of 2 bits, words of 3. -/
def small : Config := { w := 3, maxWords := 4, aw := 2 }

theorem test_wf_count_too_wide : WellFormed small (.construct 4 0 [0, 0, 0, 0]) = false := by decide
theorem test_wf_length_too_wide : WellFormed small (.construct 1 4 [0]) = false := by decide
theorem test_wf_payload_too_short : WellFormed small (.construct 2 3 [0]) = false := by decide
theorem test_wf_payload_too_long : WellFormed small (.construct 1 3 [0, 0]) = false := by decide
theorem test_wf_word_too_wide : WellFormed small (.construct 1 3 [8]) = false := by decide
theorem test_wf_rule_too_wide : WellFormed small (.next 4 0) = false := by decide
theorem test_wf_gens_too_wide : WellFormed small (.next 0 4) = false := by decide
theorem test_wf_idx_too_wide : WellFormed small (.getw 4) = false := by decide
theorem test_wf_position_too_wide : WellFormed small (.getb 4) = false := by decide
theorem test_wf_accepts : WellFormed small (.construct 1 3 [7]) = true ∧ WellFormed small (.next 3 3) = true := by decide
/-- What the hardware reports itself is well formed (R62). -/
theorem test_wf_hardware_reports : WellFormed .ref8 (.next 256 3) = true ∧ WellFormed .ref8 (.construct 1 9 [0xFF]) = true ∧
    WellFormed .ref8 (.getw 65535) = true := by decide

/-! ### Every constructor's decoding, from words written out (95_test_vectors.md section 3; R49, R57) -/

theorem test_decode_construct : commandIn [0x00000900021, 0xC8000000000, 0x80000000000] = some (.construct 2 9 [0xC8, 0x80]) := by decide
theorem test_decode_next : commandIn [0x000004001E2] = some (.next 30 4) := by decide
theorem test_decode_getw : commandIn [0x12345678903] = some (.getw 0x7890) := by decide
theorem test_decode_getb : commandIn [0x000000000C4] = some (.getb 12) := by decide
theorem test_decode_len : commandIn [0xAB567812345] = some .len := by decide
theorem test_decode_reserved0 : commandIn [0x00000000000] = some .reserved0 := by decide
theorem test_decode_reserved6 : commandIn [0x00000000006] = some .reserved6 := by decide
theorem test_decode_reserved7 : commandIn [0x00000000007] = some .reserved7 := by decide
theorem test_decode_reserved8 : commandIn [0xFFFFFFFFFF8] = some .reserved8 := by decide
theorem test_decode_reserved9 : commandIn [0x00000000009] = some .reserved9 := by decide
theorem test_decode_reservedA : commandIn [0x0000000000A] = some .reservedA := by decide
theorem test_decode_reservedB : commandIn [0x0000000000B] = some .reservedB := by decide
theorem test_decode_reservedC : commandIn [0x0000000000C] = some .reservedC := by decide
theorem test_decode_reservedD : commandIn [0x0000000000D] = some .reservedD := by decide
theorem test_decode_reservedE : commandIn [0x0000000000E] = some .reservedE := by decide
theorem test_decode_reservedF : commandIn [0x0000000000F] = some .reservedF := by decide
/-- A payload beat that looks like a NEXT header is the data word 0x80 (section 3, last note). -/
theorem test_decode_payload_by_position : commandIn [0x00000100011, 0x80000000002] = some (.construct 1 1 [0x80]) := by decide
theorem test_decode_outstanding : decode .ref8 [0x00000900021, 0xC8000000000] = .error (.payloadOutstanding 2 9) := by decide
theorem test_encode_next : encode .ref8 (.next 255 65535) = [0x00FFFF00FF2] := by decide
theorem test_encode_construct : encode .ref8 (.construct 1 1 [0x80]) = [0x00000100011, 0x80000000000] := by decide

/-- The opcode table numbers a beat's bits as the lanes do; missing bits are 0. -/
theorem test_table_words : decodeTableWord 44 0x000004001E2 = some (.next 30 4) ∧
    decodeTableWord 8 0x05 = some .len ∧ decodeTableWord 88 (0x00000100011 + 0x80000000000 * 2 ^ 44) = some (.construct 1 1 [0x80]) := by
  decide

/-- From reset, the step after `withFetchWord` runs that instruction: LEN answers 0 (R148). -/
theorem test_fetch_len : seen (step (State.reset.withFetchWord 8 0x05)) = some (.ok, 0, 0, []) := by decide

/-! ### One command each -/

/-- K5: two surplus words are dropped. -/
theorem test_construct_surplus : seen (exec (.construct 3 5 [0xA8, 0x11, 0x22]) nine) = some (.ok, 0, 5, [0xA8]) := by decide
/-- K10: InvalidConstruction before CapacityExceeded. -/
theorem test_construct_priority : seen (exec (.construct 9 73 (List.replicate 9 0)) nine) =
    some (.invalidConstruction, 0, 9, [0xC8, 0x80]) := by decide
/-- S18: live cells on both sides of a seam, and a third word. -/
theorem test_next_seam : seen (exec (.next 30 1) (rowState 16 [(0, 0x01), (1, 0x80)])) =
    some (.ok, 0, 18, [0x01, 0xA0, 0x00]) := by decide +kernel
/-- P2 step 7: two generations of rule 90 across the growth into a full second word. -/
theorem test_next_twice : seen (exec (.next 90 2) (rowState 9 [(0, 0xFF)])) = some (.ok, 0, 13, [0xF0, 0xF0]) := by decide +kernel
/-- B3 and B4. -/
theorem test_getw_bound : seen (exec (.getw 1) nine) = some (.ok, 0x80, 9, [0xC8, 0x80]) ∧
    seen (exec (.getw 2) nine) = some (.outOfRange, 0, 9, [0xC8, 0x80]) := by decide
/-- B6 and B7. -/
theorem test_getb_bound : seen (exec (.getb 8) nine) = some (.ok, 1, 9, [0xC8, 0x80]) ∧
    seen (exec (.getb 9) nine) = some (.outOfRange, 0, 9, [0xC8, 0x80]) := by decide
/-- B6: the two cells of the pattern 10 at positions 1, 2, which a reversed bit order would exchange with padding. -/
theorem test_getb_order : seen (exec (.getb 1) nine) = some (.ok, 1, 9, [0xC8, 0x80]) ∧
    seen (exec (.getb 2) nine) = some (.ok, 0, 9, [0xC8, 0x80]) := by decide
/-- B1. -/
theorem test_len : seen (exec .len nine) = some (.ok, 9, 9, [0xC8, 0x80]) := by decide
/-- P3 steps 11, 12. -/
theorem test_reserved : seen (exec .reserved7 nine) = some (.illegalCommand, 0, 9, [0xC8, 0x80]) ∧
    seen (exec .reserved0 nine) = some (.illegalCommand, 0, 9, [0xC8, 0x80]) := by decide
/-- P1 step 5: the response beat of GETW 1. -/
theorem test_response_beat : Response.beat { status := .ok, val := 0x80 } = 0x00400 := by decide
/-- 41_rule_engine.md: the weights of `l` and `r` on rule 110 (95_test_vectors.md section 2). -/
theorem test_apply_weights : apply 110 true false false = false ∧ apply 110 false false true = true := by decide
/-- T2, word 1: the streams and the select. -/
theorem test_pipeline_trace : centreStream 8 1 0x80 = 0xC0 ∧ leftStream 8 1 0x80 = 0x60 ∧ applyW 8 30 0x60 0xC0 0x80 = 0xA0 := by decide
/-- T1: vmask(7, 0) = 0xFE and vmask(9, 1) = 0x80. -/
theorem test_vmask : vmask 8 7 0 = 0xFE ∧ vmask 8 9 1 = 0x80 ∧ vmask 8 7 1 = 0 := by decide
/-- R126's example. -/
theorem test_seed : seed 8 [true, true, false, false, true, false, false, false, true] = .construct 2 9 [0xC8, 0x80] := by decide
/-- P6: a LEN beat sent while payload is awaited is taken as the payload word 0x00. -/
theorem test_swallowed_len : seen (step { nine with busy := true, payloadLeft := 1, nQ := 2, lenQ := 9, keep := true, bank1 := [(0, 0xC8)], cmdIn := [0x5] }) =
    some (.ok, 0, 9, [0xC8, 0x00]) := by decide

/-! ### The hypotheses of the statements are met

One theorem for each statement with hypotheses, named after it. -/

/-- A block that has received the header of `CONSTRUCT 2, 9` and awaits `m` words. -/
def receiving (m : Nat) (beats : List Beat) : State :=
  { nine with busy := true, payloadLeft := m, nQ := 2, lenQ := 9, keep := true, cmdIn := beats }

/-- The same Row as `nine`, in the other bank, with other hidden state. -/
def twin : State := { nine with front := true, bank0 := [(5, 1)], bank1 := [(0, 0xC8), (1, 0x80), (7, 3)], carry := 3, k := 4, ruleQ := 90, nQ := 7 }

theorem nine_inv : nine.Inv := by constructor <;> decide
theorem full_inv : full.Inv := by constructor <;> decide
theorem receiving_inv : (receiving 1 [0x5]).Inv := by constructor <;> decide

theorem test_meets_DecodeOfEncodeIsTheCommand : WellFormed .ref8 (.construct 0 0 []) = true ∧
    WellFormed .ref8 (.construct 2 65535 [255, 0]) = true ∧ WellFormed .ref8 (.next 65535 65535) = true ∧
    WellFormed .ref8 (.getw 65535) = true ∧ WellFormed .ref8 (.getb 0) = true ∧ WellFormed .ref8 .reservedF = true := by decide
theorem test_meets_EncodedBeatsFitTheChannel : WellFormed .ref8 (.construct 2 65535 [255, 0]) = true ∧
    WellFormed .ref8 (.next 65535 65535) = true ∧ WellFormed .ref8 .len = true := by decide
theorem test_meets_HeaderAloneTellsTheLength :
    (opLane 0x00000000001 = 0x1 ∧ lenBeats .ref8 0x00000000001 ≤ 1 + ([] : List Beat).length) ∧
    (opLane 0x00000900021 = 0x1 ∧ lenBeats .ref8 0x00000900021 ≤ 1 + [0xC8000000000, 0x80000000000].length) ∧
    1 + [0xC8000000000].length < lenBeats .ref8 0x00000900021 ∧
    opLane 0x00000000000 ≠ 0x1 ∧ opLane 0x0000000000F ≠ 0x1 ∧ lenBeats .ref8 0x0000000000F ≤ 1 + ([] : List Beat).length := by decide
theorem test_meets_IgnoredLanesDoNotMatter :
    (opLane 0xAB567812345 = opLane 0x5 ∧ ¬(opLane 0xAB567812345 = 0x1 ∨ opLane 0xAB567812345 = 0x2 ∨ opLane 0xAB567812345 = 0x3 ∨ opLane 0xAB567812345 = 0x4)) ∧
    (opLane 0xFF000100011 = opLane 0x00000100011 ∧ aLane .ref8 0xFF000100011 = aLane .ref8 0x00000100011 ∧
      bLane .ref8 0xFF000100011 = bLane .ref8 0x00000100011 ∧
      [0x80000000002].map (wLane .ref8) = [0x80000000000].map (wLane .ref8)) ∧
    (opLane 0x12345678903 = opLane 0x00000078903 ∧ aLane .ref8 0x12345678903 = aLane .ref8 0x00000078903) := by decide
theorem test_meets_AssembledLinesAreWellFormed :
    assembleLine .ref8 ['N', 'E', 'X', 'T', ' ', '3', '0', ',', ' ', '0', 'x', '4', ';'] = some [.next 30 4] ∧
    assembleLine .ref8 [';', 'x'] = some [] ∧
    assembleLine .ref8 "CONSTRUCT 2, 9, [0xC8, 128] ; nine cells".toList = some [.construct 2 9 [0xC8, 0x80]] := by decide +kernel
theorem test_meets_ResponseBeatHoldsStatusAndValue :
    ({ status := .ok, val := 65535 } : Response).val < 2 ^ Config.ref8.vw ∧
    ({ status := .illegalCommand, val := 0 } : Response).val < 2 ^ Config.ref8.vw := by decide
theorem test_meets_WordSelectIsApplyOnEveryBit : (255 < 2 ^ 8 ∧ 0 < 2 ^ 8 ∧ 0xB7 < 2 ^ 8) ∧ 7 < 8 := by decide
theorem test_meets_VmaskMarksTheCells : 0 < 8 ∧ 7 < 8 ∧ 0 < 9 / 8 ∧ wordsFor 8 9 ≤ 2 ∧ ¬(1 < 9 / 8) ∧ ¬(wordsFor 8 9 ≤ 1) := by decide
theorem test_meets_WordCountGrowsAtTheSeams : 2 ≤ nine.cfg.w ∧ nine.length % nine.cfg.w ≠ 0 ∧ nine.length % nine.cfg.w ≠ nine.cfg.w - 1 ∧
    full.length % full.cfg.w = 0 ∧ (rowState 7 []).length % (rowState 7 []).cfg.w = (rowState 7 []).cfg.w - 1 := by decide
theorem test_meets_StreamsHoldTheNeighbours : 2 ≤ nine.cfg.w ∧ 0 < nine.cfg.w ∧ 7 < nine.cfg.w ∧
    ∃ u, u = State.pipeWords 1 nine.startGeneration := ⟨by decide, by decide, by decide, _, rfl⟩
theorem test_meets_ConstructReplacesTheRow :
    ([0xC8, 0x80].length = 2 ∧ (∀ v ∈ [0xC8, 0x80], v < 2 ^ nine.cfg.w) ∧ 9 ≤ nine.cfg.w * 2 ∧ wordsFor nine.cfg.w 9 ≤ nine.cfg.maxWords) ∧
    (([] : List Word).length = 0 ∧ 0 ≤ nine.cfg.w * 0 ∧ wordsFor nine.cfg.w 0 ≤ nine.cfg.maxWords) ∧
    ((List.replicate 9 255).length = 9 ∧ (∀ v ∈ List.replicate 9 255, v < 2 ^ nine.cfg.w) ∧ 64 ≤ nine.cfg.w * 9 ∧ wordsFor nine.cfg.w 64 ≤ nine.cfg.maxWords) := by decide
theorem test_meets_FailedConstructWritesNothing :
    ([0xFF].length = 1 ∧ nine.cfg.w * 1 < 9) ∧
    ((List.replicate 9 0).length = 9 ∧ 65 ≤ nine.cfg.w * 9 ∧ nine.cfg.maxWords < wordsFor nine.cfg.w 65) := by decide
theorem test_meets_GetbReadsOneCell : nine.length ≤ 9 ∧ 0 < nine.cfg.w ∧ nine.length ≤ nine.cfg.capBits ∧ 8 < nine.length ∧
    full.length ≤ full.cfg.capBits ∧ 63 < full.length ∧ full.length ≤ 64 := by decide
theorem test_meets_GetwReadsOneWord : nine.wordCount ≤ 2 ∧ 0 < nine.cfg.w ∧ nine.length ≤ nine.cfg.capBits ∧ 1 < nine.wordCount ∧
    full.length ≤ full.cfg.capBits ∧ 7 < full.wordCount := by decide
theorem test_meets_ReadsBeyondTheBankFault : (rowState 65 []).cfg.maxWords ≤ 8 ∧ 8 < (rowState 65 []).wordCount ∧
    64 < (rowState 65 []).length ∧ 64 / (rowState 65 []).cfg.w = 8 := by decide
theorem test_meets_GetbAgreesWithGetw : 0 < nine.cfg.w ∧ nine.length ≤ nine.cfg.capBits ∧ 8 < nine.length := by decide
theorem test_meets_ReservedOpcodesFail :
    ([.reserved0, .reserved6, .reserved7, .reserved8, .reserved9, .reservedA, .reservedB, .reservedC, .reservedD, .reservedE, .reservedF] : List Instr).all Instr.isReserved = true ∧
    opLane 0xFFFFFFFFFF0 = 0x0 ∧ 0x6 ≤ opLane 0x6 ∧ 0x6 ≤ opLane 0xF := by decide
theorem test_meets_ReadsHaveNoSideEffect : (ask (.getw 1) nine).isSome = true ∧ (ask (.getw 2) nine).isSome = true ∧
    (ask (.getb 8) nine).isSome = true ∧ (ask .len nine).isSome = true := by decide
theorem test_meets_NextIsCheckedBeforeAnyGeneration : 255 < 256 ∧ (255 ≤ 255 ∧ nine.cfg.capBits < nine.length + 2 * 28) ∧
    (255 ≤ 255 ∧ nine.length + 2 * 27 ≤ nine.cfg.capBits) ∧ (rowState 62 []).length + 2 * 1 ≤ (rowState 62 []).cfg.capBits := by decide
theorem test_meets_NextZeroIsIdentity : 255 ≤ 255 ∧ full.length ≤ full.cfg.capBits := by decide
theorem test_meets_GenerationMatchesTheCells : 2 ≤ nine.cfg.w := by decide
theorem test_meets_NextAppliesTheGenerations : 2 ≤ nine.cfg.w ∧ 255 ≤ 255 ∧ nine.length + 2 * 27 ≤ nine.cfg.capBits ∧
    full.length + 2 * 0 ≤ full.cfg.capBits := by decide
theorem test_meets_NewCellsFollowTheRule : 2 ≤ (rowState 62 []).cfg.w ∧ 255 ≤ 255 ∧
    (rowState 62 []).length + 2 ≤ (rowState 62 []).cfg.capBits ∧ 63 ≤ (rowState 62 []).length + 1 := by decide
theorem test_meets_BoundaryCellsAreComputed : 2 ≤ nine.cfg.w ∧ 255 ≤ 255 ∧ nine.length + 2 ≤ nine.cfg.capBits ∧ 0 < nine.length ∧
    (rowState 0 []).length + 2 ≤ (rowState 0 []).cfg.capBits ∧ (rowState 0 []).length = 0 := by decide
theorem test_meets_PaddingAfterAGenerationIsZero : 2 ≤ nine.cfg.w ∧ 255 ≤ 255 ∧ 0 < 1 ∧ nine.length + 2 * 1 ≤ nine.cfg.capBits := by decide
theorem test_meets_PaddingNeverBecomesACell : 2 ≤ (rowState 7 [(0, 0xB6)]).cfg.w ∧
    (rowState 7 [(0, 0xB6)]).cfg = (rowState 7 [(0, 0xB7)]).cfg ∧ (rowState 7 [(0, 0xB6)]).length = (rowState 7 [(0, 0xB7)]).length ∧
    (∀ i, i < 7 → (rowState 7 [(0, 0xB6)]).cell i = (rowState 7 [(0, 0xB7)]).cell i) ∧ 110 ≤ 255 ∧ 0 < 1 ∧
    (rowState 7 [(0, 0xB6)]).length + 2 * 1 ≤ (rowState 7 [(0, 0xB6)]).cfg.capBits := by decide
theorem test_meets_GenerationsAdd : 255 ≤ 255 ∧ nine.length + 2 * 2 ≤ nine.cfg.capBits ∧ nine.length + 2 * (2 + 25) ≤ nine.cfg.capBits ∧
    nine.cfg.capBits < nine.length + 2 * (2 + 26) := by decide
theorem test_meets_LengthIsSeedPlusTwoPerGeneration : [0x80].length = 1 ∧ 1 ≤ nine.cfg.w * 1 ∧
    wordsFor nine.cfg.w 1 ≤ nine.cfg.maxWords ∧ 30 ≤ 255 ∧ 1 + 2 * 31 ≤ nine.cfg.capBits := by decide
theorem test_meets_GenerationsPossibleUpToCapacity : 255 ≤ 255 ∧ full.length ≤ full.cfg.capBits ∧ nine.length ≤ nine.cfg.capBits := by decide
theorem test_meets_NegativeImagesFail : nine.cfg.legal = true ∧ 2 ^ (nine.cfg.aw - 1) ≤ 0x8000 ∧ 255 ≤ 255 := by decide
theorem test_meets_ErrorsChangeNoArchitecturalState : ∃ t r, exec (.next 256 0) nine = .next t ∧ t.rsp = some r ∧ r.status ≠ .ok ∧
    WellFormed nine.cfg (.getw 1) = true := ⟨_, _, rfl, rfl, by decide, by decide⟩
theorem test_meets_EachErrorExactlyWhenItsRuleSays : 0 < nine.cfg.w ∧ (∃ t r, exec (.next 256 0) nine = .next t ∧ t.rsp = some r) ∧
    (∃ t r, exec (.getb 9) nine = .next t ∧ t.rsp = some r) ∧ (∃ t r, exec (.construct 0 1 []) nine = .next t ∧ t.rsp = some r) ∧
    (∃ t r, exec (.next 255 28) nine = .next t ∧ t.rsp = some r) ∧ ∃ t r, exec .reserved6 nine = .next t ∧ t.rsp = some r :=
  ⟨by decide, ⟨_, _, rfl, rfl⟩, ⟨_, _, rfl, rfl⟩, ⟨_, _, rfl, rfl⟩, ⟨_, _, rfl, rfl⟩, ⟨_, _, rfl, rfl⟩⟩
theorem test_meets_CommandsRaiseOnlyTheirErrors : (∃ t, exec (.construct 0 1 []) nine = .next t) ∧ (∃ t, exec (.next 256 0) nine = .next t) ∧
    (∃ t, exec (.getw 2) nine = .next t) ∧ (∃ t, exec (.getb 9) nine = .next t) ∧ (∃ t, exec .len nine = .next t) ∧
    ∃ t, exec .reservedF nine = .next t := ⟨⟨_, rfl⟩, ⟨_, rfl⟩, ⟨_, rfl⟩, ⟨_, rfl⟩, ⟨_, rfl⟩, ⟨_, rfl⟩⟩
theorem test_meets_ResetStateIsTheEmptyRow : Config.ref8.legal = true ∧ 255 ≤ 255 ∧ 2 * 32 ≤ Config.ref8.capBits ∧ nine.cfg = .ref8 := by decide
theorem test_meets_ResetWins : ({ receiving 1 [0x5] with rst := true } : State).cfg.legal = true ∧ ({ receiving 1 [0x5] with rst := true } : State).rst = true := by decide
theorem test_meets_StepRunsTheDecodedCommand : (nine.withBeats [0x5, 0x3]).cfg.legal = true ∧ (nine.withBeats [0x5, 0x3]).rst = false ∧
    (nine.withBeats [0x5, 0x3]).rsp = none ∧ (nine.withBeats [0x5, 0x3]).busy = false ∧
    decode (nine.withBeats [0x5, 0x3]).cfg (nine.withBeats [0x5, 0x3]).cmdIn = .ok (.len, [0x3]) := by decide
theorem test_meets_CommandIsAnsweredInTwoSteps : (nine.withBeats [0x5, 0x3]).Inv ∧ (nine.withBeats [0x5, 0x3]).rst = false ∧
    (nine.withBeats [0x5, 0x3]).rspReady = true ∧ (nine.withBeats [0x5, 0x3]).rsp = none ∧ (nine.withBeats [0x5, 0x3]).busy = false ∧
    decode (nine.withBeats [0x5, 0x3]).cfg (nine.withBeats [0x5, 0x3]).cmdIn = .ok (.len, [0x3]) :=
  ⟨by constructor <;> decide, by decide⟩
theorem test_meets_ResponseIsHeldUntilTaken : (nine.respond 9).cfg.legal = true ∧ (nine.respond 9).rst = false ∧
    (nine.respond 9).rsp = some { status := .ok, val := 9 } ∧ (nine.respond 9).rspReady = true ∧
    ((nine.respond 9).setRspReady false).rsp = some { status := .ok, val := 9 } ∧ ((nine.respond 9).setRspReady false).rspReady = false := by decide
theorem test_meets_PayloadIsDataByPosition : (receiving 2 [0x5]).cfg.legal = true ∧ (receiving 2 [0x5]).rst = false ∧
    (receiving 2 [0x5]).rsp = none ∧ (receiving 2 [0x5]).busy = true ∧ 1 < (receiving 2 [0x5]).payloadLeft ∧
    (receiving 2 [0x5]).cmdIn = 0x5 :: [] ∧ (receiving 1 [0x5]).payloadLeft = 1 ∧ wLane .ref8 0x00000000005 = wLane .ref8 0x00FFFFFFFFF := by decide
theorem test_meets_BlockWaitsForMissingPayload : nine.cfg.legal = true ∧ nine.Idle ∧
    WellFormed nine.cfg (.construct 2 9 [0xC8, 0x80]) = true ∧ 0 < 2 ∧ 1 < 2 := by unfold State.Idle; decide
theorem test_meets_PiecewiseConstructIsTheWhole : nine.cfg.legal = true ∧ nine.Idle ∧
    WellFormed nine.cfg (.construct 9 65 (List.replicate 9 0)) = true ∧ 0 < 9 ∧ 8 < 9 := by unfold State.Idle; decide
theorem test_meets_CommandsRunInOrder : nine.Inv ∧ nine.Idle ∧
    ∀ i ∈ [Instr.next 30 1, .getw 2, .construct 1 1 [0x80], .reserved7], WellFormed nine.cfg i = true :=
  ⟨nine_inv, by unfold State.Idle; decide, by decide⟩
theorem test_meets_OnlyConstructAndNextChangeTheRow :
    (∃ t, step { nine with rst := true } = .next t ∧ t.row ≠ nine.row) ∧
    (∃ t, step (receiving 1 [0x5]) = .next t ∧ t.row ≠ (receiving 1 [0x5]).row) ∧
    (∃ t, step (nine.withBeats [0x1]) = .next t ∧ t.row ≠ (nine.withBeats [0x1]).row) ∧
    ∃ t, step (nine.withBeats [0x001001E2]) = .next t ∧ t.row ≠ (nine.withBeats [0x001001E2]).row :=
  ⟨⟨_, rfl, by decide⟩, ⟨_, rfl, by decide⟩, ⟨_, rfl, by decide⟩, ⟨_, rfl, by decide +kernel⟩⟩
theorem test_meets_OnlyIllegalConfigurationsAreRefused : (State.resetWith small).cfg.legal = false ∧ State.reset.cfg.legal = true := by decide
theorem test_meets_StepKeepsTheInvariant : (receiving 1 [0x5]).Inv ∧ ∃ t, step (receiving 1 [0x5]) = .next t := ⟨receiving_inv, ⟨_, rfl⟩⟩
theorem test_meets_ResetHasTheInvariant : Config.ref8.legal = true ∧ Config.legal { w := 8, maxWords := 1, aw := 9 } = true := by decide
theorem test_meets_StepsAreSafe : nine.Inv ∧ full.Inv ∧ (receiving 1 [0x5]).Inv := ⟨nine_inv, full_inv, receiving_inv⟩
theorem nine_twin : ArchEq nine twin := by unfold ArchEq; exact ⟨by decide, by decide, by decide⟩
theorem test_meets_CommandsSeeOnlyTheRow : nine.cfg.legal = true ∧ ArchEq nine twin ∧ nine ≠ twin ∧ WellFormed nine.cfg (.next 30 4) = true :=
  ⟨by decide, nine_twin, by decide, by decide⟩
theorem test_meets_HiddenStateIsUnobservable : nine.Inv ∧ ArchEq nine twin ∧ ∀ i ∈ [Instr.next 30 4, .getw 1], WellFormed nine.cfg i = true :=
  ⟨nine_inv, nine_twin, by decide⟩
theorem test_meets_SnapshotRoundTrip : nine.Inv ∧ State.reset.Inv := ⟨nine_inv, by constructor <;> decide⟩
theorem test_meets_BitStringIsTheCells : nine.Inv ∧ full.Inv := ⟨nine_inv, full_inv⟩
theorem test_meets_SeedingGivesTheCells : nine.cfg.legal = true ∧ [true, false].length ≤ nine.cfg.capBits ∧
    (List.replicate 64 true).length ≤ nine.cfg.capBits := by decide
/-- The banks of `nine` with other words wherever GETW 1 and a generation do not read. -/
def nineElsewhere (b : Bank) : State := { nine with bank0 := [(0, 0xC8), (1, 0x80), (6, 9)], bank1 := b }

theorem test_meets_CostIsWordGranular : 2 ≤ nine.cfg.w ∧ 255 ≤ 255 ∧ nine.length + 2 * 27 ≤ nine.cfg.capBits ∧
    constructStatus nine.cfg 8 64 = .ok ∧
    (WellFormed nine.cfg (.next 30 2) = true ∧ Access.write 2 ∉ accesses (.next 30 2) nine ∧
      (accesses (.next 30 2) nine).filter Access.isRead = [.read 0, .read 1, .read 0, .read 1] ∧
      ∀ j ∈ [0, 1], (nineElsewhere [(0, 1)]).memRead j = nine.memRead j) ∧
    (WellFormed nine.cfg (.construct 2 9 [0xC8, 0x80]) = true ∧ Access.write 1 ∈ accesses (.construct 2 9 [0xC8, 0x80]) nine) ∧
    (WellFormed nine.cfg (.getw 1) = true ∧ Access.read 1 ∈ accesses (.getw 1) nine) := by decide +kernel
theorem test_meets_EveryWordReadMatters : 2 ≤ nine.cfg.w ∧ nine.cfg = twin.cfg ∧ nine.length = twin.length ∧
    nine.length + 2 ≤ nine.cfg.capBits ∧ 8 < nine.length ∧
    ∃ t t', exec (.next 204 1) nine = .next t ∧ exec (.next 204 1) twin = .next t' ∧ t.row = t'.row :=
  ⟨by decide, by decide, by decide, by decide, by decide, _, _, rfl, rfl, by decide +kernel⟩
theorem test_meets_AssemblerAcceptsExactlyTheWellFormed : operand ['2', '5', '6'] = some 256 ∧
    operand ['0', 'x', 'f', 'F', 'F', '0'] = some 0xFFF0 ∧ 256 < 2 ^ Config.ref8.aw ∧ 0xFFF0 < 2 ^ Config.ref8.aw ∧
    [['1'], ['0', 'x', '0', 'A']].map operand = [1, 10].map some ∧
    emitIfWellFormed .ref8 (.next 256 0xFFF0) = some [.next 256 0xFFF0] ∧
    emitIfWellFormed .ref8 (.construct 256 0xFFF0 [1, 10]) = none := by decide

end Sys2Proof.Tests
end

/-! ## O48: exactly the illegal configurations are refused -/

namespace Sys2Proof.Machine

/-- The idle block waits, takes a header, or runs a command, and no command's meaning is a refusal. -/
theorem fetchAndRun_not_refused (s : State) (r : Refusal) : fetchAndRun s ≠ .refused r := by
  rcases fetchAndRun_cases s with ⟨_, hwait⟩ | ⟨_, _, _, _, _, hheader⟩ | ⟨i, rest, _, _, hrun⟩
  · rw [hwait]; nofun
  · rw [hheader]; nofun
  · rw [hrun]; exact exec_not_refused i _ r

/-- The step refuses exactly the configurations outside R6 to R8, and gives that as its only reason (log 11). -/
theorem step_eq_refused_iff (s : State) (r : Refusal) :
    step s = .refused r ↔ s.cfg.legal = false ∧ r = .illegalConfiguration := by
  rcases step_cases s with ⟨hl, e⟩ | ⟨hl, _, e⟩ | ⟨_, hl, _, _, e⟩ | ⟨hl, _, _, _, e⟩ | ⟨hl, _, _, _, e⟩
  · simp [e, hl, eq_comm]
  · simp [e, hl]
  · simp [e, hl]
  · simp [e, hl]
  · simp [e, hl, fetchAndRun_not_refused]

/-- Settles O48: both clauses are readings of `step_eq_refused_iff`, at `illegalConfiguration` and at
`notModelled`. -/
theorem onlyIllegalConfigurationsAreRefused : Obligations.OnlyIllegalConfigurationsAreRefused := by
  unfold Obligations.OnlyIllegalConfigurationsAreRefused
  intro s
  constructor
  · simp [step_eq_refused_iff]
  · intro mnemonic hrefused
    obtain ⟨_, hreason⟩ := (step_eq_refused_iff s _).mp hrefused
    exact Refusal.noConfusion hreason

end Sys2Proof.Machine

/-! ## O49, O50, O37: the invariant, as what holds during a command and what the handshake adds -/

namespace Sys2Proof.Machine

/-- The part of `State.Inv` that holds in the middle of a command too: the store, the sequencer's and the framer's
operand registers, and the responses. The banks are given by their selector. -/
structure State.CoreInv (s : State) : Prop where
  legal : s.cfg.legal = true
  length_le : s.length ≤ s.cfg.capBits
  banks_wf : ∀ b, Bank.wf s.cfg (s.bank b) = true
  k_le : s.k ≤ s.cfg.maxWords
  gensLeft_fits : fits s.cfg.aw s.gensLeft = true
  nQ_fits : fits s.cfg.aw s.nQ = true
  lenQ_fits : fits s.cfg.aw s.lenQ = true
  rsp_wf : s.rsp.all (Response.wf s.cfg) = true
  delivered_wf : s.delivered.all (Response.wf s.cfg) = true

/-- The part of `State.Inv` that ties the framer's registers to the phase of the handshake (R26, R46). -/
structure State.Handshake (s : State) : Prop where
  payloadLeft_le : s.payloadLeft ≤ s.nQ
  quiet : s.busy = false ∨ s.rsp.isSome = true → s.payloadLeft = 0
  answering : s.rsp.isSome = true → s.busy = true
  receiving : s.busy = true → s.rsp = none → 0 < s.payloadLeft
  keep_eq : s.busy = true → s.rsp = none → s.keep = (constructStatus s.cfg s.nQ s.lenQ == .ok)

/-- The two parts are the invariant. -/
theorem inv_iff (s : State) : s.Inv ↔ s.CoreInv ∧ s.Handshake := by
  constructor
  · intro h
    have hb := (wf_banks_iff s).1 ⟨h.bank0_wf, h.bank1_wf⟩
    exact ⟨⟨h.legal, h.length_le, hb, h.k_le, h.gensLeft_fits, h.nQ_fits, h.lenQ_fits, h.rsp_wf, h.delivered_wf⟩,
      ⟨h.payloadLeft_le, h.quiet, h.answering, h.receiving, h.keep_eq⟩⟩
  · rintro ⟨hc, hh⟩
    obtain ⟨h0, h1⟩ := (wf_banks_iff s).2 hc.banks_wf
    exact { hc, hh with bank0_wf := h0, bank1_wf := h1 }

/-! ### The handshake, phase by phase -/

theorem handshake_idle {s : State} (hb : s.busy = false) (hr : s.rsp = none) (hp : s.payloadLeft = 0) :
    s.Handshake := by
  constructor <;> simp [hb, hr, hp]

theorem handshake_answered {s : State} {r : Response} (hb : s.busy = true) (hr : s.rsp = some r)
    (hp : s.payloadLeft = 0) : s.Handshake := by
  constructor <;> simp [hb, hr, hp]

theorem handshake_receiving {s : State} (hb : s.busy = true) (hr : s.rsp = none) (hp : 0 < s.payloadLeft)
    (hle : s.payloadLeft ≤ s.nQ) (hk : s.keep = (constructStatus s.cfg s.nQ s.lenQ == .ok)) : s.Handshake := by
  constructor <;> simp [hb, hr, hp, hle, hk]

/-! ### Responses of the format of R60 -/

theorem fits_vw_of_word {c : Config} {v : Nat} (h : v < 2 ^ c.w) : fits c.vw v = true := by
  have hle : 2 ^ c.w ≤ 2 ^ c.vw := Nat.pow_le_pow_right (by decide) (le_max_left _ _)
  simpa [fits] using h.trans_le hle

theorem fits_vw_of_operand {c : Config} {v : Nat} (h : v < 2 ^ c.aw) : fits c.vw v = true := by
  have hle : 2 ^ c.aw ≤ 2 ^ c.vw := Nat.pow_le_pow_right (by decide) (le_max_right _ _)
  simpa [fits] using h.trans_le hle

theorem fits_vw_of_le_one {c : Config} (hl : c.legal = true) {v : Nat} (h : v ≤ 1) : fits c.vw v = true := by
  refine fits_vw_of_word (h.trans_lt ?_)
  exact Nat.one_lt_two_pow (Config.legal_w_pos hl).ne'

/-! ### The core of the invariant, operation by operation -/

namespace State.CoreInv

variable {s : State}

theorem w_pos (h : s.CoreInv) : 0 < s.cfg.w := Config.legal_w_pos h.legal

theorem wordCount_le (h : s.CoreInv) : s.wordCount ≤ s.cfg.maxWords := wordsFor_le_maxWords h.w_pos h.length_le

theorem memRead_lt (h : s.CoreInv) (k : Nat) : s.memRead k < 2 ^ s.cfg.w := Bank.read_lt _ _ (h.banks_wf _) k

theorem takeBeats (h : s.CoreInv) (rest : List Beat) : (s.takeBeats rest).CoreInv := { h with }

theorem respond (h : s.CoreInv) {v : Nat} (hv : fits s.cfg.vw v = true) : (s.respond v).CoreInv :=
  { h with rsp_wf := by simpa [Response.wf] using hv }

theorem raise (h : s.CoreInv) (e : Status) : (s.raise e).CoreInv :=
  { h with rsp_wf := by simp [Response.wf, fits] }

theorem deliver (h : s.CoreInv) {r : Response} (hr : s.rsp = some r) : (s.deliver r).CoreInv := by
  have hwf : Response.wf s.cfg r = true := by simpa [hr] using h.rsp_wf
  exact { h with rsp_wf := rfl, delivered_wf := by simpa [hwf] using h.delivered_wf }

theorem swap (h : s.CoreInv) {n : Nat} (hn : n ≤ s.cfg.capBits) : (s.swap n).CoreInv := { h with length_le := hn }

theorem loadNext (h : s.CoreInv) (rule : Nat) {gens : Nat} (hg : fits s.cfg.aw gens = true) :
    (s.loadNext rule gens).CoreInv := { h with gensLeft_fits := hg }

theorem openConstruct (h : s.CoreInv) {n len : Nat} (hn : fits s.cfg.aw n = true) (hl : fits s.cfg.aw len = true) :
    (s.openConstruct n len).CoreInv := { h with nQ_fits := hn, lenQ_fits := hl }

/-- Payload words are written within the bank, because a CONSTRUCT is only kept if its Row fits (R72, R73). -/
theorem foldl_acceptPayload (h : s.CoreInv) (hk : s.keep = (constructStatus s.cfg s.nQ s.lenQ == .ok))
    (p : List Word) : (p.foldl State.acceptPayload s).CoreInv := by
  have hfits : s.keep = true → wordsFor s.cfg.w s.lenQ ≤ s.cfg.maxWords := by
    intro hkeep
    have hok : constructStatus s.cfg s.nQ s.lenQ = .ok := by simpa [hk] using hkeep
    exact ((constructStatus_ok_iff _ _ _).1 hok).2
  have hb := wf_foldl_acceptPayload p s h.banks_wf hfits
  rw [foldl_acceptPayload_eq] at hb ⊢
  exact { h with banks_wf := hb }

/-- The close of a CONSTRUCT sets a length only where its status is ok, and so within the capacity (R72). -/
theorem closeConstruct (h : s.CoreInv) : s.closeConstruct.CoreInv := by
  rcases closeConstruct_cases s with ⟨hok, e⟩ | ⟨_, e⟩ <;> rw [e]
  · have hfits := ((constructStatus_ok_iff _ _ _).1 hok).2
    have hlen : s.lenQ ≤ s.cfg.capBits := (wordsFor_le_iff h.w_pos _ _).1 hfits
    exact (h.swap hlen).respond (by simp [fits])
  · exact h.raise _

/-- Generations stay within the bank where their last length is within the capacity (R100). -/
theorem generations (h : s.CoreInv) {g : Nat} (hg : s.length + 2 * g ≤ s.cfg.capBits) :
    (State.generations g s).CoreInv := by
  have hfits : wordsFor s.cfg.w (s.length + 2 * g) ≤ s.cfg.maxWords := wordsFor_le_maxWords h.w_pos hg
  have hb := wf_generations g s h.banks_wf hfits
  have hk := generations_k_le g s _ h.k_le hfits
  have hgl : s.gensLeft - g < 2 ^ s.cfg.aw := by
    have := h.gensLeft_fits
    simp only [fits, decide_eq_true_eq] at this
    omega
  rw [generations_eq] at hb hk ⊢
  exact { h with length_le := hg, banks_wf := hb, k_le := hk, gensLeft_fits := decide_eq_true hgl }

end State.CoreInv

theorem coreInv_resetWith {c : Config} (hc : c.legal = true) : (State.resetWith c).CoreInv where
  legal := hc
  length_le := Nat.zero_le _
  banks_wf := wf_resetWith c
  k_le := Nat.zero_le _
  gensLeft_fits := by simp [fits]
  nQ_fits := by simp [fits]
  lenQ_fits := by simp [fits]
  rsp_wf := rfl
  delivered_wf := rfl

theorem resetWith_inv {c : Config} (hc : c.legal = true) : (State.resetWith c).Inv :=
  (inv_iff _).2 ⟨coreInv_resetWith hc, handshake_idle rfl rfl rfl⟩

/-- A reset edge leaves the reset state, and of the host's side the responses already taken (R150). -/
theorem resetEdge_inv {s : State} (h : s.CoreInv) : s.resetEdge.Inv :=
  (inv_iff _).2 ⟨{ coreInv_resetWith h.legal with delivered_wf := h.delivered_wf }, handshake_idle rfl rfl rfl⟩

/-! ### Commands -/

/-- A well-formed command keeps the core, whether or not the block was idle. -/
theorem exec_keeps_coreInv {i : Instr} {s t : State} (h : s.CoreInv) (hi : WellFormed s.cfg i = true)
    (he : exec i s = .next t) : t.CoreInv := by
  by_cases hr : i.isReserved = true
  · rw [exec_reserved i s hr] at he; cases he; exact h.raise _
  · cases i with
    | construct n len p =>
      simp only [WellFormed, Bool.and_eq_true] at hi
      obtain ⟨⟨⟨hn, hlen⟩, _⟩, _⟩ := hi
      cases he
      exact ((h.openConstruct hn hlen).foldl_acceptPayload rfl p).closeConstruct
    | next rule gens =>
      simp only [WellFormed, Bool.and_eq_true] at hi
      rcases execNext_cases rule gens s with ⟨hok, e⟩ | ⟨_, e⟩ <;> rw [exec, e] at he <;> cases he
      · have hcap := ((nextStatus_ok_iff _ _ _ _).1 hok).2
        exact ((h.loadNext rule hi.2).generations hcap).respond (by simp [fits])
      · exact h.raise _
    | getw idx =>
      rcases execGetw_cases idx s with ⟨_, e⟩ | ⟨_, _, e⟩ | ⟨_, _, e⟩ <;> rw [exec, e] at he <;> cases he
      · exact h.raise _
      · exact h.respond (fits_vw_of_word (h.memRead_lt idx))
    | getb i =>
      rcases execGetb_cases i s with ⟨_, e⟩ | ⟨_, _, e⟩ | ⟨_, _, e⟩ <;> rw [exec, e] at he <;> cases he
      · exact h.raise _
      · exact h.respond (fits_vw_of_le_one h.legal Nat.and_le_right)
    | len =>
      cases he
      obtain ⟨_, _, _, hcap⟩ := (Config.legal_iff s.cfg).1 h.legal
      exact h.respond (fits_vw_of_operand (h.length_le.trans_lt hcap))
    | _ => exact absurd rfl hr

theorem closeConstruct_payloadLeft (s : State) : s.closeConstruct.payloadLeft = s.payloadLeft := by
  rcases closeConstruct_cases s with ⟨_, e⟩ | ⟨_, e⟩ <;> rw [e] <;> rfl

theorem closeConstruct_answers (s : State) : s.closeConstruct.busy = true ∧ ∃ r, s.closeConstruct.rsp = some r := by
  rcases closeConstruct_cases s with ⟨_, e⟩ | ⟨_, e⟩ <;> rw [e] <;> exact ⟨rfl, _, rfl⟩

/-- No payload is awaited after a command that ran with all its beats: only a CONSTRUCT counts payload, and as many words
as its header says. -/
theorem exec_payloadLeft {i : Instr} {s t : State} (hs : s.payloadLeft = 0) (hi : WellFormed s.cfg i = true)
    (he : exec i s = .next t) : t.payloadLeft = 0 := by
  by_cases hr : i.isReserved = true
  · rw [exec_reserved i s hr] at he; cases he; exact hs
  · cases i with
    | construct n len p =>
      simp only [WellFormed, Bool.and_eq_true, decide_eq_true_eq] at hi
      obtain ⟨⟨_, hp⟩, _⟩ := hi
      cases he
      rw [closeConstruct_payloadLeft, foldl_acceptPayload_eq]
      show n - p.length = 0
      omega
    | next rule gens =>
      rcases execNext_cases rule gens s with ⟨_, e⟩ | ⟨_, e⟩ <;> rw [exec, e] at he <;> cases he
      · rw [generations_eq]; exact hs
      · exact hs
    | getw idx =>
      rcases execGetw_cases idx s with ⟨_, e⟩ | ⟨_, _, e⟩ | ⟨_, _, e⟩ <;> rw [exec, e] at he <;> cases he <;> exact hs
    | getb i =>
      rcases execGetb_cases i s with ⟨_, e⟩ | ⟨_, _, e⟩ | ⟨_, _, e⟩ <;> rw [exec, e] at he <;> cases he <;> exact hs
    | len => cases he; exact hs
    | _ => exact absurd rfl hr

theorem exec_keeps_inv {i : Instr} {s t : State} (h : s.CoreInv) (hs : s.payloadLeft = 0)
    (hi : WellFormed s.cfg i = true) (he : exec i s = .next t) : t.Inv := by
  obtain ⟨hb, r, hr⟩ := exec_answers i s t he
  exact (inv_iff t).2 ⟨exec_keeps_coreInv h hi he, handshake_answered hb hr (exec_payloadLeft hs hi he)⟩

/-! ### The step -/

/-- The header of a CONSTRUCT with payload missing leaves a block that awaits `n > 0` payload words. -/
theorem acceptHeader_inv {s : State} (h : s.CoreInv) (hrsp : s.rsp = none) {n len : Nat} (hpos : 0 < n)
    (hn : fits s.cfg.aw n = true) (hlen : fits s.cfg.aw len = true) : (s.acceptHeader n len).Inv :=
  (inv_iff _).2
    ⟨(h.takeBeats _).openConstruct hn hlen, handshake_receiving rfl hrsp hpos (Nat.le_refl n) rfl⟩

/-- The idle block keeps the invariant, whatever it fetches. -/
theorem fetchAndRun_keeps_inv {s t : State} (h : s.Inv) (hrsp : s.rsp = none) (hbusy : s.busy = false)
    (he : fetchAndRun s = .next t) : t.Inv := by
  have hc := ((inv_iff s).1 h).1
  rcases fetchAndRun_cases s with ⟨_, e⟩ | ⟨d, rest, _, _, hshort, e⟩ | ⟨i, rest, _, hi, e⟩ <;> rw [e] at he
  · cases he; exact h
  · cases he
    exact acceptHeader_inv hc hrsp (by omega) (decide_eq_true (aLane_lt _ d)) (decide_eq_true (bLane_lt _ d))
  · exact exec_keeps_inv (hc.takeBeats rest) (h.quiet (.inl hbusy)) hi he

/-- A block that awaits payload keeps the invariant, with the beat it takes or without one. -/
theorem receive_inv {s : State} (h : s.Inv) (hrsp : s.rsp = none) (hbusy : s.busy = true) : s.receive.Inv := by
  obtain ⟨hc, hh⟩ := (inv_iff s).1 h
  have hpos := h.receiving hbusy hrsp
  have hkeep := h.keep_eq hbusy hrsp
  have accepted (rest : List Beat) (v : Word) : ((s.takeBeats rest).acceptPayload v).CoreInv :=
    (hc.takeBeats rest).foldl_acceptPayload hkeep [v]
  rcases receive_cases s with ⟨h0, _⟩ | ⟨_, _, e⟩ | ⟨d, rest, _, _, h1, e⟩ | ⟨d, rest, _, _, h1, e⟩
  · omega
  · rwa [e]
  · rw [e]
    obtain ⟨hb, r, hr⟩ := closeConstruct_answers ((s.takeBeats rest).acceptPayload (wLane s.cfg d))
    refine (inv_iff _).2 ⟨(accepted rest _).closeConstruct, handshake_answered hb hr ?_⟩
    rw [closeConstruct_payloadLeft, acceptPayload_eq]
    show s.payloadLeft - 1 = 0
    omega
  · rw [e]
    refine (inv_iff _).2 ⟨accepted rest _, ?_⟩
    have hle := h.payloadLeft_le
    rw [acceptPayload_eq]
    refine handshake_receiving hbusy hrsp ?_ ?_ hkeep
    · show 0 < s.payloadLeft - 1
      omega
    · show s.payloadLeft - 1 ≤ s.nQ
      omega

/-- The transfer of the response leaves the block idle with no payload awaited (R46). -/
theorem deliver_inv {s : State} (h : s.Inv) {r : Response} (hr : s.rsp = some r) : (s.deliver r).Inv := by
  have hquiet : s.payloadLeft = 0 := h.quiet (.inr (by simp [hr]))
  exact (inv_iff _).2 ⟨((inv_iff s).1 h).1.deliver hr, handshake_idle rfl rfl hquiet⟩

/-- Settles O49: each move of the step keeps the invariant. -/
theorem stepKeepsTheInvariant : Obligations.StepKeepsTheInvariant := by
  unfold Obligations.StepKeepsTheInvariant
  intro s t h he
  rcases step_cases s with ⟨_, e⟩ | ⟨_, _, e⟩ | ⟨r, _, _, hrsp, e⟩ | ⟨_, _, hrsp, hbusy, e⟩ | ⟨_, _, hrsp, hbusy, e⟩ <;>
    rw [e] at he
  · cases he
  · cases he; exact resetEdge_inv ((inv_iff s).1 h).1
  · cases he
    split
    · exact deliver_inv h hrsp
    · exact h
  · cases he; exact receive_inv h hrsp hbusy
  · exact fetchAndRun_keeps_inv h hrsp hbusy he

/-- Settles O50: `resetWith_inv`, and `REF8` is a legal configuration. -/
theorem resetHasTheInvariant : Obligations.ResetHasTheInvariant := by
  unfold Obligations.ResetHasTheInvariant
  exact ⟨fun _ hc => resetWith_inv hc, rfl, resetWith_inv (by decide)⟩

/-! ### The values after reset -/

/-- Settles O37: R27's values, those of the Row through the word count of length 0. -/
theorem resetValues : Obligations.ResetValues := by
  unfold Obligations.ResetValues
  intro c
  have hwords : (State.resetWith c).wordCount = 0 := wordsFor_zero c.w
  have hrow : (State.resetWith c).row.words = [] := by
    rw [← List.length_eq_zero_iff, row_words_length, hwords]
  exact ⟨rfl, hwords, hrow, rfl, rfl, rfl, rfl, rfl⟩

end Sys2Proof.Machine

/-! ## O18: a read beyond the bank, in a state beyond R14 -/

namespace Sys2Proof.Machine

/-- Settles O18: of the outcomes of a read, an index below `word_count` rules out OutOfRange and an index at or beyond
`MAXWORDS` rules out the value. -/
theorem readsBeyondTheBankFault : Obligations.ReadsBeyondTheBankFault := by
  unfold Obligations.ReadsBeyondTheBankFault
  intro idx s hmax
  constructor
  · intro hidx
    rcases execGetw_cases idx s with ⟨hout, _⟩ | ⟨_, hin, _⟩ | ⟨_, _, e⟩
    · omega
    · omega
    · exact e
  · rintro i hi rfl
    rcases execGetb_cases i s with ⟨hout, _⟩ | ⟨_, hin, _⟩ | ⟨_, _, e⟩
    · omega
    · exact absurd hin (Nat.not_lt.2 hmax)
    · exact e

end Sys2Proof.Machine

/-! ## O52, O53: isolation from everything but the Row -/

namespace Sys2Proof.Machine

/-- Two outcomes a host cannot tell apart: the same response over states that show the same Row, or the same fault. -/
def AnswersAlike (o o' : Host.Outcome State Fault Refusal) : Prop :=
  (∃ s t r, o = .next s ∧ o' = .next t ∧ s.rsp = some r ∧ t.rsp = some r ∧ ArchEq s t) ∨
  ∃ f, o = .fault f ∧ o' = .fault f

section

variable {s t : State}

theorem ArchEq.respond (h : ArchEq s t) (v : Nat) : AnswersAlike (.next (s.respond v)) (.next (t.respond v)) :=
  .inl ⟨_, _, _, rfl, rfl, rfl, rfl, h⟩

theorem ArchEq.raise (h : ArchEq s t) (e : Status) : AnswersAlike (.next (s.raise e)) (.next (t.raise e)) :=
  .inl ⟨_, _, _, rfl, rfl, rfl, rfl, h⟩

theorem answersAlike_fault (f : Fault) : AnswersAlike (.fault f) (.fault f) := .inr ⟨f, rfl, rfl⟩

theorem ArchEq.deliver (h : ArchEq s t) (r : Response) : ArchEq (s.deliver r) (t.deliver r) := h

/-- With its rule loaded, a NEXT reads nothing but the Row (R107). -/
theorem ArchEq.loadNext (h : ArchEq s t) (rule gens : Nat) :
    SameInput (s.loadNext rule gens) (t.loadNext rule gens) := by
  obtain ⟨hc, hl, hm⟩ := h
  exact ⟨hc, rfl, hl, hm⟩

theorem SameInput.archEq (h : SameInput s t) : ArchEq s t := by
  obtain ⟨hc, _, hl, hm⟩ := h
  exact ⟨hc, hl, hm⟩

/-- The Row an accepted CONSTRUCT installs: the word at a place the Row needs is the payload word of that place (R68,
R70). -/
theorem memRead_construct (s : State) (hw : 0 < s.cfg.w) (len : Nat) (p : List Word)
    (hok : constructStatus s.cfg p.length len = .ok) (k : Nat) (hk : k < wordsFor s.cfg.w len) :
    ((p.foldl State.acceptPayload (s.openConstruct p.length len)).swap len).memRead k =
      p.getD k 0 % 2 ^ s.cfg.w := by
  have hsize : wordsFor s.cfg.w len ≤ p.length := (wordsFor_le_iff hw _ _).2 ((constructStatus_ok_iff _ _ _).1 hok).1
  have hfront : (p.foldl State.acceptPayload (s.openConstruct p.length len)).front =
      (s.openConstruct p.length len).front := by rw [foldl_acceptPayload_eq]
  have hkeep : (s.openConstruct p.length len).keep = true := by simp [hok]
  rw [memRead_swap, hfront, read_foldl_acceptPayload p _ hkeep (Nat.le_refl _) (Nat.le_refl _), if_pos]
  · simp
  · simp only [openConstruct_nQ, openConstruct_payloadLeft, openConstruct_cfg, openConstruct_lenQ]
    omega

/-- An accepted CONSTRUCT overwrites every word of the Row it installs, and so leaves nothing of the banks to see. -/
theorem ArchEq.construct (h : ArchEq s t) (hw : 0 < s.cfg.w) (len : Nat) (p : List Word)
    (hok : constructStatus s.cfg p.length len = .ok) :
    ArchEq ((p.foldl State.acceptPayload (s.openConstruct p.length len)).swap len)
      ((p.foldl State.acceptPayload (t.openConstruct p.length len)).swap len) := by
  obtain ⟨hc, _, _⟩ := h
  have hcs (u : State) : ((p.foldl State.acceptPayload (u.openConstruct p.length len)).swap len).cfg = u.cfg := by
    rw [foldl_acceptPayload_eq]; rfl
  refine ⟨by rw [hcs, hcs, hc], rfl, fun k hk => ?_⟩
  rw [State.wordCount, hcs, swap_length] at hk
  rw [memRead_construct s hw len p hok k hk, memRead_construct t (hc ▸ hw) len p (hc ▸ hok) k (hc ▸ hk), hc]

/-- The two blocks agree on whether a CONSTRUCT is accepted; a rejected one writes only the framer's registers (R73). -/
theorem ArchEq.execConstruct (h : ArchEq s t) (hw : 0 < s.cfg.w) (len : Nat) (p : List Word) :
    AnswersAlike (execConstruct p.length len p s) (execConstruct p.length len p t) := by
  have hst : constructStatus s.cfg p.length len = constructStatus t.cfg p.length len := by rw [h.1]
  rcases execConstruct_cases p.length len p s with ⟨hs, e⟩ | ⟨hs, e⟩ <;>
    rcases execConstruct_cases p.length len p t with ⟨ht, e'⟩ | ⟨ht, e'⟩
  · rw [e, e']; exact (h.construct hw len p hs).respond 0
  · exact absurd (hst ▸ hs) ht
  · exact absurd (hst ▸ ht) hs
  · rw [e, e', hst]; exact .inl ⟨_, _, _, rfl, rfl, rfl, rfl, h⟩

/-- The two blocks agree on whether a NEXT is accepted, and its generations read the same input. -/
theorem ArchEq.execNext (h : ArchEq s t) (rule gens : Nat) :
    AnswersAlike (execNext rule gens s) (execNext rule gens t) := by
  obtain ⟨hc, hl, _⟩ := id h
  unfold Machine.execNext
  rw [← hc, ← hl]
  split
  · exact ((h.loadNext rule gens).generations gens).archEq.respond 0
  · exact h.raise _

theorem getwStatus_ok_iff (c : Config) (length idx : Nat) :
    getwStatus c length idx = .ok ↔ idx < wordsFor c.w length := by
  unfold getwStatus; split <;> simp <;> omega

theorem getbStatus_ok_iff (length i : Nat) : getbStatus length i = .ok ↔ i < length := by
  unfold getbStatus; split <;> simp <;> omega

/-- A word GETW answers is a word of the Row. -/
theorem ArchEq.execGetw (h : ArchEq s t) (idx : Nat) : AnswersAlike (execGetw idx s) (execGetw idx t) := by
  obtain ⟨hc, hl, hm⟩ := id h
  unfold Machine.execGetw
  rw [← hc, ← hl]
  split
  case h_1 hok =>
    have hword := hm idx ((getwStatus_ok_iff _ _ _).1 hok)
    split
    · rw [hword]; exact h.respond _
    · exact answersAlike_fault _
  case h_2 => exact h.raise _

/-- The word GETB reads holds a cell, and so is a word of the Row. -/
theorem ArchEq.execGetb (h : ArchEq s t) (hw : 0 < s.cfg.w) (i : Nat) :
    AnswersAlike (execGetb i s) (execGetb i t) := by
  obtain ⟨hc, hl, hm⟩ := id h
  unfold Machine.execGetb
  rw [← hc, ← hl]
  split
  case h_1 hok =>
    have hword := hm _ (wordOf_lt hw ((getbStatus_ok_iff _ _).1 hok))
    split
    · rw [hword]; exact h.respond _
    · exact answersAlike_fault _
  case h_2 => exact h.raise _

/-- Every command, by its meaning. -/
theorem ArchEq.exec (h : ArchEq s t) (hl : s.cfg.legal = true) {i : Instr} (hi : WellFormed s.cfg i = true) :
    AnswersAlike (exec i s) (exec i t) := by
  have hw := Config.legal_w_pos hl
  by_cases hr : i.isReserved = true
  · rw [exec_reserved i s hr, exec_reserved i t hr]; exact h.raise _
  · cases i with
    | construct n len p =>
      simp only [WellFormed, Bool.and_eq_true, decide_eq_true_eq] at hi
      obtain ⟨⟨_, rfl⟩, _⟩ := hi
      exact h.execConstruct hw len p
    | next rule gens => exact h.execNext rule gens
    | getw idx => exact h.execGetw idx
    | getb i => exact h.execGetb hw i
    | len =>
      show AnswersAlike (.next (s.respond s.length)) (.next (t.respond t.length))
      rw [h.2.1]
      exact h.respond _
    | _ => exact absurd rfl hr

end

/-- Settles O52: `ArchEq.exec` is the statement, with `AnswersAlike` for its conclusion. -/
theorem commandsSeeOnlyTheRow : Obligations.CommandsSeeOnlyTheRow := by
  unfold Obligations.CommandsSeeOnlyTheRow
  exact fun _ _ _ hl h hi => h.exec hl hi

/-! ### Command sequences -/

/-- No command faults within the core of the invariant: the words it reads are words a bank has (R14, log 12). -/
theorem exec_not_fault {s : State} (h : s.CoreInv) (i : Instr) (f : Fault) : exec i s ≠ .fault f := by
  have hmax := h.wordCount_le
  by_cases hr : i.isReserved = true
  · rw [exec_reserved i s hr]; nofun
  · cases i with
    | construct n len p => nofun
    | next rule gens => rcases execNext_cases rule gens s with ⟨_, e⟩ | ⟨_, e⟩ <;> rw [exec, e] <;> nofun
    | getw idx =>
      rcases execGetw_cases idx s with ⟨_, e⟩ | ⟨_, _, e⟩ | ⟨hidx, hbeyond, _⟩
      · rw [exec, e]; nofun
      · rw [exec, e]; nofun
      · omega
    | getb i =>
      rcases execGetb_cases i s with ⟨_, e⟩ | ⟨_, _, e⟩ | ⟨hi, hbeyond, _⟩
      · rw [exec, e]; nofun
      · rw [exec, e]; nofun
      · have hword : wordOf s.cfg.w i < s.wordCount := wordOf_lt h.w_pos hi
        omega
    | len => nofun
    | _ => exact absurd rfl hr

theorem ask_eq_some {i : Instr} {s t : State} {r : Response} (he : exec i s = .next t) (hr : t.rsp = some r) :
    ask i s = some (r, t.deliver r) := by
  simp [ask, he, hr]

/-- One command and its response: both blocks answer the same, and what they leave is again alike and sound. -/
theorem ArchEq.ask {s t : State} (h : ArchEq s t) (hs : s.CoreInv) {i : Instr} (hi : WellFormed s.cfg i = true) :
    ∃ r s' t', ask i s = some (r, s') ∧ ask i t = some (r, t') ∧ ArchEq s' t' ∧ s'.CoreInv ∧ s'.cfg = s.cfg := by
  rcases h.exec hs.legal hi with ⟨s', t', r, es, et, hrs, hrt, h'⟩ | ⟨f, es, _⟩
  · obtain ⟨hcfg, _⟩ := exec_keeps i s s' es
    exact ⟨r, s'.deliver r, t'.deliver r, ask_eq_some es hrs, ask_eq_some et hrt, h'.deliver r,
      (exec_keeps_coreInv hs hi es).deliver hrs, hcfg⟩
  · exact absurd es (exec_not_fault hs i f)

/-- The sequence, command by command: the core of the invariant is enough, the block need not be idle. -/
theorem ArchEq.askAll (prog : List Instr) {s t : State} (h : ArchEq s t) (hs : s.CoreInv)
    (hprog : ∀ i ∈ prog, WellFormed s.cfg i = true) :
    ∃ rs s' t', askAll prog s = some (rs, s') ∧ askAll prog t = some (rs, t') ∧ ArchEq s' t' := by
  induction prog generalizing s t with
  | nil => exact ⟨[], s, t, rfl, rfl, h⟩
  | cons i is ih =>
    obtain ⟨hi, his⟩ := List.forall_mem_cons.1 hprog
    obtain ⟨r, s₁, t₁, es, et, h₁, hs₁, hcfg⟩ := h.ask hs hi
    obtain ⟨rs, s', t', es', et', h'⟩ := ih h₁ hs₁ (hcfg ▸ his)
    exact ⟨r :: rs, s', t', by simp [Machine.askAll, es, es'], by simp [Machine.askAll, et, et'], h'⟩

/-- Settles O53, from `ArchEq.askAll` and the core of the invariant. -/
theorem hiddenStateIsUnobservable : Obligations.HiddenStateIsUnobservable := by
  unfold Obligations.HiddenStateIsUnobservable
  exact fun prog s _ hs h hprog => h.askAll prog ((inv_iff s).1 hs).1 hprog

end Sys2Proof.Machine

/-! ## O10: the mask of a word's cells -/

namespace Sys2Proof.Machine

section

variable (w len k : Nat)

theorem validBits_le : validBits w len k ≤ w := Nat.min_le_right _ _

/-- The first `v(L, k)` places of word `k` are the places that hold a cell (R29, R38). -/
theorem lt_validBits_iff {t : Nat} (ht : t < w) : t < validBits w len k ↔ k * w + t < len := by
  unfold validBits
  omega

/-- A word before the last holds `W` cells. -/
theorem validBits_of_lt_div (h : k < len / w) : validBits w len k = w := by
  have hfull : (k + 1) * w ≤ len := (Nat.mul_le_mul_right w h).trans (Nat.div_mul_le_self len w)
  rw [Nat.add_one_mul] at hfull
  unfold validBits
  omega

/-- A word at or beyond the word count holds no cell. -/
theorem validBits_of_wordsFor_le (hw : 0 < w) (h : wordsFor w len ≤ k) : validBits w len k = 0 := by
  have hlen : len ≤ w * k := (wordsFor_le_iff hw len k).1 h
  rw [Nat.mul_comm] at hlen
  unfold validBits
  omega

/-- The ones of the mask are its upper `v(L, k)` bits. -/
theorem vmask_testBit (j : Nat) :
    (vmask w len k).testBit j = decide (w - validBits w len k ≤ j ∧ j < w) := by
  have hle := validBits_le w len k
  rw [vmask, Nat.testBit_shiftLeft, Nat.testBit_two_pow_sub_one, ← Bool.decide_and]
  exact decide_eq_decide.2 (by omega)

theorem vmask_lt : vmask w len k < 2 ^ w := by
  refine Nat.lt_pow_two_of_testBit _ fun j hj => ?_
  rw [vmask_testBit]
  exact decide_eq_false (by omega)

/-- The mask bit of place `t` says whether the place holds a cell. -/
theorem vmask_testBit_place {t : Nat} (ht : t < w) :
    (vmask w len k).testBit (w - 1 - t) = decide (k * w + t < len) := by
  have hle := validBits_le w len k
  have hplace := lt_validBits_iff w len k ht
  rw [vmask_testBit]
  exact decide_eq_decide.2 (by omega)

end

/-- Settles O10: the mask is all ones or 0 where `v(L, k)` is `W` or 0. -/
theorem vmaskMarksTheCells : Obligations.VmaskMarksTheCells := by
  unfold Obligations.VmaskMarksTheCells
  intro w len k hw
  refine ⟨vmask_lt w len k, fun t ht => vmask_testBit_place w len k ht, fun h => ?_, fun h => ?_⟩
  · simp [vmask, validBits_of_lt_div w len k h, ones]
  · simp [vmask, validBits_of_wordsFor_le w len k hw h]

end Sys2Proof.Machine

/-! ## O21, O55: reads and the snapshot -/

namespace Sys2Proof.Machine

/-- The commands that only read the Row (R36). -/
def IsRead (i : Instr) : Prop := (∃ idx, i = .getw idx) ∨ (∃ j, i = .getb j) ∨ i = .len

section

variable {s s' : State} {i : Instr} {r : Response}

/-- GETW at or beyond the word count (R76). -/
theorem exec_getw_of_le {idx : Nat} (h : s.wordCount ≤ idx) : exec (.getw idx) s = .next (s.raise .outOfRange) := by
  rcases execGetw_cases idx s with ⟨_, e⟩ | ⟨hlt, _⟩ | ⟨hlt, _⟩
  · exact e
  · omega
  · omega

/-- GETW of a word of the Row that a bank has (R76). -/
theorem exec_getw_of_lt {idx : Nat} (h : idx < s.wordCount) (hmax : idx < s.cfg.maxWords) :
    exec (.getw idx) s = .next (s.respond (s.memRead idx)) := by
  rcases execGetw_cases idx s with ⟨hle, _⟩ | ⟨_, _, e⟩ | ⟨_, hbeyond, _⟩
  · omega
  · exact e
  · omega

/-- GETB at or beyond the length (R75). -/
theorem exec_getb_of_le {j : Nat} (h : s.length ≤ j) : exec (.getb j) s = .next (s.raise .outOfRange) := by
  rcases execGetb_cases j s with ⟨_, e⟩ | ⟨hlt, _⟩ | ⟨hlt, _⟩
  · exact e
  · omega
  · omega

/-- GETB of a cell whose word a bank has (R75). -/
theorem exec_getb_of_lt {j : Nat} (h : j < s.length) (hmax : wordOf s.cfg.w j < s.cfg.maxWords) :
    exec (.getb j) s = .next (s.respond ((s.memRead (wordOf s.cfg.w j) >>> bitOf s.cfg.w j) &&& 1)) := by
  rcases execGetb_cases j s with ⟨hle, _⟩ | ⟨_, _, e⟩ | ⟨_, hbeyond, _⟩
  · omega
  · exact e
  · omega

/-- A command that only answers changes nothing but the handshake. -/
theorem ask_of_respond {v : Nat} (he : exec i s = .next (s.respond v)) :
    ask i s = some ({ status := .ok, val := v }, s.deliver { status := .ok, val := v }) :=
  ask_eq_some (t := s.respond v) he rfl

theorem ask_of_raise {e : Status} (he : exec i s = .next (s.raise e)) :
    ask i s = some ({ status := e, val := 0 }, s.deliver { status := e, val := 0 }) :=
  ask_eq_some (t := s.raise e) he rfl

theorem ask_of_fault {f : Fault} (he : exec i s = .fault f) : ask i s = none := by
  simp [ask, he]

/-- A read hands over its response and changes nothing else, and the transfer of a response does not change what a read
answers (R36). -/
theorem ask_read (hi : IsRead i) (h : ask i s = some (r, s')) :
    s' = s.deliver r ∧ ∀ q, ask i (s.deliver q) = some (r, (s.deliver q).deliver r) := by
  rcases hi with ⟨idx, rfl⟩ | ⟨j, rfl⟩ | rfl
  · rcases execGetw_cases idx s with ⟨hle, _⟩ | ⟨hlt, hmax, _⟩ | ⟨_, _, hfault⟩
    · cases (ask_of_raise (exec_getw_of_le hle)).symm.trans h
      exact ⟨rfl, fun q => ask_of_raise (exec_getw_of_le (s := s.deliver q) hle)⟩
    · cases (ask_of_respond (exec_getw_of_lt hlt hmax)).symm.trans h
      exact ⟨rfl, fun q => ask_of_respond (exec_getw_of_lt (s := s.deliver q) hlt hmax)⟩
    · cases (ask_of_fault (i := .getw idx) hfault).symm.trans h
  · rcases execGetb_cases j s with ⟨hle, _⟩ | ⟨hlt, hmax, _⟩ | ⟨_, _, hfault⟩
    · cases (ask_of_raise (exec_getb_of_le hle)).symm.trans h
      exact ⟨rfl, fun q => ask_of_raise (exec_getb_of_le (s := s.deliver q) hle)⟩
    · cases (ask_of_respond (exec_getb_of_lt hlt hmax)).symm.trans h
      exact ⟨rfl, fun q => ask_of_respond (exec_getb_of_lt (s := s.deliver q) hlt hmax)⟩
    · cases (ask_of_fault (i := .getb j) hfault).symm.trans h
  · cases h
    exact ⟨rfl, fun _ => rfl⟩

end

/-- Settles O21: the transfer of a read's own response is a case of `ask_read`, and keeps the Row. -/
theorem readsHaveNoSideEffect : Obligations.ReadsHaveNoSideEffect := by
  unfold Obligations.ReadsHaveNoSideEffect
  intro i s s1 r hi h
  obtain ⟨rfl, hrepeat⟩ := ask_read hi h
  exact ⟨rfl, _, hrepeat r, rfl⟩

/-! ### Sequences of reads -/

/-- A sequence of reads answers what each read alone answers, and only hands the responses over. -/
theorem askAll_reads {α : Type} (f : α → Instr) (ans : α → Response) (l : List α) {s : State}
    (h : ∀ a ∈ l, IsRead (f a) ∧ ask (f a) s = some (ans a, s.deliver (ans a))) :
    askAll (l.map f) s = some (l.map ans, (l.map ans).foldl State.deliver s) := by
  induction l generalizing s with
  | nil => rfl
  | cons a l ih =>
    obtain ⟨⟨_, ha⟩, hl⟩ := List.forall_mem_cons.1 h
    have hrest := ih (s := s.deliver (ans a)) fun b hb =>
      have ⟨hread, hask⟩ := hl b hb
      ⟨hread, (ask_read hread hask).2 _⟩
    simp [askAll, ha, hrest]

theorem foldl_deliver_cfg (rs : List Response) (s : State) : (rs.foldl State.deliver s).cfg = s.cfg := by
  induction rs generalizing s with
  | nil => rfl
  | cons r rs ih => exact ih (s.deliver r)

/-! ### The snapshot -/

/-- GETW of a word of the Row cannot fail under the invariant (R76). -/
theorem ask_getw_of_lt {s : State} (h : s.CoreInv) {k : Nat} (hk : k < s.wordCount) :
    ask (.getw k) s = some ({ status := .ok, val := s.memRead k }, s.deliver { status := .ok, val := s.memRead k }) :=
  ask_of_respond (exec_getw_of_lt hk (hk.trans_le h.wordCount_le))

/-- The expansion of SNAPSHOT, by the answers to its commands (R66). -/
theorem snapshot_of_answers {s s' t : State} {r : Response} {rs : List Response} (hlen : ask .len s = some (r, s'))
    (hwords : askAll ((List.range (ceilDiv r.val s.cfg.w)).map .getw) s' = some (rs, t)) :
    snapshot s = some ({ length := r.val, words := rs.map Response.val }, t) := by
  simp [snapshot, hlen, hwords]

/-- SNAPSHOT answers the Row (R66): each of its GETWs asks for a word that exists. -/
theorem snapshot_answers {s : State} (h : s.CoreInv) : ∃ s', snapshot s = some (s.row, s') ∧ s'.cfg = s.cfg := by
  have hlen := ask_of_respond (i := .len) (s := s) rfl
  have hgetws := askAll_reads .getw _ (List.range s.wordCount)
    (s := s.deliver { status := .ok, val := s.length }) fun k hk =>
      have hread : IsRead (.getw k) := .inl ⟨k, rfl⟩
      ⟨hread, (ask_read hread (ask_getw_of_lt h (List.mem_range.1 hk))).2 _⟩
  have hsnap := snapshot_of_answers hlen hgetws
  rw [List.map_map] at hsnap
  exact ⟨_, hsnap, foldl_deliver_cfg _ _⟩

/-- A Row that a block of configuration `c` can hold (R13 to R15). -/
structure Row.Fits (c : Config) (r : Row) : Prop where
  count : r.words.length = wordsFor c.w r.length
  length_le : r.length ≤ c.capBits
  words_lt : ∀ v ∈ r.words, v < 2 ^ c.w

theorem State.CoreInv.row_fits {s : State} (h : s.CoreInv) : s.row.Fits s.cfg where
  count := row_words_length s
  length_le := h.length_le
  words_lt := by
    intro v hv
    obtain ⟨k, _, rfl⟩ := List.mem_map.1 hv
    exact h.memRead_lt k

/-- The Row is a given one where its length and its words are. -/
theorem row_eq_of_getD {s : State} {r : Row} (hlen : s.length = r.length) (hcount : s.wordCount = r.words.length)
    (hwords : ∀ k, k < r.words.length → s.memRead k = r.words.getD k 0) : s.row = r := by
  have hmap : (List.range s.wordCount).map s.memRead = r.words := by
    refine List.ext_getElem (by simpa using hcount) fun k _ hk => ?_
    rw [List.getElem_map, List.getElem_range, hwords k hk, List.getD_eq_getElem _ _ hk]
  unfold State.row
  rw [hlen, hmap]

/-- The CONSTRUCT of a Row that the block can hold succeeds and installs it, padding included (R68, R70). -/
theorem exec_replay {s : State} (hw : 0 < s.cfg.w) {r : Row} (hr : r.Fits s.cfg) :
    ∃ t, exec (replay r) s = .next t ∧ t.rsp = some { status := .ok, val := 0 } ∧ t.row = r := by
  obtain ⟨hcount, hcap, hlt⟩ := hr
  have hok : constructStatus s.cfg r.words.length r.length = .ok :=
    (constructStatus_ok_iff _ _ _).2 ⟨(wordsFor_le_iff hw _ _).1 hcount.ge, wordsFor_le_maxWords hw hcap⟩
  rcases execConstruct_cases r.words.length r.length r.words s with ⟨_, e⟩ | ⟨hfail, _⟩
  · obtain ⟨hcfg, _⟩ := exec_keeps (replay r) s _ e
    refine ⟨_, e, rfl, row_eq_of_getD rfl ?_ fun k hk => ?_⟩
    · rw [State.wordCount, hcfg]
      exact hcount.symm
    · rw [memRead_respond, memRead_construct s hw _ _ hok k (hcount ▸ hk), List.getD_eq_getElem _ _ hk]
      exact Nat.mod_eq_of_lt (hlt _ (List.getElem_mem hk))
  · exact absurd hok hfail

/-- Settles O55: the snapshot is the Row, which the block can hold. -/
theorem snapshotRoundTrip : Obligations.SnapshotRoundTrip := by
  unfold Obligations.SnapshotRoundTrip
  intro s hs
  have hc := ((inv_iff s).1 hs).1
  obtain ⟨s1, hsnap, hcfg⟩ := snapshot_answers hc
  obtain ⟨t, he, hrsp, hrow⟩ := exec_replay (s := s1) (hcfg ▸ hc.w_pos) (hcfg ▸ hc.row_fits)
  exact ⟨s.row, s1, t, hsnap, rfl, he, hrsp, hrow⟩

end Sys2Proof.Machine

/-! ## O46: a sequence of commands -/

namespace Sys2Proof

/-- Decoding the beats of a well-formed command gives the command back, with the beats after it (R50 to R57, R59). -/
theorem decode_encode_append {c : Config} {i : Instr} (hi : WellFormed c i = true) (rest : List Beat) :
    decode c (encode c i ++ rest) = .ok (i, rest) := by
  cases i with
  | construct n len p =>
    simp only [WellFormed, fits, Bool.and_eq_true, decide_eq_true_eq, List.all_eq_true] at hi
    obtain ⟨⟨⟨hn, hlen⟩, rfl⟩, hp⟩ := hi
    have hop := opLane_header c 0x1 p.length len (by decide)
    have ha := aLane_header c 0x1 p.length len (by decide) hn
    have hb := bLane_header c 0x1 p.length len (by decide) hn hlen
    have hwords : (p.map (payloadBeat c)).map (wLane c) = p := by
      rw [List.map_map]
      exact (List.map_congr_left fun v hv => wLane_payload c v (hp v hv)).trans (List.map_id p)
    simp [encode, decode, hop, ha, hb, hwords]
  | next rule gens =>
    simp only [WellFormed, fits, Bool.and_eq_true, decide_eq_true_eq] at hi
    obtain ⟨hrule, hgens⟩ := hi
    simp [encode, decode, opLane_header, aLane_header, bLane_header, hrule, hgens]
  | getw idx =>
    simp only [WellFormed, fits, decide_eq_true_eq] at hi
    simp [encode, decode, opLane_header, aLane_header, hi]
  | getb j =>
    simp only [WellFormed, fits, decide_eq_true_eq] at hi
    simp [encode, decode, opLane_header, aLane_header, hi]
  | _ => simp [encode, decode, opLane_header]

end Sys2Proof

namespace Sys2Proof.Machine

section

variable {s t : State}

theorem runSteps_succ_of_step (h : step s = .next t) (n : Nat) : runSteps (n + 1) s = runSteps n t := by
  simp [runSteps, h]

/-- An idle block runs the command its presented beats begin with (R46). -/
theorem step_of_decode {i : Instr} {rest : List Beat} (hl : s.cfg.legal = true) (hrst : s.rst = false)
    (hrsp : s.rsp = none) (hbusy : s.busy = false) (hd : decode s.cfg s.cmdIn = .ok (i, rest)) :
    step s = exec i (s.takeBeats rest) := by
  simp [step, fetchAndRun, hl, hrst, hrsp, hbusy, hd]

/-- A waiting response is handed over to a host that takes it (R46). -/
theorem step_of_rsp {r : Response} (hl : s.cfg.legal = true) (hrst : s.rst = false) (hrsp : s.rsp = some r)
    (hready : s.rspReady = true) : step s = .next (s.deliver r) := by
  simp [step, hl, hrst, hrsp, hready]

theorem State.Idle.takeBeats_nil (h : s.Idle) : s.takeBeats [] = s := by
  obtain ⟨_, _, _, _, hcmd⟩ := h
  rw [← hcmd]
  rfl

theorem State.Idle.present_eq (h : s.Idle) (beats : List Beat) : s.present beats = s.takeBeats beats := by
  obtain ⟨_, _, _, _, hcmd⟩ := h
  simp [State.present, State.takeBeats, hcmd]

/-- Under the core of the invariant every command is answered: none faults and none is refused. -/
theorem exec_answered (h : s.CoreInv) (i : Instr) : ∃ t r, exec i s = .next t ∧ t.busy = true ∧ t.rsp = some r := by
  cases he : exec i s with
  | next t =>
    obtain ⟨hbusy, r, hr⟩ := exec_answers i s t he
    exact ⟨t, r, rfl, hbusy, hr⟩
  | fault f => exact absurd he (exec_not_fault h i f)
  | refused r => exact absurd he (exec_not_refused i s r)

/-- What a host finds of one command: it is answered, and the block is idle again, sound, and one response on. -/
theorem ask_idle (h : s.Inv) (hidle : s.Idle) {i : Instr} (hi : WellFormed s.cfg i = true) :
    ∃ t r, exec i s = .next t ∧ t.rsp = some r ∧ (t.deliver r).Inv ∧ (t.deliver r).Idle ∧ t.cfg = s.cfg ∧
      t.delivered = s.delivered := by
  obtain ⟨hrst, hready, hbusy, _, hcmd⟩ := hidle
  obtain ⟨t, r, he, _, hr⟩ := exec_answered ((inv_iff s).1 h).1 i
  obtain ⟨hcfg, hrst', hready', hcmd', hdel⟩ := exec_keeps i s t he
  have hinv : t.Inv := exec_keeps_inv ((inv_iff s).1 h).1 (h.quiet (.inl hbusy)) hi he
  exact ⟨t, r, he, hr, deliver_inv hinv hr,
    ⟨hrst'.trans hrst, hready'.trans hready, rfl, rfl, hcmd'.trans hcmd⟩, hcfg, hdel⟩

/-- Two steps run one command of a stream: one takes its beats and executes it, one hands its response over, and the beats
after it stay presented (R40, R46). -/
theorem runSteps_command {i : Instr} {r : Response} (hl : s.cfg.legal = true) (hidle : s.Idle)
    (hi : WellFormed s.cfg i = true) (he : exec i s = .next t) (hr : t.rsp = some r) (rest : List Beat) (n : Nat) :
    runSteps (n + 2) (s.takeBeats (encode s.cfg i ++ rest)) = runSteps n ((t.deliver r).takeBeats rest) := by
  obtain ⟨hrst, hready, hbusy, hrsp, _⟩ := hidle
  obtain ⟨hcfg, hrst', hready', _⟩ := exec_keeps i s t he
  have hrun : step (s.takeBeats (encode s.cfg i ++ rest)) = .next (t.takeBeats rest) := by
    rw [step_of_decode (s := s.takeBeats (encode s.cfg i ++ rest)) hl hrst hrsp hbusy (decode_encode_append hi rest)]
    show exec i (s.takeBeats rest) = .next (t.takeBeats rest)
    rw [exec_takeBeats, he]
    rfl
  have hhand : step (t.takeBeats rest) = .next ((t.deliver r).takeBeats rest) :=
    step_of_rsp (s := t.takeBeats rest) (hcfg ▸ hl) (hrst'.trans hrst) hr (hready'.trans hready)
  rw [runSteps_succ_of_step hrun, runSteps_succ_of_step hhand]

end

/-- Settles O46, by induction on the commands: `runSteps_command` for the first, from the idle state `ask_idle` says it
leaves. -/
theorem commandsRunInOrder : Obligations.CommandsRunInOrder := by
  unfold Obligations.CommandsRunInOrder
  intro prog s h hidle hprog
  rw [hidle.present_eq]
  induction prog generalizing s with
  | nil => exact ⟨[], s, rfl, rfl, congrArg Host.Outcome.next hidle.takeBeats_nil, (List.append_nil _).symm, hidle⟩
  | cons i is ih =>
    obtain ⟨hi, his⟩ := List.forall_mem_cons.1 hprog
    obtain ⟨t, r, he, hr, hinv, hidle', hcfg, hdel⟩ := ask_idle h hidle hi
    obtain ⟨rs, u, hask, hlen, hrun, hresp, hend⟩ := ih (t.deliver r) hinv hidle' (hcfg ▸ his)
    refine ⟨r :: rs, u, ?_, congrArg (· + 1) hlen, ?_, ?_, hend⟩
    · simp [askAll, ask_eq_some he hr, hask]
    · rw [List.flatMap_cons, ← hrun]
      rw [deliver_cfg, hcfg]
      exact runSteps_command h.legal hidle hi he hr _ _
    · rw [hresp, deliver_delivered, hdel, List.append_assoc, List.singleton_append]

end Sys2Proof.Machine

/-! ## O1 to O4, O5, O20: the decoder and the encoder -/

namespace Sys2Proof

/-! ### The decoder, opcode by opcode -/

/-- The reserved command of an opcode (R57). -/
def reservedOf : Nat → Instr
  | 0x0 => .reserved0
  | 0x6 => .reserved6
  | 0x7 => .reserved7
  | 0x8 => .reserved8
  | 0x9 => .reserved9
  | 0xA => .reservedA
  | 0xB => .reservedB
  | 0xC => .reservedC
  | 0xD => .reservedD
  | 0xE => .reservedE
  | _ => .reservedF

/-- No two reserved commands share an opcode. -/
theorem reservedOf_opcode {i : Instr} (hi : i.isReserved = true) : reservedOf i.opcode = i := by
  cases i with
  | construct | next | getw | getb | len => cases hi
  | _ => rfl

section

variable {c : Config} {h : Beat} {rest : List Beat}

theorem decode_next (hop : opLane h = 0x2) : decode c (h :: rest) = .ok (.next (aLane c h) (bLane c h), rest) := by
  simp [decode, hop]

theorem decode_getw (hop : opLane h = 0x3) : decode c (h :: rest) = .ok (.getw (aLane c h), rest) := by
  simp [decode, hop]

theorem decode_getb (hop : opLane h = 0x4) : decode c (h :: rest) = .ok (.getb (aLane c h), rest) := by
  simp [decode, hop]

theorem decode_len (hop : opLane h = 0x5) : decode c (h :: rest) = .ok (.len, rest) := by
  simp [decode, hop]

/-- A header with a reserved opcode is a whole command, whatever its other lanes hold (R57): no command of another kind
has its opcode. -/
theorem decode_reserved (hop : opLane h = 0x0 ∨ 0x6 ≤ opLane h) :
    (reservedOf (opLane h)).isReserved = true ∧ decode c (h :: rest) = .ok (reservedOf (opLane h), rest) := by
  rcases decode_cases c (h :: rest) with ⟨hnil, _⟩ | ⟨_, _, hbeats, h1, _⟩ | ⟨_, _, i, hbeats, _, hdec, hi, hform⟩
  · cases hnil
  · cases hbeats; omega
  · cases hbeats
    rcases hform with rfl | rfl | rfl | rfl | hres
    · change 0x2 = _ at hi; omega
    · change 0x3 = _ at hi; omega
    · change 0x4 = _ at hi; omega
    · change 0x5 = _ at hi; omega
    · rw [← hi, reservedOf_opcode hres]
      exact ⟨hres, hdec⟩

/-! ### The length of a command -/

theorem lenBeats_construct (hop : opLane h = 0x1) : lenBeats c h = 1 + aLane c h := if_pos hop

theorem lenBeats_of_ne (hop : opLane h ≠ 0x1) : lenBeats c h = 1 := if_neg hop

/-- Decoding consumes exactly the beats the header asks for, or finds them outstanding (R59). -/
theorem decode_cons (c : Config) (h : Beat) (rest : List Beat) :
    (lenBeats c h ≤ 1 + rest.length ∧
      ∃ i, decode c (h :: rest) = .ok (i, rest.drop (lenBeats c h - 1)) ∧ i.opcode = opLane h) ∨
    (1 + rest.length < lenBeats c h ∧
      decode c (h :: rest) = .error (.payloadOutstanding (aLane c h) (bLane c h))) := by
  rcases decode_cases c (h :: rest) with ⟨hnil, _⟩ | ⟨_, _, hbeats, h1, hdec⟩ | ⟨_, _, i, hbeats, h1, hdec, hi, _⟩
  · cases hnil
  · cases hbeats
    rw [lenBeats_construct h1, Nat.add_sub_cancel_left]
    rcases hdec with ⟨hshort, e⟩ | ⟨henough, e⟩
    · exact .inr ⟨Nat.add_lt_add_left hshort 1, e⟩
    · exact .inl ⟨Nat.add_le_add_left henough 1, _, e, h1.symm⟩
  · cases hbeats
    rw [lenBeats_of_ne h1]
    exact .inl ⟨Nat.le_add_right 1 _, i, hdec, hi⟩

end

/-- Settles O1: it is `decode_encode_append`. -/
theorem decodeOfEncodeIsTheCommand : Obligations.DecodeOfEncodeIsTheCommand := by
  unfold Obligations.DecodeOfEncodeIsTheCommand
  exact fun _ _ rest hi => decode_encode_append hi rest

/-- Settles O3: `decode_cons` says what is consumed; its two cases exclude each other. -/
theorem headerAloneTellsTheLength : Obligations.HeaderAloneTellsTheLength := by
  unfold Obligations.HeaderAloneTellsTheLength
  intro c h rest
  refine ⟨lenBeats_construct, lenBeats_of_ne, Nat.le_sub_one_of_lt (aLane_lt c h), fun henough => ?_, fun hshort => ?_⟩
  · rcases decode_cons c h rest with ⟨_, hdec⟩ | ⟨hshort, _⟩
    · exact hdec
    · omega
  · rcases decode_cons c h rest with ⟨henough, _⟩ | ⟨_, hdec⟩
    · omega
    · exact hdec

/-! ### Ignored lanes -/

/-- A CONSTRUCT is decoded from the lanes `a` and `b` of its header and the lanes `w` of the beats after it (R50). -/
theorem decode_construct_fst {c : Config} {h : Beat} (rest : List Beat) (hop : opLane h = 0x1) :
    (decode c (h :: rest)).map Prod.fst =
      if (rest.map (wLane c)).length < aLane c h then .error (.payloadOutstanding (aLane c h) (bLane c h))
      else .ok (.construct (aLane c h) (bLane c h) ((rest.map (wLane c)).take (aLane c h))) := by
  by_cases hshort : rest.length < aLane c h
  · simp [decode, hop, hshort, Except.map]
  · simp [decode, hop, hshort, Except.map, List.map_take]

/-- Settles O4, opcode by opcode: what is decoded names only the lanes the command uses. -/
theorem ignoredLanesDoNotMatter : Obligations.IgnoredLanesDoNotMatter := by
  unfold Obligations.IgnoredLanesDoNotMatter
  intro c h h' rest rest' hop ha hb hw
  by_cases h1 : opLane h = 0x1
  · rw [decode_construct_fst rest h1, decode_construct_fst rest' (hop ▸ h1), ha (by omega), hb (by omega), hw]
  by_cases h2 : opLane h = 0x2
  · rw [decode_next h2, decode_next (hop ▸ h2), ha (by omega), hb (by omega)]; rfl
  by_cases h3 : opLane h = 0x3
  · rw [decode_getw h3, decode_getw (hop ▸ h3), ha (by omega)]; rfl
  by_cases h4 : opLane h = 0x4
  · rw [decode_getb h4, decode_getb (hop ▸ h4), ha (by omega)]; rfl
  by_cases h5 : opLane h = 0x5
  · rw [decode_len h5, decode_len (hop ▸ h5)]; rfl
  have hres : opLane h = 0x0 ∨ 0x6 ≤ opLane h := by omega
  rw [(decode_reserved hres).2, (decode_reserved (hop ▸ hres)).2, hop]; rfl

/-! ### The width of the beats -/

/-- A header beat fits the lanes below `w` (R47). -/
theorem headerBeat_lt {c : Config} {op a b : Nat} (hop : op < 16) (ha : a < 2 ^ c.aw) (hb : b < 2 ^ c.aw) :
    headerBeat c op a b < 2 ^ c.bw := by
  have hwidth : 4 + 2 * c.aw ≤ c.bw := Nat.le_add_right _ _
  refine Nat.lt_pow_two_of_testBit _ fun j hj => ?_
  have hop' : op.testBit j = false := testBit_eq_false_of_lt (n := 4) hop (by omega)
  have ha' : a.testBit (j - 4) = false := testBit_eq_false_of_lt ha (by omega)
  have hb' : b.testBit (j - (c.aw + 4)) = false := testBit_eq_false_of_lt hb (by omega)
  simp [header_testBit, hop', ha', hb']

/-- A payload beat fills at most the lane `w` (R47). -/
theorem payloadBeat_lt {c : Config} {v : Word} (hv : v < 2 ^ c.w) : payloadBeat c v < 2 ^ c.bw := by
  have hwidth : c.bw = c.w + (2 * c.aw + 4) := by unfold Config.bw; omega
  rw [payloadBeat, Nat.shiftLeft_eq, hwidth, Nat.pow_add 2 c.w]
  exact Nat.mul_lt_mul_of_pos_right hv (Nat.two_pow_pos _)

/-- Every beat of a well-formed command fits the channel (R47). -/
theorem encode_lt {c : Config} {i : Instr} (hi : WellFormed c i = true) : ∀ d ∈ encode c i, d < 2 ^ c.bw := by
  have hzero : 0 < 2 ^ c.aw := Nat.two_pow_pos _
  cases i with
  | construct n len p =>
    simp only [WellFormed, fits, Bool.and_eq_true, decide_eq_true_eq, List.all_eq_true] at hi
    obtain ⟨⟨⟨hn, hlen⟩, _⟩, hp⟩ := hi
    refine List.forall_mem_cons.2 ⟨headerBeat_lt (by decide) hn hlen, List.forall_mem_map.2 fun v hv => ?_⟩
    exact payloadBeat_lt (hp v hv)
  | next rule gens =>
    simp only [WellFormed, fits, Bool.and_eq_true, decide_eq_true_eq] at hi
    exact List.forall_mem_singleton.2 (headerBeat_lt (by decide) hi.1 hi.2)
  | getw idx => exact List.forall_mem_singleton.2 (headerBeat_lt (by decide) (of_decide_eq_true hi) hzero)
  | getb j => exact List.forall_mem_singleton.2 (headerBeat_lt (by decide) (of_decide_eq_true hi) hzero)
  | _ => exact List.forall_mem_singleton.2 (headerBeat_lt (by decide) hzero hzero)

/-- A command whose beats decode with nothing left over has as many beats as its header asks for, and its header's
opcode (R59). -/
theorem length_eq_lenBeats_of_decode {c : Config} {beats : List Beat} {i : Instr}
    (hdec : decode c beats = .ok (i, [])) :
    beats.length = lenBeats c (beats.headD 0) ∧ opLane (beats.headD 0) = i.opcode := by
  cases beats with
  | nil => cases hdec
  | cons h rest =>
    rcases decode_cons c h rest with ⟨henough, j, e, hj⟩ | ⟨_, e⟩
    · rw [e, Except.ok.injEq, Prod.mk.injEq, List.drop_eq_nil_iff] at hdec
      obtain ⟨rfl, hall⟩ := hdec
      have hpos : 1 ≤ lenBeats c h := by unfold lenBeats; split <;> omega
      exact ⟨by simp only [List.length_cons, List.headD_cons]; omega, hj.symm⟩
    · rw [e] at hdec; cases hdec

/-- Settles O2: the count and the opcode are what decoding the beats shows. -/
theorem encodedBeatsFitTheChannel : Obligations.EncodedBeatsFitTheChannel := by
  unfold Obligations.EncodedBeatsFitTheChannel
  intro c i hi
  have hdec : decode c (encode c i) = .ok (i, []) := by simpa using decode_encode_append hi []
  exact ⟨encode_lt hi, length_eq_lenBeats_of_decode hdec⟩

/-- Settles O5, by evaluating the decoder and the encoder on the words. -/
theorem vectorWordsDecode : Obligations.VectorWordsDecode := by
  unfold Obligations.VectorWordsDecode
  refine ⟨?_, ?_, ?_, ?_, ?_, ?_, ?_⟩ <;> decide

end Sys2Proof

namespace Sys2Proof.Machine

/-- Settles O20: every reserved command means the same, and every reserved header decodes to one. -/
theorem reservedOpcodesFail : Obligations.ReservedOpcodesFail := by
  unfold Obligations.ReservedOpcodesFail
  exact ⟨rfl, exec_reserved, fun _ _ _ hop => ⟨_, decode_reserved hop⟩⟩

end Sys2Proof.Machine

/-! ## O7, O33, O40, O42, O54: the response, and short facts of the step -/

namespace Sys2Proof.Machine

/-! ### The response beat -/

theorem Status.code_lt (e : Status) : e.code < 8 := by cases e <;> decide

/-- The lanes of a response beat do not overlap (R60). -/
theorem Response.beat_eq (r : Response) : r.beat = 8 * r.val + r.status.code := by
  have hcode : r.status.code < 2 ^ 3 := r.status.code_lt
  rw [Response.beat, Nat.or_comm, ← Nat.shiftLeft_add_eq_or_of_lt hcode, Nat.shiftLeft_eq, Nat.mul_comm]

/-- Settles O7: division by 8 separates the two lanes. -/
theorem responseBeatHoldsStatusAndValue : Obligations.ResponseBeatHoldsStatusAndValue := by
  unfold Obligations.ResponseBeatHoldsStatusAndValue
  refine ⟨rfl, rfl, rfl, rfl, rfl, rfl, fun c r hval => ?_⟩
  have hcode := r.status.code_lt
  have hwidth : 2 ^ c.rw = 8 * 2 ^ c.vw := Nat.pow_add 2 3 c.vw
  rw [Nat.shiftRight_eq_div_pow, r.beat_eq, hwidth]
  omega

/-! ### Operands that stand for negative numbers -/

/-- A NEXT that fails a check answers the error and leaves the Row (R97, R128). -/
theorem exec_next_of_error {s : State} {rule gens : Nat} {e : Status} (he : e ≠ .ok)
    (hstatus : nextStatus s.cfg s.length rule gens = e) :
    ∃ t, exec (.next rule gens) s = .next t ∧ t.rsp = some { status := e, val := 0 } ∧ t.row = s.row := by
  subst hstatus
  rcases execNext_cases rule gens s with ⟨hok, _⟩ | ⟨_, hrun⟩
  · exact absurd hok he
  · exact ⟨_, hrun, rfl, row_raise _ _⟩

/-- Settles O33: such an operand is above 255, and twice it is above the capacity (R6 to R8). -/
theorem negativeImagesFail : Obligations.NegativeImagesFail := by
  unfold Obligations.NegativeImagesFail
  intro x y s hlegal hx
  obtain ⟨_, _, haw, hcap⟩ := (Config.legal_iff s.cfg).1 hlegal
  have hrule : 255 < x := by
    have hbyte : 2 ^ 8 ≤ 2 ^ (s.cfg.aw - 1) := Nat.pow_le_pow_right (by decide) (by omega)
    omega
  have hgens : s.cfg.capBits < 2 * x := by
    have hhalf : 2 ^ (s.cfg.aw - 1) * 2 = 2 ^ s.cfg.aw := Nat.pow_pred_mul (by omega)
    omega
  refine ⟨exec_next_of_error (by decide) (if_pos hrule), fun hy => exec_next_of_error (by decide) ?_⟩
  rw [nextStatus, if_neg (Nat.not_lt.2 hy), if_pos (by omega)]

/-! ### The step -/

/-- Settles O40: it is `step_of_decode`. -/
theorem stepRunsTheDecodedCommand : Obligations.StepRunsTheDecodedCommand := by
  unfold Obligations.StepRunsTheDecodedCommand
  exact fun _ _ _ hl hrst hrsp hbusy hd => step_of_decode hl hrst hrsp hbusy hd

/-- A response that the host does not take waits (R46, R154). -/
theorem step_of_rsp_waiting {s : State} {r : Response} (hl : s.cfg.legal = true) (hrst : s.rst = false)
    (hrsp : s.rsp = some r) (hready : s.rspReady = false) : step s = .next s := by
  simp [step, hl, hrst, hrsp, hready]

/-- Settles O42: the outputs are functions of the waiting response, and the step looks at `rsp_ready` alone. -/
theorem responseIsHeldUntilTaken : Obligations.ResponseIsHeldUntilTaken := by
  unfold Obligations.ResponseIsHeldUntilTaken
  intro s r hl hrst hrsp
  refine ⟨?_, ?_, ?_, step_of_rsp_waiting hl hrst hrsp, step_of_rsp hl hrst hrsp⟩
  · simp [State.cmdReady, hrsp]
  · simp [State.rspValid, hrsp]
  · simp [State.rspData, hrsp]

/-- Settles O54: STEP is a name for a NEXT, and the host's division of LEN's answer is the word count. -/
theorem pseudoOperationsExpand : Obligations.PseudoOperationsExpand := by
  unfold Obligations.PseudoOperationsExpand
  refine ⟨fun _ _ => rfl, fun s => ?_⟩
  have hlen := ask_of_respond (i := .len) (s := s) rfl
  refine ⟨s.deliver { status := .ok, val := s.length }, ?_, row_deliver _ _⟩
  rw [wordCountPseudo, hlen]
  rfl

end Sys2Proof.Machine

/-! ## O43, O45: a CONSTRUCT whose beats come one at a time -/

namespace Sys2Proof.Machine

/-- Payload words do not change the Row: they are written to the back bank (R19, R73). -/
theorem row_acceptPayload (s : State) (v : Word) : (s.acceptPayload v).row = s.row := by
  by_cases h : s.keep = true ∧ s.nQ - s.payloadLeft < wordsFor s.cfg.w s.lenQ
  · rw [acceptPayload_kept s v h, row_countPayload, row_memWrite]
  · rw [acceptPayload_dropped s v h, row_countPayload]

/-- A block that is in the middle of a CONSTRUCT, out of reset (R26, R48). -/
structure State.Receiving (s : State) : Prop where
  legal : s.cfg.legal = true
  rst : s.rst = false
  rsp : s.rsp = none
  busy : s.busy = true
  awaits : 0 < s.payloadLeft

/-- The block after a run of payload words: the CONSTRUCT is closed once the last awaited word is among them (R73). -/
def State.takePayload (s : State) (p : List Word) : State :=
  if s.payloadLeft ≤ p.length then (p.foldl State.acceptPayload s).closeConstruct else p.foldl State.acceptPayload s

theorem takePayload_of_lt {s : State} {p : List Word} (h : p.length < s.payloadLeft) :
    s.takePayload p = p.foldl State.acceptPayload s := if_neg (Nat.not_le.2 h)

theorem takePayload_of_eq {s : State} {p : List Word} (h : p.length = s.payloadLeft) :
    s.takePayload p = (p.foldl State.acceptPayload s).closeConstruct := if_pos h.ge

section

variable {s : State}

theorem takePayload_nil (h : 0 < s.payloadLeft) : s.takePayload [] = s := takePayload_of_lt (p := []) h

/-- The last word awaited closes the CONSTRUCT (R68). -/
theorem takePayload_last (h : s.payloadLeft = 1) (v : Word) :
    s.takePayload [v] = (s.acceptPayload v).closeConstruct := takePayload_of_eq (p := [v]) h.symm

/-- A word that is not the last is only accepted (R73). -/
theorem takePayload_not_last (h : 1 < s.payloadLeft) (v : Word) : s.takePayload [v] = s.acceptPayload v :=
  takePayload_of_lt (p := [v]) h

theorem takePayload_cons {v : Word} {p : List Word} (h : 1 < s.payloadLeft) :
    s.takePayload (v :: p) = (s.acceptPayload v).takePayload p := by
  have hleft : (s.acceptPayload v).payloadLeft = s.payloadLeft - 1 := by rw [acceptPayload_eq]
  have hcount : s.payloadLeft ≤ p.length + 1 ↔ s.payloadLeft - 1 ≤ p.length := by omega
  simp only [State.takePayload, hleft, List.length_cons, hcount, List.foldl_cons]

theorem takePayload_singleton_payloadLeft (v : Word) : (s.takePayload [v]).payloadLeft = s.payloadLeft - 1 := by
  unfold State.takePayload
  split
  · rw [closeConstruct_payloadLeft, foldl_acceptPayload_eq]; rfl
  · rw [foldl_acceptPayload_eq]; rfl

/-- After a run of payload words that is not the last, the rest is still awaited. -/
theorem State.Receiving.foldl_acceptPayload (h : s.Receiving) {p : List Word} (hlt : p.length < s.payloadLeft) :
    (p.foldl State.acceptPayload s).Receiving := by
  obtain ⟨hl, hrst, hrsp, hbusy, _⟩ := h
  rw [foldl_acceptPayload_eq]
  exact ⟨hl, hrst, hrsp, hbusy, Nat.sub_pos_of_lt hlt⟩

theorem State.Receiving.acceptPayload (h : s.Receiving) (hmore : 1 < s.payloadLeft) (v : Word) :
    (s.acceptPayload v).Receiving := h.foldl_acceptPayload (p := [v]) hmore

/-- While payload is awaited a step takes one beat, and of that beat the lane `w` alone (R48, R153). -/
theorem State.Receiving.step_beat (h : s.Receiving) (d : Beat) (rest : List Beat) :
    step (s.takeBeats (d :: rest)) = .next ((s.takePayload [wLane s.cfg d]).takeBeats rest) := by
  obtain ⟨hl, hrst, hrsp, hbusy, hawaits⟩ := h
  have hstep : step (s.takeBeats (d :: rest)) = .next (s.takeBeats (d :: rest)).receive := by
    simp [step, hl, hrst, hrsp, hbusy]
  rw [hstep]
  rcases receive_cases (s.takeBeats (d :: rest)) with
    ⟨h0, _⟩ | ⟨_, hnone, _⟩ | ⟨_, _, _, hcmd, h1, e⟩ | ⟨_, _, _, hcmd, h1, e⟩
  · exact absurd h0 hawaits.ne'
  · cases hnone
  · cases hcmd
    change s.payloadLeft = 1 at h1
    rw [e, takePayload_last h1]
    exact congrArg _ ((congrArg _ (acceptPayload_takeBeats s _ rest)).trans (closeConstruct_takeBeats _ rest))
  · cases hcmd
    change s.payloadLeft ≠ 1 at h1
    rw [e, takePayload_not_last (lt_of_le_of_ne hawaits h1.symm)]
    exact congrArg _ (acceptPayload_takeBeats s _ rest)

end

/-- Settles O43, from `State.Receiving.step_beat`: the word taken is the last one awaited, or it is not. -/
theorem payloadIsDataByPosition : Obligations.PayloadIsDataByPosition := by
  unfold Obligations.PayloadIsDataByPosition
  intro s d rest hl hrst hrsp hbusy hawaits hcmd
  have hs : s.Receiving := ⟨hl, hrst, hrsp, hbusy, hawaits⟩
  have hpresented : s = s.takeBeats (d :: rest) := by rw [← hcmd]; rfl
  refine ⟨(s.takePayload [wLane s.cfg d]).takeBeats rest, ?_, rfl, takePayload_singleton_payloadLeft _, ?_, ?_, ?_, ?_⟩
  · rw [← hs.step_beat, ← hpresented]
  · rcases eq_or_lt_of_le (show 1 ≤ s.payloadLeft from hawaits) with hlast | hmore
    · rw [takePayload_last hlast.symm]
      exact (closeConstruct_answers _).1
    · rw [takePayload_not_last hmore]
      exact (hs.acceptPayload hmore _).busy
  · intro hmore
    rw [takePayload_not_last hmore]
    exact ⟨(hs.acceptPayload hmore _).rsp, row_acceptPayload s _⟩
  · intro hlast
    rw [takePayload_last hlast]
    obtain ⟨r, hr⟩ := (closeConstruct_answers (s.acceptPayload (wLane s.cfg d))).2
    exact congrArg Option.isSome hr
  · intro d' hd'
    rw [← hd']
    exact hs.step_beat d' rest

/-! ### A CONSTRUCT in two pieces -/

section

variable {s : State}

/-- Steps that take payload, a beat each, are a run of payload words (R48, R73). -/
theorem State.Receiving.runSteps_payload (h : s.Receiving) {p : List Word} (hp : ∀ v ∈ p, v < 2 ^ s.cfg.w)
    (hle : p.length ≤ s.payloadLeft) :
    runSteps p.length (s.takeBeats (p.map (payloadBeat s.cfg))) = .next ((s.takePayload p).takeBeats []) := by
  induction p generalizing s with
  | nil => rw [takePayload_nil h.awaits]; rfl
  | cons v p ih =>
    obtain ⟨hv, hp⟩ := List.forall_mem_cons.1 hp
    have hstep := h.step_beat (payloadBeat s.cfg v) (p.map (payloadBeat s.cfg))
    rw [wLane_payload _ _ hv] at hstep
    rw [List.map_cons, List.length_cons, runSteps_succ_of_step hstep]
    rcases eq_or_lt_of_le (show 1 ≤ s.payloadLeft from h.awaits) with hlast | hmore
    · obtain rfl : p = [] := List.length_eq_zero_iff.1 (by simp only [List.length_cons] at hle; omega)
      rfl
    · have hcfg : (s.acceptPayload v).cfg = s.cfg := by rw [acceptPayload_eq]
      have hleft : (s.acceptPayload v).payloadLeft = s.payloadLeft - 1 := by rw [acceptPayload_eq]
      rw [takePayload_not_last hmore, takePayload_cons hmore, ← hcfg]
      exact ih (h.acceptPayload hmore v) (hcfg ▸ hp) (by rw [hleft]; simp only [List.length_cons] at hle; omega)

/-- The first payload words of a CONSTRUCT, where more are to come. -/
theorem State.Receiving.runSteps_take (h : s.Receiving) {p : List Word} (hp : ∀ v ∈ p, v < 2 ^ s.cfg.w) {m : Nat}
    (hm : m < p.length) (hleft : s.payloadLeft = p.length) :
    runSteps m (s.takeBeats ((p.take m).map (payloadBeat s.cfg))) =
      .next (((p.take m).foldl State.acceptPayload s).takeBeats []) := by
  have hlen : (p.take m).length = m := List.length_take_of_le hm.le
  have hlt : (p.take m).length < s.payloadLeft := by rwa [hlen, hleft]
  have hrun := h.runSteps_payload (fun v hv => hp v (List.mem_of_mem_take hv)) hlt.le
  rwa [takePayload_of_lt hlt, hlen] at hrun

/-- The other payload words, after which the CONSTRUCT has had its whole payload. -/
theorem State.Receiving.runSteps_drop (h : s.Receiving) {p : List Word} (hp : ∀ v ∈ p, v < 2 ^ s.cfg.w) {m : Nat}
    (hm : m < p.length) (hleft : s.payloadLeft = p.length) :
    runSteps (p.length - m)
        (((p.take m).foldl State.acceptPayload s).takeBeats ((p.drop m).map (payloadBeat s.cfg))) =
      .next ((p.foldl State.acceptPayload s).closeConstruct.takeBeats []) := by
  have htake : (p.take m).length = m := List.length_take_of_le hm.le
  have hcfg : ((p.take m).foldl State.acceptPayload s).cfg = s.cfg := by rw [foldl_acceptPayload_eq]
  have hrest : (p.drop m).length = ((p.take m).foldl State.acceptPayload s).payloadLeft := by
    rw [foldl_acceptPayload_eq, htake, hleft, List.length_drop]
  have hmid := h.foldl_acceptPayload (p := p.take m) (by rwa [htake, hleft])
  have hrun := hmid.runSteps_payload (fun v hv => hcfg ▸ hp v (List.mem_of_mem_drop hv)) hrest.le
  rwa [takePayload_of_eq hrest, List.length_drop, hcfg, ← List.foldl_append, List.take_append_drop] at hrun

/-- The header of a CONSTRUCT of which some payload is missing opens it (R26, R73). -/
theorem State.Idle.step_header (h : s.Idle) (hl : s.cfg.legal = true) {n len : Nat} (hn : n < 2 ^ s.cfg.aw)
    (hlen : len < 2 ^ s.cfg.aw) {rest : List Beat} (hshort : rest.length < n) :
    step (s.takeBeats (headerBeat s.cfg 0x1 n len :: rest)) = .next ((s.openConstruct n len).takeBeats rest) := by
  obtain ⟨hrst, _, hbusy, hrsp, _⟩ := h
  have hop := opLane_header s.cfg 0x1 n len (by decide)
  have ha := aLane_header s.cfg 0x1 n len (by decide) hn
  have hb := bLane_header s.cfg 0x1 n len (by decide) hn hlen
  have hdec : decode s.cfg (headerBeat s.cfg 0x1 n len :: rest) = .error (.payloadOutstanding n len) := by
    simp [decode, hop, ha, hb, hshort]
  simp only [step, fetchAndRun, takeBeats_cfg, takeBeats_rst, takeBeats_rsp, takeBeats_busy, takeBeats_cmdIn, hl, hrst,
    hrsp, hbusy, hdec]
  rfl

end

/-- Settles O45: the header opens the CONSTRUCT, and the two runs of payload words after it are the run of the whole
payload. -/
theorem piecewiseConstructIsTheWhole : Obligations.PiecewiseConstructIsTheWhole := by
  unfold Obligations.PiecewiseConstructIsTheWhole
  intro n len p s m hl hidle hwf hm
  simp only [WellFormed, fits, Bool.and_eq_true, decide_eq_true_eq, List.all_eq_true] at hwf
  obtain ⟨⟨⟨hn, hlen⟩, rfl⟩, hp⟩ := hwf
  have hopen : (s.openConstruct p.length len).Receiving := by
    obtain ⟨hrst, _, _, hrsp, _⟩ := hidle
    exact ⟨hl, hrst, hrsp, rfl, Nat.zero_lt_of_lt hm⟩
  have hheader := hidle.step_header hl hn hlen (rest := (p.take m).map (payloadBeat s.cfg)) (by simpa using hm)
  have hfirst : runSteps (m + 1) (s.present ((encode s.cfg (.construct p.length len p)).take (m + 1))) =
      .next (((p.take m).foldl State.acceptPayload (s.openConstruct p.length len)).takeBeats []) := by
    rw [hidle.present_eq, encode, List.take_succ_cons, ← List.map_take, runSteps_succ_of_step hheader]
    exact hopen.runSteps_take hp hm rfl
  refine ⟨_, (p.foldl State.acceptPayload (s.openConstruct p.length len)).closeConstruct.takeBeats [], hfirst, ?_, ?_⟩
  · rw [encode, List.drop_succ_cons, ← List.map_drop]
    exact hopen.runSteps_drop hp hm rfl
  · rw [← closeConstruct_takeBeats, ← foldl_acceptPayload_takeBeats]
    exact congrArg (exec _) hidle.takeBeats_nil.symm

end Sys2Proof.Machine

/-! ## O6, O60: the assembler -/

namespace Sys2Proof.Machine

/-! ### The scanner -/

/-- A word of letters and digits, as the scanner reads one whole (R62); `operand_isWord` says every operand is one. -/
def IsWord (v : List Char) : Prop := v ≠ [] ∧ ∀ c ∈ v, c.isAlphanum = true

section

variable {v cs letters : List Char} {ss : List Symbol}

theorem isWord_of_all (hne : v ≠ []) (hall : v.all Char.isAlphanum = true) : IsWord v :=
  ⟨hne, List.all_eq_true.1 hall⟩

theorem endWord_of_ne (hv : v ≠ []) (rest : List Symbol) : endWord v rest = .word v :: rest := if_neg hv

/-- After a word the scanner goes on with the word as the one being read. -/
theorem symbols_isWord (hv : IsWord v) : symbols (v ++ cs) [] = symbols cs v := symbols_word v cs [] hv.2

theorem symbols_word_end (hv : IsWord v) : symbols v [] = some [.word v] := by
  rw [← List.append_nil v, symbols_isWord hv, List.append_nil, symbols, endWord_of_ne hv.1]

theorem symbols_word_space (hv : IsWord v) (h : symbols cs [] = some ss) :
    symbols (v ++ ' ' :: cs) [] = some (.word v :: ss) := by
  simp [symbols_isWord hv, symbols, h, endWord_of_ne hv.1]

theorem symbols_word_comma (hv : IsWord v) (h : symbols cs [] = some ss) :
    symbols (v ++ ',' :: cs) [] = some (.word v :: .comma :: ss) := by
  simp [symbols_isWord hv, symbols, h, endWord_of_ne hv.1]

theorem symbols_word_rightBracket (hv : IsWord v) : symbols (v ++ [']']) [] = some [.word v, .rightBracket] := by
  simp [symbols_isWord hv, symbols, endWord, hv.1]

theorem symbols_leftBracket (h : symbols cs [] = some ss) : symbols ('[' :: cs) [] = some (.leftBracket :: ss) := by
  simp [symbols, h, endWord]

/-- The scanner reads a line only if it reads what follows each of its characters. -/
theorem symbols_tail {d : Char} (h : symbols (d :: cs) letters = some ss) : ∃ l r, symbols cs l = some r := by
  have hmap {l : List Char} {f : List Symbol → List Symbol} (h : (symbols cs l).map f = some ss) :
      ∃ l r, symbols cs l = some r := by
    obtain ⟨r, hr, _⟩ := Option.map_eq_some_iff.1 h
    exact ⟨l, r, hr⟩
  rw [symbols] at h
  split_ifs at h
  · exact hmap h
  · exact hmap h
  · exact hmap h
  · exact hmap h
  · exact ⟨_, _, h⟩

/-- A line the scanner reads holds no comment, since `;` is in no symbol. -/
theorem symbols_no_comment (h : symbols cs letters = some ss) : ∀ c ∈ cs, c ≠ ';' := by
  induction cs generalizing letters ss with
  | nil => nofun
  | cons d cs ih =>
    obtain ⟨_, _, htail⟩ := symbols_tail h
    refine List.forall_mem_cons.2 ⟨?_, ih htail⟩
    rintro rfl
    cases h

end

/-! ### What the assembler emits -/

section

variable {c : Config} {line m x y : List Char} {ss : List Symbol} {i : Instr} {is : List Instr} {a b : Nat}

theorem emitIfWellFormed_eq_some : emitIfWellFormed c i = some is ↔ WellFormed c i = true ∧ is = [i] := by
  unfold emitIfWellFormed
  split
  · simp [*, eq_comm]
  · simp [*]

/-- An accepted line is empty or holds one command that passed the checks (R62). -/
theorem assembleLine_eq_some (h : assembleLine c line = some is) : is = [] ∨ ∃ i, WellFormed c i = true ∧ is = [i] := by
  obtain ⟨ss, _, h⟩ := Option.bind_eq_some_iff.1 h
  split at h
  · exact .inl (Option.some.inj h).symm
  · obtain ⟨i, _, hi⟩ := Option.bind_eq_some_iff.1 h
    exact .inr ⟨i, emitIfWellFormed_eq_some.1 hi⟩

/-- A line that is read as the symbols of a command assembles to that command if it passes the checks (R62). -/
theorem assembleLine_of_symbols (hs : symbols line [] = some ss) (hi : commandOf ss = some i) :
    assembleLine c line = emitIfWellFormed c i := by
  have hne : ss ≠ [] := by rintro rfl; cases hi
  have hline : line.takeWhile (· ≠ ';') = line :=
    List.takeWhile_eq_self_iff.2 fun d hd => decide_eq_true (symbols_no_comment hs d hd)
  rw [assembleLine, hline, hs, Option.bind_some, if_neg hne, hi, Option.bind_some]

/-- The beats of a line whose command passes the checks. -/
theorem assembleBeats_of_wellFormed (h : assembleLine c line = emitIfWellFormed c i) (hi : WellFormed c i = true) :
    assembleBeats c line = some (encode c i) := by
  simp [assembleBeats, h, emitIfWellFormed, hi]

/-- A comment changes nothing (R62). -/
theorem assembleLine_comment (c : Config) (line comment : List Char) :
    assembleLine c (line ++ ';' :: comment) = assembleLine c line := by
  have hcut : (line ++ ';' :: comment).takeWhile (· ≠ ';') = line.takeWhile (· ≠ ';') := by
    induction line with
    | nil => simp
    | cons d line ih => by_cases hd : d = ';' <;> simp_all
  rw [assembleLine, assembleLine, hcut]

/-! ### The forms of R62 -/

/-- A mnemonic and one operand. -/
theorem assembleLine_operand (hm : IsWord m) (hx : operand x = some a)
    (hi : commandOf [.word m, .word x] = some i) : assembleLine c (m ++ ' ' :: x) = emitIfWellFormed c i :=
  assembleLine_of_symbols (symbols_word_space hm (symbols_word_end (operand_isWord hx))) hi

/-- NEXT and its two operands. -/
theorem assembleLine_next (hx : operand x = some a) (hy : operand y = some b) :
    assembleLine c (['N', 'E', 'X', 'T'] ++ ' ' :: (x ++ ',' :: y)) = emitIfWellFormed c (.next a b) := by
  have hm : IsWord ['N', 'E', 'X', 'T'] := isWord_of_all (by decide) (by decide)
  have hs := symbols_word_space hm (symbols_word_comma (operand_isWord hx) (symbols_word_end (operand_isWord hy)))
  exact assembleLine_of_symbols hs (by simp [commandOf, hx, hy])

end

/-! ### The payload bracket -/

/-- The symbols of a payload bracket after its opening. -/
def bracketSymbols : List (List Char) → List Symbol
  | [] => [.rightBracket]
  | [v] => [.word v, .rightBracket]
  | v :: u :: rest => .word v :: .comma :: bracketSymbols (u :: rest)

/-- Only the empty bracket closes at once. -/
theorem bracketSymbols_cons_ne (v : List Char) (words : List (List Char)) :
    bracketSymbols (v :: words) ≠ [.rightBracket] := by
  cases words <;> nofun

theorem symbols_joinComma {words : List (List Char)} (h : ∀ v ∈ words, IsWord v) :
    symbols (joinComma words ++ [']']) [] = some (bracketSymbols words) := by
  induction words with
  | nil => rfl
  | cons v words ih =>
    obtain ⟨hv, hwords⟩ := List.forall_mem_cons.1 h
    cases words with
    | nil => exact symbols_word_rightBracket hv
    | cons u rest =>
      rw [joinComma, List.append_assoc, List.cons_append]
      exact symbols_word_comma hv (ih hwords)

theorem payloadList_bracketSymbols {v : List Char} {words : List (List Char)} {p : List Word}
    (h : (v :: words).map operand = p.map some) : payloadList (bracketSymbols (v :: words)) = some p := by
  induction words generalizing v p with
  | nil =>
    obtain ⟨x, p, rfl, hx, hp⟩ := List.map_eq_cons_iff.1 h.symm
    obtain rfl : p = [] := List.map_eq_nil_iff.1 hp
    simp [bracketSymbols, payloadList, ← hx]
  | cons u words ih =>
    obtain ⟨x, p, rfl, hx, hp⟩ := List.map_eq_cons_iff.1 h.symm
    simp [bracketSymbols, payloadList, ← hx, ih hp.symm]

/-- The bracket is read as the words it writes, none of them for an empty one. -/
theorem bracket_payload {words : List (List Char)} {p : List Word} (h : words.map operand = p.map some) :
    (if bracketSymbols words = [.rightBracket] then some [] else payloadList (bracketSymbols words)) = some p := by
  cases words with
  | nil =>
    obtain rfl : p = [] := List.map_eq_nil_iff.1 h.symm
    rfl
  | cons v words => rw [if_neg (bracketSymbols_cons_ne v words), payloadList_bracketSymbols h]

/-- The words of a bracket are operands, in any spelling. -/
theorem isWord_of_map_operand {words : List (List Char)} {p : List Word} (h : words.map operand = p.map some) :
    ∀ v ∈ words, IsWord v := by
  intro v hv
  obtain ⟨x, _, hx⟩ := List.mem_map.1 (h ▸ List.mem_map_of_mem hv)
  exact operand_isWord hx.symm

/-- CONSTRUCT, its two operands and its payload bracket. -/
theorem assembleLine_construct {c : Config} {x y : List Char} {a b : Nat} (hx : operand x = some a)
    (hy : operand y = some b) {words : List (List Char)} {p : List Word} (h : words.map operand = p.map some) :
    assembleLine c (['C', 'O', 'N', 'S', 'T', 'R', 'U', 'C', 'T'] ++ ' ' :: (x ++ ',' :: (y ++ ',' :: '[' ::
      (joinComma words ++ [']'])))) = emitIfWellFormed c (.construct a b p) := by
  have hm : IsWord ['C', 'O', 'N', 'S', 'T', 'R', 'U', 'C', 'T'] := isWord_of_all (by decide) (by decide)
  have hbracket := symbols_leftBracket (symbols_joinComma (isWord_of_map_operand h))
  have hs := symbols_word_space hm
    (symbols_word_comma (operand_isWord hx) (symbols_word_comma (operand_isWord hy) hbracket))
  exact assembleLine_of_symbols hs (by simp [commandOf, hx, hy, bracket_payload h])

/-- Settles O6: a line that is accepted is empty or one checked command. -/
theorem assembledLinesAreWellFormed : Obligations.AssembledLinesAreWellFormed := by
  unfold Obligations.AssembledLinesAreWellFormed
  intro c line is h
  rcases assembleLine_eq_some h with rfl | ⟨i, hi, rfl⟩
  · exact ⟨Nat.zero_le 1, nofun⟩
  · exact ⟨Nat.le_refl 1, List.forall_mem_singleton.2 hi⟩

/-- Settles O60, form by form: each line is read as the symbols of its command. -/
theorem assemblerAcceptsExactlyTheWellFormed : Obligations.AssemblerAcceptsExactlyTheWellFormed := by
  unfold Obligations.AssemblerAcceptsExactlyTheWellFormed
  intro c x y a b hx hy
  have hnext : assembleLine c (['N', 'E', 'X', 'T', ' '] ++ x ++ ',' :: y) = emitIfWellFormed c (.next a b) := by
    rw [List.append_assoc]
    exact assembleLine_next hx hy
  have hbitmap : assembleLine c (['B', 'I', 'T', 'M', 'A', 'P', ' '] ++ x) = emitIfWellFormed c (.getw a) :=
    assembleLine_operand (m := ['B', 'I', 'T', 'M', 'A', 'P']) (isWord_of_all (by decide) (by decide)) hx
      (by simp [commandOf, hx])
  refine ⟨hnext, ?_, hbitmap, ?_, ?_, rfl, rfl, ?_, ?_, ?_, assembleLine_comment c⟩
  · exact assembleLine_operand (m := ['G', 'E', 'T', 'W']) (isWord_of_all (by decide) (by decide)) hx
      (by simp [commandOf, hx])
  · exact assembleLine_operand (m := ['G', 'E', 'T', 'B']) (isWord_of_all (by decide) (by decide)) hx
      (by simp [commandOf, hx])
  · exact assembleLine_operand (m := ['S', 'T', 'E', 'P']) (isWord_of_all (by decide) (by decide)) hx
      (by simp [commandOf, hx, stepPseudo])
  · intro ha
    exact assembleBeats_of_wellFormed hbitmap (by simp [WellFormed, fits, ha])
  · intro ha hb
    exact assembleBeats_of_wellFormed hnext (by simp [WellFormed, fits, ha, hb])
  · intro words p hwords
    rw [List.append_assoc, List.append_assoc]
    exact assembleLine_construct hx hy hwords

end Sys2Proof.Machine

/-! ## O15, O16, O17, O19: GETB, GETW and LEN -/

namespace Sys2Proof.Machine

section

variable {s : State}

/-- The bank word of a cell exists where R14 holds, so no GETB below `length` faults (log 12). -/
theorem wordOf_lt_maxWords (hw : 0 < s.cfg.w) (hcap : s.length ≤ s.cfg.capBits) {i : Nat} (hi : i < s.length) :
    wordOf s.cfg.w i < s.cfg.maxWords :=
  (wordOf_lt hw hi).trans_le (wordsFor_le_maxWords hw hcap)

/-- The value GETB computes is the cell as a number (R29, R75). -/
theorem memRead_shift_eq_cell (hw : 0 < s.cfg.w) {i : Nat} (hi : i < s.length) :
    (s.memRead (wordOf s.cfg.w i) >>> bitOf s.cfg.w i) &&& 1 = (s.cell i).toNat := by
  rw [cell_eq s hw i hi, Nat.toNat_testBit, Nat.and_one_is_mod, Nat.shiftRight_eq_div_pow]

end

/-- Settles O15: the outcomes of GETB on either side of `length`; the fault of log 12 needs a state beyond R14. -/
theorem getbReadsOneCell : Obligations.GetbReadsOneCell := by
  unfold Obligations.GetbReadsOneCell
  intro i s
  refine ⟨exec_getb_of_le, fun hw hcap hi => ⟨memRead_shift_eq_cell hw hi, ?_⟩⟩
  exact exec_getb_of_lt hi (wordOf_lt_maxWords hw hcap hi)

/-- Settles O16: the outcomes of GETW on either side of `word_count`. -/
theorem getwReadsOneWord : Obligations.GetwReadsOneWord := by
  unfold Obligations.GetwReadsOneWord
  intro idx s
  refine ⟨exec_getw_of_le, fun hw hcap hidx => ?_⟩
  exact exec_getw_of_lt hidx (hidx.trans_le (wordsFor_le_maxWords hw hcap))

/-- Settles O17: it is LEN's meaning, which has one outcome. -/
theorem lenReadsTheLength : Obligations.LenReadsTheLength := by
  unfold Obligations.LenReadsTheLength
  exact fun _ => rfl

/-- Settles O19: both commands read the same bank word, which exists because it holds a cell. -/
theorem getbAgreesWithGetw : Obligations.GetbAgreesWithGetw := by
  unfold Obligations.GetbAgreesWithGetw
  intro i s hw hcap hi
  have hcount : wordOf s.cfg.w i < s.wordCount := wordOf_lt hw hi
  have hmax := wordOf_lt_maxWords hw hcap hi
  exact ⟨hcount, _, _, s.memRead (wordOf s.cfg.w i), exec_getw_of_lt hcount hmax, rfl, exec_getb_of_lt hi hmax, rfl⟩

end Sys2Proof.Machine

/-! ## O13, O14, O31: CONSTRUCT -/

namespace Sys2Proof.Machine

/-- The block after a CONSTRUCT with payload `p` that passes its checks (R68). -/
def State.installed (s : State) (len : Nat) (p : List Word) : State :=
  ((p.foldl State.acceptPayload (s.openConstruct p.length len)).swap len).respond 0

/-- In words of no bits no length needs a word, so an index below a word count tells that `W` is positive. -/
theorem w_pos_of_lt_wordsFor {w len k : Nat} (h : k < wordsFor w len) : 0 < w := by
  by_contra hzero
  simp [wordsFor, ceilDiv, Nat.eq_zero_of_not_pos hzero] at h

section

variable {s : State} {len : Nat} {p : List Word}

/-- A CONSTRUCT that passes its checks (R68). -/
theorem exec_construct_of_ok (hok : constructStatus s.cfg p.length len = .ok) :
    exec (.construct p.length len p) s = .next (s.installed len p) := by
  rcases execConstruct_cases p.length len p s with ⟨_, e⟩ | ⟨hfail, _⟩
  · exact e
  · exact absurd hok hfail

/-- A CONSTRUCT that fails its checks raises the error after its payload has been counted down and dropped (R73). -/
theorem exec_construct_of_error {e : Status} (he : e ≠ .ok) (hstatus : constructStatus s.cfg p.length len = e) :
    exec (.construct p.length len p) s =
      .next (State.raise { s with busy := true, payloadLeft := 0, nQ := p.length, lenQ := len, keep := false } e) := by
  have hkeep : (constructStatus s.cfg p.length len == .ok) = false := by simp [hstatus, he]
  rcases execConstruct_cases p.length len p s with ⟨hok, _⟩ | ⟨_, hrun⟩
  · exact absurd (hstatus.symm.trans hok) he
  · rwa [Nat.sub_self, hstatus, State.openConstruct, hkeep] at hrun

/-- Apart from the banks, every field a successful CONSTRUCT leaves (R68). -/
theorem installed_eq (hok : constructStatus s.cfg p.length len = .ok) :
    s.installed len p =
      { s with
        length := len, front := !s.front, bank0 := (s.installed len p).bank0, bank1 := (s.installed len p).bank1
        busy := true, payloadLeft := 0, nQ := p.length, lenQ := len, keep := true
        rsp := some { status := .ok, val := 0 } } := by
  conv_lhs => rw [State.installed, foldl_acceptPayload_eq]
  simp [State.installed, State.openConstruct, State.swap, State.respond, hok]

/-- The former front bank is not written (R19). -/
theorem installed_bank_front : (s.installed len p).bank s.front = s.bank s.front :=
  foldl_acceptPayload_front p (s.openConstruct p.length len)

/-- The bank written keeps the words that the Row does not need: surplus payload is dropped (R70). -/
theorem read_installed_of_le (hok : constructStatus s.cfg p.length len = .ok) {k : Nat}
    (hk : wordsFor s.cfg.w len ≤ k) :
    Bank.read ((s.installed len p).bank (!s.front)) k = Bank.read (s.bank (!s.front)) k := by
  have hkeep : (s.openConstruct p.length len).keep = true := beq_iff_eq.2 hok
  have hread := read_foldl_acceptPayload p _ hkeep (Nat.le_refl _) (Nat.le_refl _) k
  rwa [if_neg fun ⟨_, _, hneeded⟩ => Nat.not_lt.2 hk hneeded] at hread

/-- The words of the Row are the payload words of their places, verbatim where they are words of `W` bits (R68, R71). -/
theorem memRead_installed (hok : constructStatus s.cfg p.length len = .ok) (hp : ∀ v ∈ p, v < 2 ^ s.cfg.w) {k : Nat}
    (hk : k < wordsFor s.cfg.w len) : (s.installed len p).memRead k = p.getD k 0 := by
  have hw := w_pos_of_lt_wordsFor hk
  have hplace : k < p.length := hk.trans_le ((wordsFor_le_iff hw _ _).2 ((constructStatus_ok_iff _ _ _).1 hok).1)
  rw [State.installed, memRead_respond, memRead_construct s hw len p hok k hk, List.getD_eq_getElem _ _ hplace]
  exact Nat.mod_eq_of_lt (hp _ (List.getElem_mem hplace))

end

/-- Settles O13: the checks pass, and the clauses are the frame of the installed Row, its words, and what either bank
keeps. -/
theorem constructReplacesTheRow : Obligations.ConstructReplacesTheRow := by
  unfold Obligations.ConstructReplacesTheRow
  rintro _ len p s rfl hp hsize hfits
  have hok := (constructStatus_ok_iff s.cfg p.length len).2 ⟨hsize, hfits⟩
  have hcount : (s.installed len p).wordCount = wordsFor s.cfg.w len := by rw [installed_eq hok]; rfl
  exact ⟨_, exec_construct_of_ok hok, installed_eq hok, hcount, fun _ => memRead_installed hok hp,
    installed_bank_front, fun _ => read_installed_of_le hok⟩

/-- Settles O14: which of the two errors it is, by the priority of the checks (R136); either drops the payload. -/
theorem failedConstructWritesNothing : Obligations.FailedConstructWritesNothing := by
  unfold Obligations.FailedConstructWritesNothing
  rintro _ len p s e rfl herror
  have hstatus : constructStatus s.cfg p.length len = e := by
    rcases herror with ⟨rfl, hlong⟩ | ⟨rfl, hsize, hover⟩
    · exact if_pos hlong
    · rw [constructStatus, if_neg (Nat.not_lt.2 hsize), if_pos hover]
  have he : e ≠ .ok := by
    rcases herror with ⟨rfl, _⟩ | ⟨rfl, _⟩ <;> decide
  exact exec_construct_of_error he hstatus

/-! ### The length after CONSTRUCT and NEXT -/

section

variable {s : State}

/-- A host that sends a CONSTRUCT that passes its checks finds a block of the same parameters and the length given. -/
theorem ask_construct_of_ok {len : Nat} {p : List Word} (hok : constructStatus s.cfg p.length len = .ok) :
    ∃ t, ask (.construct p.length len p) s = some ({ status := .ok, val := 0 }, t) ∧ t.cfg = s.cfg ∧
      t.length = len := by
  refine ⟨_, ask_eq_some (exec_construct_of_ok hok) rfl, ?_, rfl⟩
  rw [deliver_cfg, installed_eq hok]

/-- A host that sends a NEXT that passes its checks finds the Row two cells longer for each generation (R97). -/
theorem ask_next_of_ok {rule gens : Nat} (hok : nextStatus s.cfg s.length rule gens = .ok) :
    ∃ t, ask (.next rule gens) s = some ({ status := .ok, val := 0 }, t) ∧ t.length = s.length + 2 * gens := by
  rcases execNext_cases rule gens s with ⟨_, e⟩ | ⟨hfail, _⟩
  · refine ⟨_, ask_eq_some (i := .next rule gens) e rfl, ?_⟩
    rw [deliver_length, respond_length, generations_eq, loadNext_length]
  · exact absurd hok hfail

end

/-- Settles O31: each LEN answers the length the command before it left. -/
theorem lengthIsSeedPlusTwoPerGeneration : Obligations.LengthIsSeedPlusTwoPerGeneration := by
  unfold Obligations.LengthIsSeedPlusTwoPerGeneration
  rintro _ len rule gens p s rfl hsize hfits hrule hcap
  obtain ⟨t, hconstruct, hcfg, rfl⟩ := ask_construct_of_ok ((constructStatus_ok_iff _ _ _).2 ⟨hsize, hfits⟩)
  have hlen := ask_of_respond (i := .len) (s := t) rfl
  obtain ⟨u, hnext, hlength⟩ := ask_next_of_ok (s := t.deliver { status := .ok, val := t.length })
    ((nextStatus_ok_iff _ _ _ _).2 ⟨hrule, by rwa [deliver_cfg, hcfg]⟩)
  have hlen' := ask_of_respond (i := .len) (s := u) rfl
  rw [hlength, deliver_length] at hlen'
  refine ⟨_, _, _, _, u.deliver { status := .ok, val := t.length + 2 * gens }, ?_, rfl, rfl, rfl, rfl⟩
  simp only [askAll, hconstruct, hlen, hnext, hlen', Option.bind_some, Option.map_some]

end Sys2Proof.Machine

/-! ## O47: what changes the Row -/

namespace Sys2Proof.Machine

section

variable {s t : State} {i : Instr}

/-- A command that reads leaves the Row: it only hands over its response (R36). -/
theorem exec_read_row (hi : IsRead i) (he : exec i s = .next t) : t.row = s.row := by
  obtain ⟨_, r, hr⟩ := exec_answers i s t he
  obtain ⟨hdeliver, _⟩ := ask_read hi (ask_eq_some he hr)
  rw [← row_deliver t r, hdeliver, row_deliver]

/-- A command other than CONSTRUCT and NEXT leaves the Row (R78). -/
theorem construct_or_next_of_row_ne (he : exec i s = .next t) (hrow : t.row ≠ s.row) :
    (∃ n len p, i = .construct n len p) ∨ ∃ rule gens, i = .next rule gens := by
  have hread : ¬ IsRead i := fun hi => hrow (exec_read_row hi he)
  have hreserved : i.isReserved ≠ true := by
    intro hi
    rw [exec_reserved i s hi] at he
    cases he
    exact hrow (row_raise s _)
  cases i with
  | construct n len p => exact .inl ⟨n, len, p, rfl⟩
  | next rule gens => exact .inr ⟨rule, gens, rfl⟩
  | getw idx => exact absurd (.inl ⟨idx, rfl⟩) hread
  | getb j => exact absurd (.inr (.inl ⟨j, rfl⟩)) hread
  | len => exact absurd (.inr (.inr rfl)) hread
  | _ => exact absurd rfl hreserved

/-- While a CONSTRUCT is in progress, only the beat that completes it changes the Row (R73). -/
theorem payloadLeft_le_one_of_receive_row_ne (hrow : s.receive.row ≠ s.row) : s.payloadLeft ≤ 1 := by
  rcases receive_cases s with ⟨h0, _⟩ | ⟨_, _, e⟩ | ⟨_, _, _, _, h1, _⟩ | ⟨d, rest, _, _, _, e⟩
  · exact h0.trans_le (Nat.zero_le 1)
  · exact absurd (congrArg State.row e) hrow
  · exact h1.le
  · rw [e, row_acceptPayload, row_takeBeats] at hrow
    exact absurd rfl hrow

/-- The idle block changes the Row only by a whole CONSTRUCT or NEXT: the wait and a lone header leave it. -/
theorem decode_of_fetchAndRun_row_ne (he : fetchAndRun s = .next t) (hrow : t.row ≠ s.row) :
    ∃ i rest, decode s.cfg s.cmdIn = .ok (i, rest) ∧
      ((∃ n len p, i = .construct n len p) ∨ ∃ rule gens, i = .next rule gens) := by
  rcases fetchAndRun_cases s with ⟨_, e⟩ | ⟨_, _, _, _, _, e⟩ | ⟨i, rest, hdecode, _, e⟩ <;> rw [e] at he
  · cases he; exact absurd rfl hrow
  · cases he; exact absurd rfl hrow
  · exact ⟨i, rest, hdecode, construct_or_next_of_row_ne he hrow⟩

end

/-- Settles O47: of the moves of a step, handing over a response leaves the Row, and the others are the three of the
statement. -/
theorem onlyConstructAndNextChangeTheRow : Obligations.OnlyConstructAndNextChangeTheRow := by
  unfold Obligations.OnlyConstructAndNextChangeTheRow
  intro s t he hrow
  rcases step_cases s with ⟨_, e⟩ | ⟨_, hrst, _⟩ | ⟨r, _, _, _, e⟩ | ⟨_, _, hrsp, hbusy, e⟩ | ⟨_, _, hrsp, hbusy, e⟩
  · cases e.symm.trans he
  · exact .inl hrst
  · cases e.symm.trans he
    refine absurd ?_ hrow
    split <;> rfl
  · cases e.symm.trans he
    exact .inr (.inl ⟨hrsp, hbusy, payloadLeft_le_one_of_receive_row_ne hrow⟩)
  · exact .inr (.inr ⟨hrsp, hbusy, decode_of_fetchAndRun_row_ne (e.symm.trans he) hrow⟩)

end Sys2Proof.Machine

/-! ## O8: the rule function and its truth table -/

namespace Sys2Proof.Machine

/-- The eight neighbourhoods are the three-bit numbers: an index is the neighbourhood of its bits (R81). -/
theorem neighbourhood_testBit {idx : Nat} (h : idx < 8) :
    neighbourhood (idx.testBit 2) (idx.testBit 1) (idx.testBit 0) = idx := by
  revert idx; decide

/-- `apply` reads one bit of the rule, as a number (R82). -/
theorem apply_eq_testBit (rule : BitVec 8) (l c r : Bool) :
    apply rule l c r = rule.toNat.testBit (neighbourhood l c r) := rfl

theorem neighbourhood_lt (l c r : Bool) : neighbourhood l c r < 8 := by
  cases l <;> cases c <;> cases r <;> decide

/-- A number modulo `2^n` is the sum of its low `n` bits, each at its weight. -/
theorem sum_testBit_mul_two_pow (x n : Nat) :
    ((List.range n).map fun i => (x.testBit i).toNat * 2 ^ i).sum = x % 2 ^ n := by
  induction n with
  | zero => simp [Nat.mod_one]
  | succ n ih =>
    rw [List.range_succ, List.map_append, List.sum_append, ih, Nat.mod_pow_succ, ← Nat.toNat_testBit]
    simp [Nat.mul_comm]

/-- Settles O8: `apply` is a bit of the rule by definition; the sum is the rule written in binary. -/
theorem applyReadsTheTruthTable : Obligations.ApplyReadsTheTruthTable := by
  unfold Obligations.ApplyReadsTheTruthTable
  intro rule
  constructor
  · intro l c r
    rw [apply_eq_testBit, Nat.testBit_eq_decide_div_mod_eq, ← Nat.shiftRight_eq_div_pow]
    rfl
  · have hentry : ∀ idx ∈ List.range 8,
        (apply rule (idx.testBit 2) (idx.testBit 1) (idx.testBit 0)).toNat * 2 ^ idx =
          (rule.toNat.testBit idx).toNat * 2 ^ idx := by
      intro idx hidx
      rw [apply_eq_testBit, neighbourhood_testBit (List.mem_range.1 hidx)]
    rw [List.map_congr_left hentry, sum_testBit_mul_two_pow, Nat.mod_eq_of_lt rule.isLt]

end Sys2Proof.Machine

/-! ## O59: a generation, cell by cell -/

namespace Sys2Proof.Machine

/-! ### The select on one bit (R112) -/

section

variable {w j : Nat}

/-- A minterm marks the cells whose neighbourhood is its index. -/
theorem minterm_testBit (hj : j < w) (lw cw rw : Word) {idx : Nat} (hidx : idx < 8) :
    (minterm w lw cw rw idx).testBit j =
      decide (idx = neighbourhood (lw.testBit j) (cw.testBit j) (rw.testBit j)) := by
  simp only [minterm, Nat.testBit_and, passOrInvert_testBit w _ _ j hj]
  generalize lw.testBit j = l, cw.testBit j = c, rw.testBit j = r
  revert idx l c r
  decide

/-- A bit of an OR over the enabled indices is set where some enabled index sets it. -/
theorem foldl_or_testBit (enabled : Nat → Bool) (term : Nat → Word) (l : List Nat) (out : Word) :
    (l.foldl (fun out idx => if enabled idx then out ||| term idx else out) out).testBit j =
      (out.testBit j || l.any fun idx => enabled idx && (term idx).testBit j) := by
  induction l generalizing out with
  | nil => simp
  | cons idx l ih =>
    rw [List.foldl_cons, ih, List.any_cons]
    cases enabled idx <;> simp [Bool.or_assoc]

/-- The word-wide select applies the rule to each bit of the streams (R85, R112). -/
theorem applyW_testBit (hj : j < w) (rule : BitVec 8) (lw cw rw : Word) :
    (applyW w rule lw cw rw).testBit j = apply rule (lw.testBit j) (cw.testBit j) (rw.testBit j) := by
  rw [applyW, foldl_or_testBit, Nat.zero_testBit, Bool.false_or, apply, Bool.eq_iff_iff, List.any_eq_true]
  constructor
  · rintro ⟨idx, hidx, hset⟩
    rw [minterm_testBit hj _ _ _ (List.mem_range.1 hidx), Bool.and_eq_true, decide_eq_true_eq] at hset
    obtain ⟨henabled, rfl⟩ := hset
    exact henabled
  · intro henabled
    have hlt := neighbourhood_lt (lw.testBit j) (cw.testBit j) (rw.testBit j)
    exact ⟨_, List.mem_range.2 hlt, by simp [henabled, minterm_testBit hj _ _ _ hlt]⟩

end

/-! ### What a run of words leaves alone -/

section

variable (n : Nat) (s : State)

@[simp] theorem pipeWords_cfg : (State.pipeWords n s).cfg = s.cfg := by rw [pipeWords_eq]
@[simp] theorem pipeWords_length : (State.pipeWords n s).length = s.length := by rw [pipeWords_eq]
@[simp] theorem pipeWords_ruleQ : (State.pipeWords n s).ruleQ = s.ruleQ := by rw [pipeWords_eq]
@[simp] theorem pipeWords_k : (State.pipeWords n s).k = s.k + n := by rw [pipeWords_eq]

/-- A word written to the back bank leaves the old Row as it is (R115). -/
theorem row_pipeWord : s.pipeWord.row = s.row := row_eq_of _ _ rfl rfl fun k _ => memRead_pipeWord s k

theorem row_pipeWords : (State.pipeWords n s).row = s.row := by
  induction n generalizing s with
  | zero => rfl
  | succ n ih => exact (ih s.pipeWord).trans (row_pipeWord s)

end

/-! ### The streams, place by place (R108 to R111) -/

section

variable {w t : Nat} {cur : Word}

/-- The centre stream is the current word one place on, behind `carry[0]` (R110). -/
theorem centreStream_testBit_place (hcur : cur < 2 ^ w) (ht : t < w) (carry : BitVec 2) :
    (centreStream w carry cur).testBit (w - 1 - t) =
      if t = 0 then carry.getLsbD 0 else cur.testBit (w - 1 - (t - 1)) := by
  rw [centreStream, Nat.testBit_or, Nat.testBit_shiftRight, Nat.testBit_shiftLeft]
  split
  · next h0 =>
    rw [Nat.testBit_lt_two_pow (hcur.trans_le (Nat.pow_le_pow_right (by decide) (by omega)))]
    rw [h0, Nat.sub_zero, Nat.sub_self, Nat.testBit_bool_toNat]
    simp
  · next h0 =>
    have hplace : 1 + (w - 1 - t) = w - 1 - (t - 1) := by omega
    have hbelow : ¬ w - 1 ≤ w - 1 - t := by omega
    simp [hplace, hbelow]

/-- The left-neighbour stream is the current word two places on, behind the two carried bits (R111). -/
theorem leftStream_testBit_place (hw : 2 ≤ w) (hcur : cur < 2 ^ w) (ht : t < w) (carry : BitVec 2) :
    (leftStream w carry cur).testBit (w - 1 - t) =
      if t < 2 then carry.getLsbD (1 - t) else cur.testBit (w - 1 - (t - 2)) := by
  rw [leftStream, Nat.testBit_or, Nat.testBit_shiftRight, Nat.testBit_shiftLeft]
  split
  · next h2 =>
    rw [Nat.testBit_lt_two_pow (hcur.trans_le (Nat.pow_le_pow_right (by decide) (by omega)))]
    have hplace : w - 1 - t - (w - 2) = 1 - t := by omega
    have habove : w - 2 ≤ w - 1 - t := by omega
    simp [hplace, habove, BitVec.testBit_toNat]
  · next h2 =>
    have hplace : 2 + (w - 1 - t) = w - 1 - (t - 2) := by omega
    have hbelow : ¬ w - 2 ≤ w - 1 - t := by omega
    simp [hplace, hbelow]

end

section

variable {s u : State}

theorem curWord_lt (s : State) : s.curWord < 2 ^ s.cfg.w := Nat.and_lt_two_pow _ (vmask_lt _ _ _)

/-- The current word holds the cells of the old Row at its places, 0 outside the Row (R107, R108). -/
theorem curWord_testBit_place {t : Nat} (ht : t < s.cfg.w) :
    s.curWord.testBit (s.cfg.w - 1 - t) = s.bit ((s.k * s.cfg.w + t : Nat) : Int) := by
  have hw : 0 < s.cfg.w := by omega
  rw [State.curWord, Nat.testBit_and, vmask_testBit_place _ _ _ ht]
  by_cases hcell : s.k * s.cfg.w + t < s.length
  · have hk : s.k < s.wordCount := (lt_wordsFor_iff hw _ _).2 (by omega)
    have hword : wordOf s.cfg.w (s.k * s.cfg.w + t) = s.k := by
      rw [wordOf, Nat.mul_comm, Nat.mul_add_div hw, Nat.div_eq_of_lt ht, Nat.add_zero]
    have hplace : bitOf s.cfg.w (s.k * s.cfg.w + t) = s.cfg.w - 1 - t := by
      rw [bitOf, Nat.mul_add_mod_self_right, Nat.mod_eq_of_lt ht]
    rw [State.bit, Row.bit_of_lt _ _ _ hcell, ← State.cell, cell_eq s hw _ hcell, hword, hplace, State.rawWord,
      if_pos hk, decide_eq_true hcell, Bool.and_true]
  · rw [decide_eq_false hcell, Bool.and_false, State.bit, Row.bit_of_not]
    rw [row_length]
    omega

/-! ### The carry between words (R114) -/

/-- `carry` holds the two cells before the word to be produced (R21, R114): what makes the words of a generation one
Row. -/
def State.CarryHoldsThePlacesBefore (s : State) : Prop :=
  ∀ i < 2, s.carry.getLsbD i = s.bit (((s.k * s.cfg.w : Nat) : Int) - 1 - i)

/-- The set-up clears `carry`, and there is no cell before the first word (R106). -/
theorem startGeneration_carryHolds (s : State) : s.startGeneration.CarryHoldsThePlacesBefore := by
  intro i _
  rw [State.bit, Row.bit_of_not _ _ _ (by rw [startGeneration_k]; omega)]
  simp

/-- Each word carries on the last two of its cells (R114). -/
theorem pipeWord_carryHolds (hw : 2 ≤ s.cfg.w) : s.pipeWord.CarryHoldsThePlacesBefore := by
  intro i hi
  have hplace : s.cfg.w - 1 - (s.cfg.w - 1 - i) = i := by omega
  have hcell : (((s.k + 1) * s.cfg.w : Nat) : Int) - 1 - i = ((s.k * s.cfg.w + (s.cfg.w - 1 - i) : Nat) : Int) := by
    rw [Nat.add_one_mul]
    omega
  have hcur := curWord_testBit_place (s := s) (t := s.cfg.w - 1 - i) (by omega)
  rw [hplace] at hcur
  rw [State.bit, row_pipeWord, pipeWord_cfg, pipeWord_k, hcell, ← State.bit, ← hcur, pipeWord_carry,
    BitVec.getLsbD_ofNat, decide_eq_true hi, Bool.true_and]

theorem pipeWords_carryHolds (hw : 2 ≤ s.cfg.w) (h : s.CarryHoldsThePlacesBefore) (n : Nat) :
    (State.pipeWords n s).CarryHoldsThePlacesBefore := by
  induction n generalizing s with
  | zero => exact h
  | succ n ih => exact ih (s := s.pipeWord) hw (pipeWord_carryHolds hw)

/-! ### The streams hold the neighbours -/

/-- The centre stream holds the cell one to the left (R110). -/
theorem centreStream_testBit_eq_bit (hu : u.CarryHoldsThePlacesBefore) {t : Nat} (ht : t < u.cfg.w) :
    (centreStream u.cfg.w u.carry u.curWord).testBit (u.cfg.w - 1 - t) =
      u.bit (((u.k * u.cfg.w + t : Nat) : Int) - 1) := by
  rw [centreStream_testBit_place (curWord_lt u) ht]
  split
  · rw [hu 0 (by decide)]
    congr 1
    omega
  · rw [curWord_testBit_place (by omega)]
    congr 1
    omega

/-- The left-neighbour stream holds the cell two to the left (R111). -/
theorem leftStream_testBit_eq_bit (hw : 2 ≤ u.cfg.w) (hu : u.CarryHoldsThePlacesBefore) {t : Nat} (ht : t < u.cfg.w) :
    (leftStream u.cfg.w u.carry u.curWord).testBit (u.cfg.w - 1 - t) =
      u.bit (((u.k * u.cfg.w + t : Nat) : Int) - 2) := by
  rw [leftStream_testBit_place hw (curWord_lt u) ht]
  split
  · rw [hu _ (by omega)]
    congr 1
    omega
  · rw [curWord_testBit_place (by omega)]
    congr 1
    omega

/-! ### The new Row (R91) -/

/-- The word written holds the new cells at its places, 0 beyond the new Row (R91, R113). -/
theorem newWord_testBit_place (hw : 2 ≤ u.cfg.w) (hu : u.CarryHoldsThePlacesBefore) {t : Nat} (ht : t < u.cfg.w) :
    u.newWord.testBit (u.cfg.w - 1 - t) =
      (u.row.nextCell u.cfg.w u.ruleQ (u.k * u.cfg.w + t) && decide (u.k * u.cfg.w + t < u.length + 2)) := by
  rw [State.newWord, Nat.testBit_and, vmask_testBit_place _ _ _ ht, State.outWord, applyW_testBit (by omega),
    leftStream_testBit_eq_bit hw hu ht, centreStream_testBit_eq_bit hu ht, curWord_testBit_place ht]
  rfl

/-- The datapath computes R91: every cell of the new Row is the rule applied to its three old neighbours. -/
theorem cell_generation (hw : 2 ≤ s.cfg.w) {j : Nat} (hj : j < s.length + 2) :
    s.generation.cell j = s.row.nextCell s.cfg.w s.ruleQ j := by
  have hpos : 0 < s.cfg.w := by omega
  have ht : j % s.cfg.w < s.cfg.w := Nat.mod_lt j hpos
  have hj' : j / s.cfg.w * s.cfg.w + j % s.cfg.w = j := Nat.div_add_mod' j s.cfg.w
  have hcarry := pipeWords_carryHolds (s := s.startGeneration) hw (startGeneration_carryHolds s) (j / s.cfg.w)
  have hnew := newWord_testBit_place (by simpa using hw) hcarry (t := j % s.cfg.w) (by simpa using ht)
  simp only [row_pipeWords, row_startGeneration, pipeWords_cfg, pipeWords_length, pipeWords_ruleQ, pipeWords_k,
    startGeneration_cfg, startGeneration_length, startGeneration_ruleQ, startGeneration_k, Nat.zero_add, hj',
    decide_eq_true hj, Bool.and_true] at hnew
  rw [cell_eq _ (by rwa [generation_cfg]) _ (by rwa [generation_length]), generation_cfg,
    memRead_generation _ _ (wordOf_lt hpos hj), Nat.testBit_mod_two_pow, wordOf, bitOf, hnew,
    decide_eq_true (by omega), Bool.true_and]

/-- Every cell after an accepted NEXT of one generation (R91, R97). -/
theorem cell_of_exec_next_one {rule : Nat} {t : State} (hw : 2 ≤ s.cfg.w) (hrule : rule ≤ 255)
    (hcap : s.length + 2 ≤ s.cfg.capBits) (he : exec (.next rule 1) s = .next t) {j : Nat} (hj : j < s.length + 2) :
    t.cell j = s.row.nextCell s.cfg.w (ruleByte rule) j := by
  rcases execNext_cases rule 1 s with ⟨_, e⟩ | ⟨hfail, _⟩
  · cases e.symm.trans he
    exact cell_generation (s := s.loadNext rule 1) hw hj
  · exact absurd ((nextStatus_ok_iff _ _ _ _).2 ⟨hrule, hcap⟩) hfail

end

/-! ### Rule 204 -/

/-- Rule 204 copies the centre cell (R88). -/
theorem apply_204 (l c r : Bool) : apply (ruleByte 204) l c r = c := by
  cases l <;> cases c <;> cases r <;> decide

/-- Under rule 204 the cell at `i + 1` of the new Row is the old cell `i`: a generation adds one cell at either
end, and the rule copies the rest (R88, R91). -/
theorem cell_succ_of_exec_next_204 {s t : State} (hw : 2 ≤ s.cfg.w) (hcap : s.length + 2 ≤ s.cfg.capBits)
    (he : exec (.next 204 1) s = .next t) {i : Nat} (hi : i < s.length) : t.cell (i + 1) = s.cell i := by
  have hcentre : ((i + 1 : Nat) : Int) - 1 = (i : Nat) := by omega
  rw [cell_of_exec_next_one hw (by decide) hcap he (by omega), Row.nextCell, apply_204, hcentre, Row.bit_of_lt _ _ _ hi]
  rfl

/-- Settles O59: each old cell stands in the new Row, one place on. -/
theorem everyWordReadMatters : Obligations.EveryWordReadMatters := by
  unfold Obligations.EveryWordReadMatters
  intro s s' t t' hw hcfg hlen hcap he he' hrow i hi
  obtain ⟨ht, _⟩ := exec_keeps _ s t he
  obtain ⟨ht', _⟩ := exec_keeps _ s' t' he'
  have hcfg' : t.cfg = t'.cfg := by rw [ht, ht', hcfg]
  calc
    s.cell i = t.cell (i + 1) := (cell_succ_of_exec_next_204 hw hcap he hi).symm
    _ = t'.cell (i + 1) := by rw [State.cell, State.cell, hrow, hcfg']
    _ = s'.cell i := cell_succ_of_exec_next_204 (hcfg ▸ hw) (by rwa [← hlen, ← hcfg]) he' (hlen ▸ hi)

end Sys2Proof.Machine

/-! ## O11, O22, O23, O25 to O28, O30: NEXT -/

namespace Sys2Proof.Machine

/-! ### The word count at the seams (R90) -/

section

variable {w : Nat}

/-- `q` full words. -/
theorem wordsFor_mul (hw : 0 < w) (q : Nat) : wordsFor w (q * w) = q := by
  have hle := (wordsFor_le_iff hw (q * w) q).2 (Nat.mul_comm q w).le
  have hge : ¬ wordsFor w (q * w) < q := fun h =>
    Nat.lt_irrefl _ ((lt_wordsFor_iff hw (q * w) _).2 (Nat.mul_lt_mul_of_pos_right h hw))
  omega

/-- `q` full words and one more that is not empty. -/
theorem wordsFor_mul_add (q : Nat) {r : Nat} (hr : 0 < r) (hrw : r ≤ w) : wordsFor w (q * w + r) = q + 1 := by
  have hw : 0 < w := hr.trans_le hrw
  have hgt : q < wordsFor w (q * w + r) := (lt_wordsFor_iff hw _ _).2 (by omega)
  have hle : wordsFor w (q * w + r) ≤ q + 1 :=
    (wordsFor_le_iff hw _ _).2 (by rw [Nat.mul_add_one, Nat.mul_comm]; omega)
  omega

/-- Two more cells need one more word exactly where they do not fit the room of the last word (R90). -/
theorem wordsFor_add_two (hw : 2 ≤ w) (len : Nat) :
    wordsFor w (len + 2) = if len % w = 0 ∨ len % w = w - 1 then wordsFor w len + 1 else wordsFor w len := by
  have hpos : 0 < w := by omega
  have hr : len % w < w := Nat.mod_lt _ hpos
  have hlen : len = len / w * w + len % w := (Nat.div_add_mod' len w).symm
  generalize len / w = q, len % w = r at *
  subst hlen
  by_cases hfull : r = 0
  · rw [if_pos (.inl hfull), hfull, wordsFor_mul_add q (by decide) hw, Nat.add_zero (q * w), wordsFor_mul hpos]
  · rw [wordsFor_mul_add q (by omega) hr.le]
    by_cases hone : r = w - 1
    · have hnext : q * w + r + 2 = (q + 1) * w + 1 := by rw [Nat.add_one_mul]; omega
      rw [if_pos (.inr hone), hnext, wordsFor_mul_add _ (by decide) (by omega)]
    · rw [if_neg (by omega), Nat.add_assoc, wordsFor_mul_add q (by omega) (by omega)]

end

theorem wordCount_generation (s : State) : s.generation.wordCount = wordsFor s.cfg.w (s.length + 2) := by
  rw [State.wordCount, generation_cfg, generation_length]

/-- Settles O11: the word count of the new length, by `wordsFor_add_two`. -/
theorem wordCountGrowsAtTheSeams : Obligations.WordCountGrowsAtTheSeams := by
  unfold Obligations.WordCountGrowsAtTheSeams
  intro s hw
  exact ⟨generation_length s, wordCount_generation s, (wordCount_generation s).trans (wordsFor_add_two hw s.length)⟩

/-! ### The checks of NEXT (R98 to R100) -/

/-- The block after a NEXT that passes its checks (R97). -/
def State.stepped (s : State) (rule gens : Nat) : State := (State.generations gens (s.loadNext rule gens)).respond 0

section

variable {s : State} {rule gens : Nat}

theorem nextStatus_ok (hrule : rule ≤ 255) (hcap : s.length + 2 * gens ≤ s.cfg.capBits) :
    nextStatus s.cfg s.length rule gens = .ok :=
  (nextStatus_ok_iff _ _ _ _).2 ⟨hrule, hcap⟩

theorem nextStatus_invalidRule (hrule : 255 < rule) : nextStatus s.cfg s.length rule gens = .invalidRule := if_pos hrule

theorem nextStatus_capacityExceeded (hrule : rule ≤ 255) (hcap : s.cfg.capBits < s.length + 2 * gens) :
    nextStatus s.cfg s.length rule gens = .capacityExceeded := by
  rw [nextStatus, if_neg (Nat.not_lt.2 hrule), if_pos hcap]

/-- A NEXT that passes its checks (R97). -/
theorem exec_next_of_ok (hok : nextStatus s.cfg s.length rule gens = .ok) :
    exec (.next rule gens) s = .next (s.stepped rule gens) := by
  rcases execNext_cases rule gens s with ⟨_, e⟩ | ⟨hfail, _⟩
  · exact e
  · exact absurd hok hfail

/-- A NEXT that fails its checks only answers (R98, R100). -/
theorem exec_next_of_fail {e : Status} (he : e ≠ .ok) (hstatus : nextStatus s.cfg s.length rule gens = e) :
    exec (.next rule gens) s = .next (s.raise e) := by
  subst hstatus
  rcases execNext_cases rule gens s with ⟨hok, _⟩ | ⟨_, e⟩
  · exact absurd hok he
  · exact e

end

/-- Settles O22: the three statuses of the checks, and what NEXT does on each. -/
theorem nextIsCheckedBeforeAnyGeneration : Obligations.NextIsCheckedBeforeAnyGeneration := by
  unfold Obligations.NextIsCheckedBeforeAnyGeneration
  intro rule gens s
  refine ⟨fun hrule => ?_, fun hrule hcap => ?_, fun hrule hcap => ?_⟩
  · exact ⟨_, exec_next_of_fail (by decide) (nextStatus_invalidRule hrule), rfl⟩
  · exact ⟨_, exec_next_of_fail (by decide) (nextStatus_capacityExceeded hrule hcap), rfl⟩
  · exact ⟨_, exec_next_of_ok (nextStatus_ok hrule hcap), rfl⟩

/-- Settles O23: the run of no generations is the state NEXT loaded, which keeps the Row. -/
theorem nextZeroIsIdentity : Obligations.NextZeroIsIdentity := by
  unfold Obligations.NextZeroIsIdentity
  intro rule s hrule hcap
  exact ⟨s.stepped rule 0, exec_next_of_ok (nextStatus_ok hrule hcap), rfl, rfl, rfl⟩

/-! ### Runs of generations -/

section

variable (g : Nat) (s : State)

@[simp] theorem generations_cfg : (State.generations g s).cfg = s.cfg := by rw [generations_eq]
@[simp] theorem generations_length : (State.generations g s).length = s.length + 2 * g := by rw [generations_eq]
@[simp] theorem generations_ruleQ : (State.generations g s).ruleQ = s.ruleQ := by rw [generations_eq]

/-- Runs of generations compose (R102). -/
theorem generations_add (a b : Nat) : State.generations (a + b) s = State.generations b (State.generations a s) := by
  induction a generalizing s with
  | zero => rw [Nat.zero_add]; rfl
  | succ a ih => rw [Nat.succ_add]; exact ih s.generation.countGeneration

end

section

variable {s : State} {rule gens : Nat}

/-- Apart from the banks, `carry` and `k`, every field a successful NEXT leaves (R97, R103). -/
theorem stepped_eq (s : State) (rule gens : Nat) :
    s.stepped rule gens =
      { s with
        length := s.length + 2 * gens, front := if gens % 2 = 0 then s.front else !s.front
        bank0 := (s.stepped rule gens).bank0, bank1 := (s.stepped rule gens).bank1
        carry := (s.stepped rule gens).carry, k := (s.stepped rule gens).k
        gensLeft := 0, ruleQ := ruleByte rule, busy := true, rsp := some { status := .ok, val := 0 } } := by
  conv_lhs => rw [State.stepped, generations_eq]
  simp [State.stepped, State.loadNext, State.respond]

@[simp] theorem stepped_cfg : (s.stepped rule gens).cfg = s.cfg := by rw [stepped_eq]
@[simp] theorem stepped_length : (s.stepped rule gens).length = s.length + 2 * gens := by rw [stepped_eq]

/-- The last generation of a NEXT runs on what the others left (R97). -/
theorem stepped_succ (g : Nat) :
    s.stepped rule (g + 1) =
      (State.generations g (s.loadNext rule (g + 1))).generation.countGeneration.respond 0 := by
  rw [State.stepped, generations_add]
  rfl

end

/-! ### The Row of the cell-by-cell definition (R91, R94, R117) -/

section

variable {s : State}

/-- The words of a new Row are those the datapath made: the output mask has narrowed them already (R113, R115). -/
theorem memRead_generation_eq_newWord {k : Nat} (hk : k < wordsFor s.cfg.w (s.length + 2)) :
    s.generation.memRead k = (State.pipeWords k s.startGeneration).newWord := by
  have hlt : (State.pipeWords k s.startGeneration).newWord < 2 ^ s.cfg.w := by
    have h := Nat.and_lt_two_pow (State.pipeWords k s.startGeneration).outWord (vmask_lt s.cfg.w (s.length + 2) k)
    simpa [State.newWord] using h
  rw [memRead_generation s k hk, Nat.mod_eq_of_lt hlt]

/-- Every word the datapath writes is the packed word of the new cells (R94, R117). -/
theorem memRead_generation_eq_nextWord (hw : 2 ≤ s.cfg.w) {k : Nat} (hk : k < wordsFor s.cfg.w (s.length + 2)) :
    s.generation.memRead k = s.row.nextWord s.cfg.w s.ruleQ k := by
  have hcarry := pipeWords_carryHolds (s := s.startGeneration) hw (startGeneration_carryHolds s) k
  have hlt : s.generation.memRead k < 2 ^ s.cfg.w := by
    rw [memRead_generation s k hk]
    exact Nat.mod_lt _ (Nat.two_pow_pos _)
  obtain ⟨hpack, hplace⟩ := packWord_spec s.cfg.w
    fun t => decide (k * s.cfg.w + t ≤ s.row.length + 1) && s.row.nextCell s.cfg.w s.ruleQ (k * s.cfg.w + t)
  refine word_ext s.cfg.w _ _ hlt hpack fun t ht => ?_
  have hnew := newWord_testBit_place (by simpa using hw) hcarry (t := t) (by simpa using ht)
  simp only [row_pipeWords, row_startGeneration, pipeWords_cfg, pipeWords_length, pipeWords_ruleQ, pipeWords_k,
    startGeneration_cfg, startGeneration_length, startGeneration_ruleQ, startGeneration_k, Nat.zero_add] at hnew
  rw [Row.nextWord, hplace t ht, memRead_generation_eq_newWord hk, hnew, Bool.and_comm, row_length]
  congr 1
  exact decide_eq_decide.2 (by omega)

/-- A generation of the datapath is a step of the cell-by-cell definition (R117). -/
theorem row_generation (hw : 2 ≤ s.cfg.w) : s.generation.row = s.row.step s.cfg.w s.ruleQ := by
  rw [State.row, wordCount_generation, generation_length, Row.step, row_length]
  congr 1
  exact List.map_congr_left fun k hk => memRead_generation_eq_nextWord hw (List.mem_range.1 hk)

/-- So is a run of generations a run of steps (R97, R102). -/
theorem row_generations (hw : 2 ≤ s.cfg.w) (g : Nat) :
    (State.generations g s).row = Row.stepN s.cfg.w s.ruleQ g s.row := by
  induction g generalizing s with
  | zero => rfl
  | succ g ih =>
    have hrest := ih (s := s.generation.countGeneration) (by simpa using hw)
    simpa [State.generations, Row.stepN, row_generation hw] using hrest

end

/-- Settles O25: the Row by `row_generations`, the frame by `stepped_eq`. -/
theorem nextAppliesTheGenerations : Obligations.NextAppliesTheGenerations := by
  unfold Obligations.NextAppliesTheGenerations
  intro rule gens s hw hrule hcap
  refine ⟨_, exec_next_of_ok (nextStatus_ok hrule hcap), ?_, stepped_eq s rule gens, fun b j hj => ?_⟩
  · exact row_generations (s := s.loadNext rule gens) hw gens
  · exact read_generations_other gens (s.loadNext rule gens) b j hj

/-- Settles O26: the cells by `cell_of_exec_next_one`; the one generation reads the old Row and does not write it. -/
theorem newCellsFollowTheRule : Obligations.NewCellsFollowTheRule := by
  unfold Obligations.NewCellsFollowTheRule
  intro rule s hw hrule hcap
  have he := exec_next_of_ok (nextStatus_ok (gens := 1) hrule hcap)
  refine ⟨_, he, stepped_length, generation_old_bank (s.loadNext rule 1), fun j hj => ?_⟩
  exact cell_of_exec_next_one hw hrule hcap he (by omega)

/-! ### The outermost cells (R93, R96) -/

section

variable (w : Nat) (rule : BitVec 8) {r : Row}

/-- Left of the Row there are only zeros (R93). -/
theorem Row.nextCell_first (h : 0 < r.length) : r.nextCell w rule 0 = apply rule false false (r.cell w 0) := by
  have hcell := Row.bit_of_lt w r 0 h
  rw [Row.nextCell, Row.bit_of_not w r _ (by omega), Row.bit_of_not w r _ (by omega), hcell]

/-- Right of the Row there are only zeros (R93). -/
theorem Row.nextCell_last (h : 0 < r.length) :
    r.nextCell w rule (r.length + 1) = apply rule (r.cell w (r.length - 1)) false false := by
  have hleft : ((r.length + 1 : Nat) : Int) - 2 = ((r.length - 1 : Nat) : Int) := by omega
  rw [Row.nextCell, hleft, Row.bit_of_lt w r _ (by omega), Row.bit_of_not w r _ (by omega),
    Row.bit_of_not w r _ (by omega)]

/-- The empty Row has only zeros to compute from (R96). -/
theorem Row.nextCell_of_empty (h : r.length = 0) (j : Nat) : r.nextCell w rule j = apply rule false false false := by
  rw [Row.nextCell, Row.bit_of_not w r _ (by omega), Row.bit_of_not w r _ (by omega), Row.bit_of_not w r _ (by omega)]

end

/-- Three zeros select bit 0 of the rule (R81, R96). -/
theorem apply_ruleByte_zeros (rule : Nat) : apply (ruleByte rule) false false false = decide (rule % 2 = 1) := by
  rw [apply_eq_testBit, ruleByte, BitVec.toNat_ofNat]
  simp [neighbourhood]

/-- Settles O27: the outermost new cells are those of the cell-by-cell definition. -/
theorem boundaryCellsAreComputed : Obligations.BoundaryCellsAreComputed := by
  unfold Obligations.BoundaryCellsAreComputed
  intro rule s hw hrule hcap
  have he := exec_next_of_ok (nextStatus_ok (gens := 1) hrule hcap)
  have hcell {j : Nat} (hj : j < s.length + 2) := cell_of_exec_next_one hw hrule hcap he hj
  refine ⟨_, he, stepped_length, fun hpos => ⟨?_, ?_⟩, fun hempty => ⟨?_, ?_⟩⟩
  · exact (hcell (by omega)).trans (Row.nextCell_first _ _ hpos)
  · exact (hcell (by omega)).trans (Row.nextCell_last _ _ hpos)
  · rw [hcell (by omega), Row.nextCell_of_empty _ _ hempty, apply_ruleByte_zeros]
  · rw [hcell (by omega), Row.nextCell_of_empty _ _ hempty, apply_ruleByte_zeros]

/-! ### Padding (R94) -/

/-- A new word holds nothing outside the mask of its cells: it has passed the output mask (R94, R113). -/
theorem memRead_generation_and_vmask {s : State} {k : Nat} (hk : k < wordsFor s.cfg.w (s.length + 2)) :
    s.generation.memRead k &&& vmask s.cfg.w (s.length + 2) k = s.generation.memRead k := by
  rw [memRead_generation_eq_newWord hk, State.newWord]
  simp

/-- Settles O28: the last generation has masked every word of the Row. -/
theorem paddingAfterAGenerationIsZero : Obligations.PaddingAfterAGenerationIsZero := by
  unfold Obligations.PaddingAfterAGenerationIsZero
  intro rule gens s _ hrule hpos hcap
  refine ⟨_, exec_next_of_ok (nextStatus_ok hrule hcap), fun k hk => ?_⟩
  obtain ⟨g, rfl⟩ := Nat.exists_eq_add_one_of_ne_zero hpos.ne'
  rw [State.wordCount, stepped_succ] at hk
  rw [stepped_succ]
  have hword := memRead_generation_and_vmask (s := State.generations g (s.loadNext rule (g + 1))) (by simpa using hk)
  simpa using hword

/-! ### NEXT after NEXT (R102) -/

/-- Two NEXTs in turn leave the Row of one NEXT: the second takes up the datapath's input where the first left it. -/
theorem row_stepped_stepped (s : State) (rule a b : Nat) :
    ((s.stepped rule a).stepped rule b).row = (s.stepped rule (a + b)).row := by
  have hload : SameInput (s.loadNext rule a) (s.loadNext rule (a + b)) := ⟨rfl, rfl, rfl, fun _ _ => rfl⟩
  obtain ⟨hcfg, hrule, hlen, hmem⟩ := hload.generations a
  have hmid : SameInput ((s.stepped rule a).loadNext rule b) (State.generations a (s.loadNext rule (a + b))) :=
    ⟨hcfg, by simp, hlen, hmem⟩
  obtain ⟨hcfg', _, hlen', hmem'⟩ := hmid.generations b
  have hrow := row_eq_of _ _ hcfg' hlen' hmem'
  rwa [← generations_add] at hrow

/-- Settles O30: where the capacity allows all generations the Rows agree by `row_stepped_stepped`; where it allows only
the first NEXT, the others fail their check and leave the Row. -/
theorem generationsAdd : Obligations.GenerationsAdd := by
  unfold Obligations.GenerationsAdd
  intro rule a b s hrule hcap
  have hfirst := exec_next_of_ok (nextStatus_ok hrule hcap)
  by_cases hall : s.length + 2 * (a + b) ≤ s.cfg.capBits
  · have hsecond : nextStatus (s.stepped rule a).cfg (s.stepped rule a).length rule b = .ok :=
      nextStatus_ok hrule (by rw [stepped_length, stepped_cfg]; omega)
    refine ⟨_, _, _, hfirst, exec_next_of_ok hsecond, exec_next_of_ok (nextStatus_ok hrule hall), rfl, fun _ => ?_,
      fun hover => absurd hall (Nat.not_le.2 hover)⟩
    exact ⟨rfl, rfl, row_stepped_stepped s rule a b⟩
  · have hover : s.cfg.capBits < s.length + 2 * (a + b) := Nat.lt_of_not_le hall
    have hsecond : nextStatus (s.stepped rule a).cfg (s.stepped rule a).length rule b = .capacityExceeded :=
      nextStatus_capacityExceeded hrule (by rw [stepped_length, stepped_cfg]; omega)
    refine ⟨_, _, _, hfirst, exec_next_of_fail (by decide) hsecond,
      exec_next_of_fail (by decide) (nextStatus_capacityExceeded hrule hover), rfl, fun h => absurd h hall,
      fun _ => ?_⟩
    exact ⟨rfl, row_raise _ _, rfl, row_raise _ _⟩

end Sys2Proof.Machine

/-! ## O9, O12, O24, O29: the word-at-a-time datapath -/

namespace Sys2Proof.Machine

/-! ### The select is a word (R112) -/

section

variable {w : Nat} {rw : Word}

theorem minterm_lt (lw cw : Word) (hrw : rw < 2 ^ w) (idx : Nat) : minterm w lw cw rw idx < 2 ^ w :=
  Nat.and_lt_two_pow _ (passOrInvert_lt w _ rw hrw)

/-- No minterm has a bit beyond `W`, so their OR has none. -/
theorem applyW_lt (rule : BitVec 8) (lw cw : Word) (hrw : rw < 2 ^ w) : applyW w rule lw cw rw < 2 ^ w := by
  refine Nat.lt_pow_two_of_testBit _ fun j hj => ?_
  have hterm (idx : Nat) : (minterm w lw cw rw idx).testBit j = false :=
    testBit_eq_false_of_lt (minterm_lt lw cw hrw idx) hj
  rw [applyW, foldl_or_testBit]
  simp [hterm]

end

/-- Settles O9: the bound by `applyW_lt`, the bits by `applyW_testBit`. -/
theorem wordSelectIsApplyOnEveryBit : Obligations.WordSelectIsApplyOnEveryBit := by
  unfold Obligations.WordSelectIsApplyOnEveryBit
  exact fun w rule lw cw rw _ _ hrw =>
    ⟨applyW_lt rule lw cw hrw, fun j hj => applyW_testBit hj rule lw cw rw⟩

/-! ### The streams during a generation -/

/-- The words of a generation made so far leave the old Row as its commands see it (R115). -/
theorem bit_pipeWords_startGeneration (s : State) (k : Nat) (i : Int) :
    (State.pipeWords k s.startGeneration).bit i = s.bit i := by
  rw [State.bit, row_pipeWords, row_startGeneration, pipeWords_cfg, startGeneration_cfg, State.bit]

/-- Settles O12: the streams of any state whose `carry` holds the places before its word, as every word of a generation
finds it. -/
theorem streamsHoldTheNeighbours : Obligations.StreamsHoldTheNeighbours := by
  unfold Obligations.StreamsHoldTheNeighbours
  rintro s _ k t hw ht rfl
  have hcarry := pipeWords_carryHolds (s := s.startGeneration) hw (startGeneration_carryHolds s) k
  have hcfg : (State.pipeWords k s.startGeneration).cfg = s.cfg := by simp
  have hk : (State.pipeWords k s.startGeneration).k = k := by simp
  have hright := curWord_testBit_place (s := State.pipeWords k s.startGeneration) (hcfg ▸ ht)
  have hcentre := centreStream_testBit_eq_bit hcarry (hcfg ▸ ht)
  have hleft := leftStream_testBit_eq_bit (hcfg ▸ hw) hcarry (hcfg ▸ ht)
  rw [bit_pipeWords_startGeneration, hcfg, hk] at hright hcentre hleft
  exact ⟨hright, hcentre, hleft⟩

/-- Settles O24: it is `row_generation`. -/
theorem generationMatchesTheCells : Obligations.GenerationMatchesTheCells := by
  unfold Obligations.GenerationMatchesTheCells
  exact fun _ hw => row_generation hw

/-! ### Padding (R108) -/

section

variable {w : Nat} {r r' : Row}

/-- The bits of a Row are its cells, whatever its padding (R31). -/
theorem Row.bit_congr (hlen : r.length = r'.length) (hcell : ∀ i, i < r.length → r.cell w i = r'.cell w i) (i : Int) :
    r.bit w i = r'.bit w i := by
  by_cases h : 0 ≤ i ∧ i < r.length
  · obtain ⟨n, rfl⟩ := Int.eq_ofNat_of_zero_le h.1
    have hn : n < r.length := by omega
    rw [Row.bit_of_lt w r n hn, Row.bit_of_lt w r' n (hlen ▸ hn), hcell n hn]
  · rw [Row.bit_of_not w r i h, Row.bit_of_not w r' i (hlen ▸ h)]

/-- Rows of the same cells are taken to the same Row, word for word (R91, R94). -/
theorem Row.step_congr (rule : BitVec 8) (hlen : r.length = r'.length)
    (hcell : ∀ i, i < r.length → r.cell w i = r'.cell w i) : r.step w rule = r'.step w rule := by
  have hnext (j : Nat) : r.nextCell w rule j = r'.nextCell w rule j := by
    simp only [Row.nextCell, Row.bit_congr hlen hcell]
  have hword : r.nextWord w rule = r'.nextWord w rule := by
    funext k
    simp only [Row.nextWord, hnext, hlen]
  simp only [Row.step, hlen, hword]

end

/-- The Row a successful NEXT leaves (R97). -/
theorem row_stepped {s : State} (hw : 2 ≤ s.cfg.w) (rule gens : Nat) :
    (s.stepped rule gens).row = Row.stepN s.cfg.w (ruleByte rule) gens s.row :=
  row_generations (s := s.loadNext rule gens) hw gens

/-- Settles O29: the first generation makes the two Rows one by `Row.step_congr`, and the others go on from it. -/
theorem paddingNeverBecomesACell : Obligations.PaddingNeverBecomesACell := by
  unfold Obligations.PaddingNeverBecomesACell
  intro rule gens s s' hw hcfg hlen hcell hrule hpos hcap
  refine ⟨_, _, exec_next_of_ok (nextStatus_ok hrule hcap), exec_next_of_ok (nextStatus_ok hrule ?_), ?_⟩
  · rwa [← hcfg, ← hlen]
  · obtain ⟨g, rfl⟩ := Nat.exists_eq_add_one_of_ne_zero hpos.ne'
    have hstep : s.row.step s.cfg.w (ruleByte rule) = s'.row.step s.cfg.w (ruleByte rule) :=
      Row.step_congr _ hlen fun i hi => (hcell i hi).trans (by rw [State.cell, hcfg])
    rw [row_stepped hw, row_stepped (hcfg ▸ hw), ← hcfg, Row.stepN, Row.stepN, hstep]

end Sys2Proof.Machine

/-! ## O58: the word operations of a command -/

namespace Sys2Proof.Machine

/-! ### The accesses of a generation (R120) -/

@[simp] theorem isRead_read (k : Nat) : (Access.read k).isRead = true := rfl
@[simp] theorem isRead_write (k : Nat) : (Access.write k).isRead = false := rfl

section

variable (s : State)

/-- A run of words reads each old word it passes, once and in order (R107). -/
theorem pipeAccesses_reads (n : Nat) :
    (State.pipeAccesses n s).filter Access.isRead =
      (List.range' s.k (min n (s.wordCount - s.k))).map .read := by
  induction n generalizing s with
  | zero => simp [State.pipeAccesses]
  | succ n ih =>
    have hcount : s.pipeWord.wordCount = s.wordCount := rfl
    rw [State.pipeAccesses, List.filter_append, ih, hcount, pipeWord_k, State.pipeWordAccesses]
    by_cases h : s.k < s.wordCount
    · have hleft : min (n + 1) (s.wordCount - s.k) = min n (s.wordCount - (s.k + 1)) + 1 := by omega
      simp [h, hleft, List.range'_succ, List.filter_cons]
    · have hnone : s.wordCount - s.k = 0 := by omega
      have hnone' : s.wordCount - (s.k + 1) = 0 := by omega
      simp [h, hnone, hnone']

/-- A run of words writes each word it passes, once and in order (R115). -/
theorem pipeAccesses_writes (n : Nat) :
    (State.pipeAccesses n s).filter (fun a => !a.isRead) = (List.range' s.k n).map .write := by
  induction n generalizing s with
  | zero => rfl
  | succ n ih =>
    rw [State.pipeAccesses, List.filter_append, ih, pipeWord_k, State.pipeWordAccesses, List.range'_succ]
    by_cases h : s.k < s.wordCount <;> simp [h]

/-- A generation reads every old word, all of them among the new ones. -/
theorem generationAccesses_reads :
    s.generationAccesses.filter Access.isRead = (List.range s.wordCount).map .read := by
  have hmono : s.wordCount ≤ wordsFor s.cfg.w (s.length + 2) := wordsFor_mono _ (by omega)
  rw [State.generationAccesses, pipeAccesses_reads, startGeneration_k, wordCount_startGeneration, Nat.sub_zero,
    Nat.min_eq_right hmono, List.range_eq_range']

theorem generationAccesses_writes :
    s.generationAccesses.filter (fun a => !a.isRead) =
      (List.range (wordsFor s.cfg.w (s.length + 2))).map .write := by
  rw [State.generationAccesses, pipeAccesses_writes, startGeneration_k, List.range_eq_range']

theorem generationAccesses_countP_reads :
    s.generationAccesses.countP Access.isRead = wordsFor s.cfg.w s.length := by
  rw [List.countP_eq_length_filter, generationAccesses_reads, List.length_map, List.length_range, State.wordCount]

theorem generationAccesses_countP_writes :
    s.generationAccesses.countP (fun a => !a.isRead) = wordsFor s.cfg.w (s.length + 2) := by
  rw [List.countP_eq_length_filter, generationAccesses_writes, List.length_map, List.length_range]

/-- A count that one generation makes from its length alone is summed over the generations of a run (R161). -/
theorem generationsAccesses_countP {p : Access → Bool} {f : Nat → Nat → Nat}
    (hp : ∀ u : State, u.generationAccesses.countP p = f u.cfg.w u.length) (g : Nat) :
    (State.generationsAccesses g s).countP p = ((List.range g).map fun t => f s.cfg.w (s.length + 2 * t)).sum := by
  induction g generalizing s with
  | zero => rfl
  | succ g ih =>
    have hlater (t : Nat) : s.length + 2 + 2 * t = s.length + 2 * (t + 1) := by omega
    rw [State.generationsAccesses, List.countP_append, hp, ih, List.range_succ_eq_map]
    simp [Function.comp_def, hlater]

end

/-- Two more cells need at most one more word (R90). -/
theorem wordsFor_add_two_le {w : Nat} (hw : 2 ≤ w) (len : Nat) : wordsFor w (len + 2) ≤ wordsFor w len + 1 := by
  rw [wordsFor_add_two hw]
  split <;> omega

/-! ### The accesses of a command (R161) -/

section

variable {s : State}

theorem accesses_reserved {i : Instr} (hi : i.isReserved = true) : accesses i s = [] := by
  cases i with
  | construct | next | getw | getb | len => cases hi
  | _ => rfl

theorem accesses_construct_of_ok {n len : Nat} (p : List Word) (h : constructStatus s.cfg n len = .ok) :
    accesses (.construct n len p) s = (List.range (wordsFor s.cfg.w len)).map .write := if_pos h

theorem accesses_construct_of_error {n len : Nat} (p : List Word) (h : constructStatus s.cfg n len ≠ .ok) :
    accesses (.construct n len p) s = [] := if_neg h

theorem accesses_next_of_ok {rule gens : Nat} (h : nextStatus s.cfg s.length rule gens = .ok) :
    accesses (.next rule gens) s = State.generationsAccesses gens (s.loadNext rule gens) := if_pos h

theorem accesses_next_of_error {rule gens : Nat} (h : nextStatus s.cfg s.length rule gens ≠ .ok) :
    accesses (.next rule gens) s = [] := if_neg h

theorem accesses_getw_of_lt {idx : Nat} (h : idx < s.wordCount) : accesses (.getw idx) s = [.read idx] :=
  if_pos ((getwStatus_ok_iff _ _ _).2 h)

theorem accesses_getw_of_le {idx : Nat} (h : s.wordCount ≤ idx) : accesses (.getw idx) s = [] :=
  if_neg fun hok => Nat.not_lt.2 h ((getwStatus_ok_iff _ _ _).1 hok)

theorem accesses_getb_of_lt {j : Nat} (h : j < s.length) : accesses (.getb j) s = [.read (wordOf s.cfg.w j)] :=
  if_pos ((getbStatus_ok_iff _ _).2 h)

theorem accesses_getb_of_le {j : Nat} (h : s.length ≤ j) : accesses (.getb j) s = [] :=
  if_neg fun hok => Nat.not_lt.2 h ((getbStatus_ok_iff _ _).1 hok)

/-- A command that reads makes at most one access, and that a read. -/
theorem accesses_of_isRead {i : Instr} (hi : IsRead i) :
    (accesses i s).length ≤ 1 ∧ (accesses i s).all Access.isRead = true := by
  rcases hi with ⟨idx, rfl⟩ | ⟨j, rfl⟩ | rfl
  · by_cases h : idx < s.wordCount
    · rw [accesses_getw_of_lt h]; exact ⟨Nat.le_refl 1, rfl⟩
    · rw [accesses_getw_of_le (Nat.le_of_not_lt h)]; exact ⟨Nat.zero_le 1, rfl⟩
  · by_cases h : j < s.length
    · rw [accesses_getb_of_lt h]; exact ⟨Nat.le_refl 1, rfl⟩
    · rw [accesses_getb_of_le (Nat.le_of_not_lt h)]; exact ⟨Nat.zero_le 1, rfl⟩
  · exact ⟨Nat.zero_le 1, rfl⟩

theorem write_notMem_of_isRead {i : Instr} (hi : IsRead i) (j : Nat) : Access.write j ∉ accesses i s := fun hmem =>
  nomatch List.all_eq_true.1 (accesses_of_isRead hi).2 _ hmem

/-- The words an accepted CONSTRUCT writes are those its Row needs (R68, R70). -/
theorem write_mem_accesses_construct {n len j : Nat} {p : List Word} (h : constructStatus s.cfg n len = .ok) :
    Access.write j ∈ accesses (.construct n len p) s ↔ j < wordsFor s.cfg.w len := by
  simp [accesses_construct_of_ok p h]

/-- The words an accepted NEXT writes are those of its last Row. -/
theorem write_mem_accesses_next {rule gens j : Nat} (h : nextStatus s.cfg s.length rule gens = .ok) :
    Access.write j ∈ accesses (.next rule gens) s ↔ 0 < gens ∧ j < wordsFor s.cfg.w (s.length + 2 * gens) := by
  rw [accesses_next_of_ok h, write_mem_generationsAccesses, loadNext_cfg, loadNext_length]

/-- Which accesses a command makes follows from the parameters and the length alone (R121). -/
theorem accesses_congr (i : Instr) {s' : State} (hcfg : s'.cfg = s.cfg) (hlen : s'.length = s.length) :
    accesses i s' = accesses i s := by
  cases i with
  | construct | getw | getb => simp only [accesses, hcfg, hlen]
  | next rule gens =>
    have hrun := generationsAccesses_congr gens (s'.loadNext rule gens) (s.loadNext rule gens) hcfg hlen
    simp only [accesses, hcfg, hlen, hrun]
  | _ => rfl

end

/-! ### What a command leaves unchanged -/

section

variable {s t : State} {i : Instr}

/-- A command that reads leaves both banks: it only hands over its response (R36). -/
theorem exec_read_bank (hi : IsRead i) (he : exec i s = .next t) (b : Bool) : t.bank b = s.bank b := by
  obtain ⟨_, r, hr⟩ := exec_answers i s t he
  obtain ⟨hdeliver, _⟩ := ask_read hi (ask_eq_some he hr)
  rw [← bank_deliver t r, hdeliver, bank_deliver]

/-- No command changes a bank word outside the writes it is charged for. -/
theorem read_bank_of_write_notMem (hi : WellFormed s.cfg i = true) (he : exec i s = .next t) (b : Bool) {j : Nat}
    (hj : Access.write j ∉ accesses i s) : Bank.read (t.bank b) j = Bank.read (s.bank b) j := by
  by_cases hr : i.isReserved = true
  · cases (exec_reserved i s hr).symm.trans he
    rfl
  cases i with
  | construct n len p =>
    simp only [WellFormed, Bool.and_eq_true, decide_eq_true_eq] at hi
    obtain ⟨⟨_, rfl⟩, _⟩ := hi
    by_cases hok : constructStatus s.cfg p.length len = .ok
    · cases (exec_construct_of_ok hok).symm.trans he
      rw [write_mem_accesses_construct hok, Nat.not_lt] at hj
      rcases Bool.eq_or_eq_not b s.front with rfl | rfl
      · rw [installed_bank_front]
      · exact read_installed_of_le hok hj
    · cases (exec_construct_of_error hok rfl).symm.trans he
      rfl
  | next rule gens =>
    by_cases hok : nextStatus s.cfg s.length rule gens = .ok
    · cases (exec_next_of_ok hok).symm.trans he
      rw [write_mem_accesses_next hok] at hj
      rcases Nat.eq_zero_or_pos gens with rfl | hpos
      · rfl
      · exact read_generations_other gens (s.loadNext rule gens) b j (Nat.le_of_not_lt fun hlt => hj ⟨hpos, hlt⟩)
    · cases (exec_next_of_fail hok rfl).symm.trans he
      rfl
  | getw idx => rw [exec_read_bank (.inl ⟨idx, rfl⟩) he]
  | getb n => rw [exec_read_bank (.inr (.inl ⟨n, rfl⟩)) he]
  | len => rw [exec_read_bank (.inr (.inr rfl)) he]
  | _ => exact absurd rfl hr

end

/-! ### What a command depends on -/

/-- Two states of the same parameters and length that agree at every word a command is charged for reading. -/
structure SameReads (i : Instr) (s s' : State) : Prop where
  cfg : s'.cfg = s.cfg
  length : s'.length = s.length
  memRead : ∀ j, Access.read j ∈ accesses i s → s'.memRead j = s.memRead j

/-- What a command that is charged for the accesses `l` shows of its run: its response, the length, the words
written. -/
structure SameResult (l : List Access) (t t' : State) : Prop where
  rsp : t'.rsp = t.rsp
  length : t'.length = t.length
  memRead : ∀ j, Access.write j ∈ l → t'.memRead j = t.memRead j

section

variable {s s' t : State} {i : Instr}

theorem SameReads.wordCount (h : SameReads i s s') : s'.wordCount = s.wordCount := by
  rw [State.wordCount, h.cfg, h.length, State.wordCount]

/-- A command that fails raises the same error over both banks. -/
theorem SameReads.raise (h : SameReads i s s') (hnone : accesses i s = []) (e : Status) :
    SameResult (accesses i s) (s.raise e) (s'.raise e) :=
  ⟨rfl, h.length, fun _ hmem => nomatch hnone ▸ hmem⟩

/-- A command that reads shows its answer only. -/
theorem SameReads.respond (h : SameReads i s s') (hi : IsRead i) (v : Nat) :
    SameResult (accesses i s) (s.respond v) (s'.respond v) :=
  ⟨rfl, h.length, fun _ hmem => absurd hmem (write_notMem_of_isRead hi _)⟩

end

section

variable {s s' t : State}

/-- An accepted CONSTRUCT takes every word of its Row from the payload (R68). -/
theorem SameReads.construct {len : Nat} {p : List Word} (h : SameReads (.construct p.length len p) s s')
    (he : exec (.construct p.length len p) s = .next t) :
    ∃ t', exec (.construct p.length len p) s' = .next t' ∧ SameResult (accesses (.construct p.length len p) s) t t' := by
  by_cases hok : constructStatus s.cfg p.length len = .ok
  · have hok' : constructStatus s'.cfg p.length len = .ok := h.cfg ▸ hok
    cases (exec_construct_of_ok hok).symm.trans he
    refine ⟨_, exec_construct_of_ok hok', rfl, rfl, fun j hj => ?_⟩
    have hneeded := (write_mem_accesses_construct hok).1 hj
    have hw := w_pos_of_lt_wordsFor hneeded
    rw [State.installed, State.installed, memRead_respond, memRead_respond, memRead_construct s hw len p hok j hneeded,
      memRead_construct s' (h.cfg ▸ hw) len p hok' j (h.cfg ▸ hneeded), h.cfg]
  · cases (exec_construct_of_error hok rfl).symm.trans he
    exact ⟨_, exec_construct_of_error hok (h.cfg ▸ rfl), rfl, h.length,
      fun _ hmem => nomatch accesses_construct_of_error p hok ▸ hmem⟩

/-- An accepted NEXT of at least one generation is charged for reading the whole Row, which is all its datapath looks
at (R107). -/
theorem SameReads.next {rule gens : Nat} (h : SameReads (.next rule gens) s s')
    (he : exec (.next rule gens) s = .next t) :
    ∃ t', exec (.next rule gens) s' = .next t' ∧ SameResult (accesses (.next rule gens) s) t t' := by
  have hstatus : nextStatus s'.cfg s'.length rule gens = nextStatus s.cfg s.length rule gens := by
    rw [h.cfg, h.length]
  by_cases hok : nextStatus s.cfg s.length rule gens = .ok
  · cases (exec_next_of_ok hok).symm.trans he
    refine ⟨_, exec_next_of_ok (hstatus.trans hok), rfl, by rw [stepped_length, stepped_length, h.length],
      fun j hj => ?_⟩
    obtain ⟨hpos, hlt⟩ := (write_mem_accesses_next hok).1 hj
    have hinput : SameInput (s'.loadNext rule gens) (s.loadNext rule gens) := by
      refine ⟨h.cfg, rfl, h.length, fun k hk => h.memRead k ?_⟩
      rw [wordCount_loadNext, h.wordCount] at hk
      rw [accesses_next_of_ok hok]
      exact read_mem_generationsAccesses gens _ k hpos hk
    obtain ⟨_, _, hmem⟩ := (hinput.generations gens).archEq
    refine hmem j ?_
    rwa [State.wordCount, generations_cfg, generations_length, loadNext_cfg, loadNext_length, h.cfg, h.length]
  · cases (exec_next_of_fail hok rfl).symm.trans he
    exact ⟨_, exec_next_of_fail hok hstatus, h.raise (accesses_next_of_error hok) _⟩

/-- GETW answers the one word it is charged for (R76). -/
theorem SameReads.getw {idx : Nat} (h : SameReads (.getw idx) s s') (he : exec (.getw idx) s = .next t) :
    ∃ t', exec (.getw idx) s' = .next t' ∧ SameResult (accesses (.getw idx) s) t t' := by
  have hread : IsRead (.getw idx) := .inl ⟨idx, rfl⟩
  rcases execGetw_cases idx s with ⟨hle, e⟩ | ⟨hlt, hmax, e⟩ | ⟨_, _, e⟩
  · cases e.symm.trans he
    exact ⟨_, exec_getw_of_le (h.wordCount ▸ hle), h.raise (accesses_getw_of_le hle) _⟩
  · cases e.symm.trans he
    have hword := h.memRead idx (by simp [accesses_getw_of_lt hlt])
    exact ⟨_, exec_getw_of_lt (h.wordCount ▸ hlt) (h.cfg ▸ hmax), hword ▸ h.respond hread _⟩
  · cases e.symm.trans he

/-- GETB answers a bit of the one word it is charged for (R75). -/
theorem SameReads.getb {n : Nat} (h : SameReads (.getb n) s s') (he : exec (.getb n) s = .next t) :
    ∃ t', exec (.getb n) s' = .next t' ∧ SameResult (accesses (.getb n) s) t t' := by
  have hread : IsRead (.getb n) := .inr (.inl ⟨n, rfl⟩)
  rcases execGetb_cases n s with ⟨hle, e⟩ | ⟨hlt, hmax, e⟩ | ⟨_, _, e⟩
  · cases e.symm.trans he
    exact ⟨_, exec_getb_of_le (h.length ▸ hle), h.raise (accesses_getb_of_le hle) _⟩
  · cases e.symm.trans he
    have hword := h.memRead _ (by rw [accesses_getb_of_lt hlt]; exact List.mem_singleton_self _)
    refine ⟨_, exec_getb_of_lt (h.length ▸ hlt) (h.cfg ▸ hmax), ?_⟩
    rw [h.cfg, hword]
    exact h.respond hread _
  · cases e.symm.trans he

/-- A command's response, the length it leaves and every word it writes depend on the words it is charged for reading
alone. -/
theorem SameReads.exec {i : Instr} (h : SameReads i s s') (hi : WellFormed s.cfg i = true) (he : exec i s = .next t) :
    ∃ t', Machine.exec i s' = .next t' ∧ SameResult (accesses i s) t t' := by
  by_cases hr : i.isReserved = true
  · cases (exec_reserved i s hr).symm.trans he
    exact ⟨_, exec_reserved i s' hr, h.raise (accesses_reserved hr) _⟩
  cases i with
  | construct n len p =>
    simp only [WellFormed, Bool.and_eq_true, decide_eq_true_eq] at hi
    obtain ⟨⟨_, rfl⟩, _⟩ := hi
    exact h.construct he
  | next rule gens => exact h.next he
  | getw idx => exact h.getw he
  | getb n => exact h.getb he
  | len =>
    cases he
    exact ⟨_, rfl, h.length ▸ h.respond (.inr (.inr rfl)) _⟩
  | _ => exact absurd rfl hr

end

/-- Settles O58: the counts follow the lists of accesses of a generation, and the lists are tied to `exec` by
`read_bank_of_write_notMem` and `SameReads.exec`. -/
theorem costIsWordGranular : Obligations.CostIsWordGranular := by
  unfold Obligations.CostIsWordGranular
  intro s hw
  refine ⟨generationAccesses_reads s, generationAccesses_writes s, wordsFor_add_two_le hw s.length,
    fun rule gens hrule hcap => ?_, fun i hi => accesses_of_isRead hi, fun n len p hok => ?_, fun i t hi he => ?_⟩
  · rw [accesses_next_of_ok (nextStatus_ok hrule hcap)]
    exact ⟨generationsAccesses_countP _ generationAccesses_countP_reads gens,
      generationsAccesses_countP (f := fun w len => wordsFor w (len + 2)) _ generationAccesses_countP_writes gens⟩
  · rw [accesses_construct_of_ok p hok]
    simp [List.countP_map, Function.comp_def]
  · refine ⟨fun b j hj => read_bank_of_write_notMem hi he b hj, ?_⟩
    rintro b0 b1 _ rfl hreads
    have hsame : SameReads i s { s with bank0 := b0, bank1 := b1 } := ⟨rfl, rfl, hreads⟩
    obtain ⟨t', he', hrsp, hlen, hmem⟩ := hsame.exec hi he
    exact ⟨t', he', hrsp, hlen, accesses_congr i rfl rfl, hmem⟩

end Sys2Proof.Machine

/-! ## O56, O57: bit strings -/

namespace Sys2Proof.Machine

section

variable {s s' t : State}

/-- GETB of a cell of the Row cannot fail under the invariant, and answers that cell (R29, R75). -/
theorem ask_getb_of_lt (h : s.CoreInv) {i : Nat} (hi : i < s.length) :
    ask (.getb i) s =
      some ({ status := .ok, val := (s.cell i).toNat }, s.deliver { status := .ok, val := (s.cell i).toNat }) := by
  have he := exec_getb_of_lt hi (wordOf_lt_maxWords h.w_pos h.length_le hi)
  rw [memRead_shift_eq_cell h.w_pos hi] at he
  exact ask_of_respond he

/-- The expansion of TOBITSTRING, by the answers to its commands (R65). -/
theorem toBitString_of_answers {r : Response} {rs : List Response} (hlen : ask .len s = some (r, s'))
    (hcells : askAll ((List.range r.val).map .getb) s' = some (rs, t)) :
    toBitString s = some (rs.map fun q => digit (q.val == 1), t) := by
  simp [toBitString, hlen, hcells]

/-- TOBITSTRING answers the cells of the Row (R122): each of its GETBs asks for a cell that exists. -/
theorem toBitString_answers (h : s.CoreInv) :
    (toBitString s).map Prod.fst = some ((s.row.cells s.cfg.w).map digit) := by
  have hlen := ask_of_respond (i := .len) (s := s) rfl
  have hgetbs := askAll_reads .getb _ (List.range s.length)
    (s := s.deliver { status := .ok, val := s.length }) fun i hi =>
      have hread : IsRead (.getb i) := .inr (.inl ⟨i, rfl⟩)
      ⟨hread, (ask_read hread (ask_getb_of_lt h (List.mem_range.1 hi))).2 _⟩
  have hcell (b : Bool) : (b.toNat == 1) = b := by cases b <;> rfl
  rw [toBitString_of_answers hlen hgetbs]
  simp [Row.cells, State.cell, hcell]

/-- Unpacking the words of a snapshot answers the same (R65): the snapshot is the Row. -/
theorem toBitStringByWords_answers (h : s.CoreInv) :
    (toBitStringByWords s).map Prod.fst = some ((s.row.cells s.cfg.w).map digit) := by
  obtain ⟨_, hsnap, _⟩ := snapshot_answers h
  simp [toBitStringByWords, hsnap]

end

/-- Settles O56: what each of the two expansions answers. -/
theorem bitStringIsTheCells : Obligations.BitStringIsTheCells := by
  unfold Obligations.BitStringIsTheCells
  intro s hs
  have hc := ((inv_iff s).1 hs).1
  exact ⟨toBitString_answers hc, toBitStringByWords_answers hc⟩

/-! ### Seeding (R126) -/

/-- A Row that a block can hold is replayed by a command an assembler emits (R62). -/
theorem wellFormed_replay {c : Config} (hc : c.legal = true) {r : Row} (hr : r.Fits c) :
    WellFormed c (replay r) = true := by
  obtain ⟨hcount, hcap, hlt⟩ := hr
  have hw := Config.legal_w_pos hc
  obtain ⟨_, _, _, haw⟩ := (Config.legal_iff c).1 hc
  have hwords : r.words.length ≤ c.capBits :=
    calc r.words.length ≤ c.maxWords := hcount ▸ wordsFor_le_maxWords hw hcap
      _ ≤ c.capBits := Nat.le_mul_of_pos_left _ hw
  simp only [replay, WellFormed, fits, Bool.and_eq_true, decide_eq_true_eq, List.all_eq_true]
  exact ⟨⟨⟨hwords.trans_lt haw, hcap.trans_lt haw⟩, trivial⟩, hlt⟩

/-- The Row that seeding with a bit string is to leave. -/
def seedRow (w : Nat) (cells : List Bool) : Row := { length := cells.length, words := seedWords w cells }

section

variable {w : Nat} {cells : List Bool}

@[simp] theorem seedWords_length : (seedWords w cells).length = wordsFor w cells.length := by simp [seedWords]

/-- The seeding command is the one that replays the Row to be left. -/
theorem seed_eq_replay (w : Nat) (cells : List Bool) : seed w cells = replay (seedRow w cells) := by
  simp [seed, replay, seedRow]

/-- A bit string within the capacity makes a Row the block can hold. -/
theorem seedRow_fits {c : Config} (hcap : cells.length ≤ c.capBits) : (seedRow c.w cells).Fits c where
  count := seedWords_length
  length_le := hcap
  words_lt := by
    intro v hv
    obtain ⟨k, _, rfl⟩ := List.mem_map.1 hv
    exact (packWord_spec c.w _).1

/-- The packing of R126 is undone by the reading of R29. -/
theorem seedRow_cell (hw : 0 < w) {i : Nat} (hi : i < cells.length) : (seedRow w cells).cell w i = cells[i] := by
  have hword : (seedWords w cells).getD (wordOf w i) 0 = packWord w fun t => cells.getD (wordOf w i * w + t) false := by
    simp [seedWords, List.getD_eq_getElem?_getD, wordOf_lt hw hi]
  rw [Row.cell, seedRow, hword, bitOf, (packWord_spec w _).2 _ (Nat.mod_lt i hw), wordOf, Nat.div_add_mod',
    List.getD_eq_getElem _ _ hi]

theorem seedRow_cells (hw : 0 < w) : (seedRow w cells).cells w = cells := by
  refine List.ext_getElem (by simp [Row.cells, seedRow]) fun i _ hi => ?_
  rw [← seedRow_cell hw hi]
  simp [Row.cells]

end

/-- Settles O57: seeding is the replay of a Row of those cells, which the block can hold. -/
theorem seedingGivesTheCells : Obligations.SeedingGivesTheCells := by
  unfold Obligations.SeedingGivesTheCells
  intro cells s hc hcap
  have hw := Config.legal_w_pos hc
  have hfits := seedRow_fits hcap
  obtain ⟨t, he, hrsp, hrow⟩ := exec_replay hw hfits
  have hlength : t.length = cells.length := congrArg Row.length hrow
  rw [seed_eq_replay]
  exact ⟨t, he, hrsp, hlength, hrow ▸ seedRow_cells hw, wellFormed_replay hc hfits⟩

end Sys2Proof.Machine

/-! ## O34, O35, O36: errors -/

namespace Sys2Proof.Machine

/-- The status a command answers with, from the rules of its own check (R129 to R133, R136). -/
def commandStatus (i : Instr) (s : State) : Status :=
  match i with
  | .construct n len _ => constructStatus s.cfg n len
  | .next rule gens => nextStatus s.cfg s.length rule gens
  | .getw idx => getwStatus s.cfg s.length idx
  | .getb j => getbStatus s.length j
  | .len => .ok
  | _ => .illegalCommand

/-- A state left by a command that raised `e` in `s`: the error is all that happened, but for the framer's registers, which
a CONSTRUCT loads before its checks (R73, R128, log 15). -/
def RaisedFrom (s t : State) (e : Status) : Prop :=
  ∃ payloadLeft nQ lenQ keep,
    t = State.raise { s with payloadLeft := payloadLeft, nQ := nQ, lenQ := lenQ, keep := keep } e

section

variable {s t : State} {i : Instr} {r : Response} {e : Status}

theorem commandStatus_reserved (hi : i.isReserved = true) : commandStatus i s = .illegalCommand := by
  cases i with
  | construct | next | getw | getb | len => cases hi
  | _ => rfl

theorem raisedFrom_raise (s : State) (e : Status) : RaisedFrom s (s.raise e) e := ⟨_, _, _, _, rfl⟩

theorem RaisedFrom.rsp (h : RaisedFrom s t e) : t.rsp = some { status := e, val := 0 } := by
  obtain ⟨_, _, _, _, rfl⟩ := h; rfl

theorem RaisedFrom.row (h : RaisedFrom s t e) : t.row = s.row := by
  obtain ⟨_, _, _, _, rfl⟩ := h; rfl

/-! ### What a command answers -/

/-- A command answers as its status says: a value where the status is OK, and otherwise nothing but the error. -/
theorem exec_answer_cases (he : exec i s = .next t) :
    (commandStatus i s = .ok ∧ ∃ v, t.rsp = some { status := .ok, val := v }) ∨
    (commandStatus i s ≠ .ok ∧ RaisedFrom s t (commandStatus i s)) := by
  by_cases hi : i.isReserved = true
  · cases (exec_reserved i s hi).symm.trans he
    rw [commandStatus_reserved hi]
    exact .inr ⟨by decide, raisedFrom_raise s _⟩
  cases i with
  | construct n len p =>
    rcases execConstruct_cases n len p s with ⟨hok, e⟩ | ⟨hfail, e⟩ <;> cases e.symm.trans he
    · exact .inl ⟨hok, 0, rfl⟩
    · exact .inr ⟨hfail, _, _, _, _, rfl⟩
  | next rule gens =>
    rcases execNext_cases rule gens s with ⟨hok, e⟩ | ⟨hfail, e⟩ <;> cases e.symm.trans he
    · exact .inl ⟨hok, 0, rfl⟩
    · exact .inr ⟨hfail, raisedFrom_raise s _⟩
  | getw idx =>
    rcases execGetw_cases idx s with ⟨hle, e⟩ | ⟨hlt, _, e⟩ | ⟨_, _, e⟩ <;> cases e.symm.trans he
    · have hstatus : commandStatus (.getw idx) s = .outOfRange := if_pos hle
      rw [hstatus]
      exact .inr ⟨by decide, raisedFrom_raise s _⟩
    · exact .inl ⟨(getwStatus_ok_iff _ _ _).2 hlt, _, rfl⟩
  | getb j =>
    rcases execGetb_cases j s with ⟨hle, e⟩ | ⟨hlt, _, e⟩ | ⟨_, _, e⟩ <;> cases e.symm.trans he
    · have hstatus : commandStatus (.getb j) s = .outOfRange := if_pos hle
      rw [hstatus]
      exact .inr ⟨by decide, raisedFrom_raise s _⟩
    · exact .inl ⟨(getbStatus_ok_iff _ _).2 hlt, _, rfl⟩
  | len => cases he; exact .inl ⟨rfl, _, rfl⟩
  | _ => exact absurd rfl hi

theorem status_of_exec (he : exec i s = .next t) (hr : t.rsp = some r) : r.status = commandStatus i s := by
  rcases exec_answer_cases he with ⟨hok, v, hv⟩ | ⟨_, hraised⟩
  · cases hv.symm.trans hr; exact hok.symm
  · cases hraised.rsp.symm.trans hr; rfl

theorem raisedFrom_of_exec (he : exec i s = .next t) (hr : t.rsp = some r) (hne : r.status ≠ .ok) :
    r.val = 0 ∧ RaisedFrom s t r.status := by
  have hstatus := status_of_exec he hr
  rcases exec_answer_cases he with ⟨hok, _⟩ | ⟨_, hraised⟩
  · exact absurd (hstatus.trans hok) hne
  · cases hraised.rsp.symm.trans hr
    exact ⟨rfl, hraised⟩

end

/-! ### Which error, and when (R129 to R133) -/

theorem Status.code_inj {a b : Status} : a.code = b.code ↔ a = b := by cases a <;> cases b <;> decide

section

variable (c : Config) (length rule gens n len idx j : Nat)

/-- NEXT's status, by its checks in their order (R98, R100, R136). -/
theorem nextStatus_cases :
    (255 < rule ∧ nextStatus c length rule gens = .invalidRule) ∨
    (rule ≤ 255 ∧ c.capBits < length + 2 * gens ∧ nextStatus c length rule gens = .capacityExceeded) ∨
    (rule ≤ 255 ∧ length + 2 * gens ≤ c.capBits ∧ nextStatus c length rule gens = .ok) := by
  unfold nextStatus
  split
  · exact .inl ⟨by omega, rfl⟩
  · split
    · exact .inr (.inl ⟨by omega, by omega, rfl⟩)
    · exact .inr (.inr ⟨by omega, by omega, rfl⟩)

/-- CONSTRUCT's status, by its checks in their order (R69, R72, R136). -/
theorem constructStatus_cases :
    (c.w * n < len ∧ constructStatus c n len = .invalidConstruction) ∨
    (len ≤ c.w * n ∧ c.maxWords < wordsFor c.w len ∧ constructStatus c n len = .capacityExceeded) ∨
    (len ≤ c.w * n ∧ wordsFor c.w len ≤ c.maxWords ∧ constructStatus c n len = .ok) := by
  unfold constructStatus
  split
  · exact .inl ⟨by omega, rfl⟩
  · split
    · exact .inr (.inl ⟨by omega, by omega, rfl⟩)
    · exact .inr (.inr ⟨by omega, by omega, rfl⟩)

theorem getwStatus_cases :
    (wordsFor c.w length ≤ idx ∧ getwStatus c length idx = .outOfRange) ∨
    (idx < wordsFor c.w length ∧ getwStatus c length idx = .ok) := by
  unfold getwStatus
  split
  · exact .inl ⟨by omega, rfl⟩
  · exact .inr ⟨by omega, rfl⟩

theorem getbStatus_cases :
    (length ≤ j ∧ getbStatus length j = .outOfRange) ∨ (j < length ∧ getbStatus length j = .ok) := by
  unfold getbStatus
  split
  · exact .inl ⟨by omega, rfl⟩
  · exact .inr ⟨by omega, rfl⟩

end

/-- Which error a command's status is: each by its rule, for exactly the commands the rule names. The words of a length
fit a bank exactly where its cells fit the capacity, which R132 speaks of. -/
theorem commandStatus_eq_iff (i : Instr) (s : State) (hw : 0 < s.cfg.w) :
    (commandStatus i s = .invalidRule ↔ ∃ rule gens, i = .next rule gens ∧ 255 < rule) ∧
    (commandStatus i s = .outOfRange ↔
      (∃ j, i = .getb j ∧ s.length ≤ j) ∨ ∃ idx, i = .getw idx ∧ s.wordCount ≤ idx) ∧
    (commandStatus i s = .invalidConstruction ↔ ∃ n len p, i = .construct n len p ∧ s.cfg.w * n < len) ∧
    (commandStatus i s = .capacityExceeded ↔
      (∃ rule gens, i = .next rule gens ∧ rule ≤ 255 ∧ s.cfg.capBits < s.length + 2 * gens) ∨
      ∃ n len p, i = .construct n len p ∧ len ≤ s.cfg.w * n ∧ s.cfg.capBits < len) ∧
    (commandStatus i s = .illegalCommand ↔ i.isReserved = true) := by
  cases i with
  | construct n len p =>
    have hfits : wordsFor s.cfg.w len ≤ s.cfg.maxWords ↔ len ≤ s.cfg.capBits := wordsFor_le_iff hw len s.cfg.maxWords
    rcases constructStatus_cases s.cfg n len with ⟨h, e⟩ | ⟨h, h', e⟩ | ⟨h, h', e⟩ <;>
      simp [commandStatus, e, h, Instr.isReserved] <;> omega
  | next rule gens =>
    rcases nextStatus_cases s.cfg s.length rule gens with ⟨h, e⟩ | ⟨h, h', e⟩ | ⟨h, h', e⟩ <;>
      simp [commandStatus, e, h, Instr.isReserved] <;> omega
  | getw idx =>
    rcases getwStatus_cases s.cfg s.length idx with ⟨h, e⟩ | ⟨h, e⟩ <;>
      simp [commandStatus, e, h, State.wordCount, Instr.isReserved]
  | getb j =>
    rcases getbStatus_cases s.length j with ⟨h, e⟩ | ⟨h, e⟩ <;> simp [commandStatus, e, h, Instr.isReserved]
  | _ => simp [commandStatus, Instr.isReserved]

/-- Settles O35: the status of the response is `commandStatus`, its codes are distinct, and an error is raised over the
Row as it was. -/
theorem eachErrorExactlyWhenItsRuleSays : Obligations.EachErrorExactlyWhenItsRuleSays := by
  unfold Obligations.EachErrorExactlyWhenItsRuleSays
  intro i s t r hw he hr
  have hcode (e : Status) : r.status.code = e.code ↔ commandStatus i s = e := by
    rw [Status.code_inj, status_of_exec he hr]
  obtain ⟨hrule, hrange, hsize, hcap, hillegal⟩ := commandStatus_eq_iff i s hw
  refine ⟨(hcode .invalidRule).trans hrule, (hcode .outOfRange).trans hrange, (hcode .invalidConstruction).trans hsize,
    (hcode .capacityExceeded).trans hcap, (hcode .illegalCommand).trans hillegal, fun hne => ?_⟩
  obtain ⟨hval, hraised⟩ := raisedFrom_of_exec he hr fun hok => hne (congrArg Status.code hok)
  exact ⟨hval, hraised.row⟩

/-! ### Which errors a command has (R146) -/

/-- Settles O36: what the status function of each command can be. -/
theorem commandsRaiseOnlyTheirErrors : Obligations.CommandsRaiseOnlyTheirErrors := by
  unfold Obligations.CommandsRaiseOnlyTheirErrors
  intro i s t he
  obtain ⟨hbusy, r, hr⟩ := exec_answers i s t he
  refine ⟨r, hr, hbusy, ?_⟩
  rw [status_of_exec he hr]
  refine ⟨?_, ?_, ?_, ?_, ?_, commandStatus_reserved⟩
  · rintro n len p rfl
    rcases constructStatus_cases s.cfg n len with ⟨_, e⟩ | ⟨_, _, e⟩ | ⟨_, _, e⟩ <;> simp [commandStatus, e]
  · rintro rule gens rfl
    rcases nextStatus_cases s.cfg s.length rule gens with ⟨_, e⟩ | ⟨_, _, e⟩ | ⟨_, _, e⟩ <;> simp [commandStatus, e]
  · rintro idx rfl
    rcases getwStatus_cases s.cfg s.length idx with ⟨_, e⟩ | ⟨_, e⟩ <;> simp [commandStatus, e]
  · rintro j rfl
    rcases getbStatus_cases s.length j with ⟨_, e⟩ | ⟨_, e⟩ <;> simp [commandStatus, e]
  · rintro rfl
    rfl

/-! ### The command after an error (R128) -/

/-- Two states of the same parameters and length whose front banks read alike everywhere. -/
structure SameFront (s t : State) : Prop where
  cfg : s.cfg = t.cfg
  length : s.length = t.length
  memRead : ∀ k, s.memRead k = t.memRead k

section

variable {s t : State}

theorem SameFront.archEq (h : SameFront s t) : ArchEq s t := ⟨h.cfg, h.length, fun k _ => h.memRead k⟩

/-- An error leaves all that the next command reads (R128). -/
theorem RaisedFrom.sameFront {e : Status} (h : RaisedFrom s t e) (r : Response) : SameFront s (t.deliver r) := by
  obtain ⟨_, _, _, _, rfl⟩ := h
  exact ⟨rfl, rfl, fun _ => rfl⟩

/-- A Row that a CONSTRUCT installs is its payload's, in every configuration: with words of no bits it has no word. -/
theorem ArchEq.installed (h : ArchEq s t) {len : Nat} {p : List Word}
    (hok : constructStatus s.cfg p.length len = .ok) : ArchEq (s.installed len p) (t.installed len p) := by
  have hcfg : (s.installed len p).cfg = s.cfg := by rw [installed_eq hok]
  have hcfg' : (t.installed len p).cfg = t.cfg := by rw [installed_eq (h.1 ▸ hok)]
  refine ⟨by rw [hcfg, hcfg', h.1], rfl, fun k hk => ?_⟩
  have hneeded : k < wordsFor s.cfg.w len := hcfg ▸ hk
  obtain ⟨_, _, hwords⟩ := h.construct (w_pos_of_lt_wordsFor hneeded) len p hok
  exact hwords k hk

theorem ArchEq.execConstruct_of_any_width (h : ArchEq s t) (len : Nat) (p : List Word) :
    AnswersAlike (Machine.exec (.construct p.length len p) s) (Machine.exec (.construct p.length len p) t) := by
  have hstatus : constructStatus t.cfg p.length len = constructStatus s.cfg p.length len := by rw [h.1]
  by_cases hok : constructStatus s.cfg p.length len = .ok
  · rw [exec_construct_of_ok hok, exec_construct_of_ok (hstatus.trans hok)]
    exact .inl ⟨_, _, _, rfl, rfl, rfl, rfl, h.installed hok⟩
  · rw [exec_construct_of_error hok rfl, exec_construct_of_error hok hstatus]
    exact .inl ⟨_, _, _, rfl, rfl, rfl, rfl, h⟩

/-- GETB reads a word of the front bank, even where no word holds a cell. -/
theorem SameFront.execGetb (h : SameFront s t) (j : Nat) : AnswersAlike (execGetb j s) (execGetb j t) := by
  unfold Machine.execGetb
  rw [← h.cfg, ← h.length, ← h.memRead]
  split
  · split
    · exact h.archEq.respond _
    · exact answersAlike_fault _
  · exact h.archEq.raise _

/-- Every command answers alike over front banks that read alike, in a configuration that need not be legal. -/
theorem SameFront.exec (h : SameFront s t) {i : Instr} (hi : WellFormed s.cfg i = true) :
    AnswersAlike (exec i s) (exec i t) := by
  by_cases hr : i.isReserved = true
  · rw [exec_reserved i s hr, exec_reserved i t hr]
    exact h.archEq.raise _
  cases i with
  | construct n len p =>
    simp only [WellFormed, Bool.and_eq_true, decide_eq_true_eq] at hi
    obtain ⟨⟨_, rfl⟩, _⟩ := hi
    exact h.archEq.execConstruct_of_any_width len p
  | next rule gens => exact h.archEq.execNext rule gens
  | getw idx => exact h.archEq.execGetw idx
  | getb j => exact h.execGetb j
  | len =>
    show AnswersAlike (.next (s.respond s.length)) (.next (t.respond t.length))
    rw [h.length]
    exact h.archEq.respond _
  | _ => exact absurd rfl hr

/-- What the host sees of a command is a matter of its outcome: the same response, or none, and the same Row. -/
theorem AnswersAlike.ask_row {i : Instr} (h : AnswersAlike (exec i s) (exec i t)) :
    (ask i s).map (fun a => (a.1, a.2.row)) = (ask i t).map fun a => (a.1, a.2.row) := by
  rcases h with ⟨s', t', r, es, et, hrs, hrt, hc, hl, hm⟩ | ⟨f, es, et⟩
  · rw [ask_eq_some es hrs, ask_eq_some et hrt]
    simp [row_eq_of s' t' hc hl hm]
  · rw [ask_of_fault es, ask_of_fault et]

end

/-- Settles O34: the error was raised over the state as it was, whose front bank the next command reads. -/
theorem errorsChangeNoArchitecturalState : Obligations.ErrorsChangeNoArchitecturalState := by
  unfold Obligations.ErrorsChangeNoArchitecturalState
  intro i s t r he hr hne
  obtain ⟨hval, hraised⟩ := raisedFrom_of_exec he hr hne
  refine ⟨hval, hraised.row, ?_, fun j hj => ((hraised.sameFront r).exec hj).ask_row.symm⟩
  obtain ⟨status, val⟩ := r
  obtain rfl : val = 0 := hval
  obtain ⟨_, _, _, _, rfl⟩ := hraised
  rfl

end Sys2Proof.Machine

/-! ## O51: safety -/

namespace Sys2Proof.Machine

/-- The idle block waits, takes a header, or runs a command, which stays within the banks. -/
theorem fetchAndRun_not_fault {s : State} (h : s.CoreInv) (f : Fault) : fetchAndRun s ≠ .fault f := by
  rcases fetchAndRun_cases s with ⟨_, hwait⟩ | ⟨_, _, _, _, _, hheader⟩ | ⟨i, rest, _, _, hrun⟩
  · rw [hwait]; nofun
  · rw [hheader]; nofun
  · rw [hrun]; exact exec_not_fault (h.takeBeats rest) i f

theorem step_not_fault {s : State} (h : s.CoreInv) (f : Fault) : step s ≠ .fault f := by
  rcases step_cases s with ⟨_, e⟩ | ⟨_, _, e⟩ | ⟨_, _, _, _, e⟩ | ⟨_, _, _, _, e⟩ | ⟨_, _, _, _, e⟩ <;> rw [e]
  · nofun
  · nofun
  · nofun
  · nofun
  · exact fetchAndRun_not_fault h f

/-- Settles O51: only an illegal configuration is refused, and only a read beyond the capacity faults. -/
theorem stepsAreSafe : Obligations.StepsAreSafe := by
  unfold Obligations.StepsAreSafe
  intro s hs
  cases hout : step s with
  | next t => exact ⟨t, rfl⟩
  | fault f => exact absurd hout (step_not_fault ((inv_iff s).1 hs).1 f)
  | refused r =>
    obtain ⟨hillegal, _⟩ := (step_eq_refused_iff s r).1 hout
    exact absurd (hillegal.symm.trans hs.legal) Bool.false_ne_true

end Sys2Proof.Machine

/-! ## O32, O38, O39: the capacity in generations, and reset -/

namespace Sys2Proof.Machine

/-- Settles O32: NEXT answers OK exactly if its status is ok, and there R100's sum is a bound on `g`. -/
theorem generationsPossibleUpToCapacity : Obligations.GenerationsPossibleUpToCapacity := by
  unfold Obligations.GenerationsPossibleUpToCapacity
  intro rule gens s hrule hlen
  constructor
  · rintro ⟨t, he, hrsp⟩
    have hok : Status.ok = nextStatus s.cfg s.length rule gens := status_of_exec he hrsp
    obtain ⟨_, hcap⟩ := (nextStatus_ok_iff _ _ _ _).1 hok.symm
    omega
  · intro hgens
    exact ⟨_, exec_next_of_ok (nextStatus_ok hrule (by omega)), rfl⟩

/-- A Row of length 0 has no word (R15, R148). -/
theorem row_of_length_eq_zero {s : State} (h : s.length = 0) : s.row = { length := 0, words := [] } := by
  have hcount : s.wordCount = 0 := by rw [State.wordCount, h, wordsFor_zero]
  rw [State.row, hcount, h]
  rfl

/-- Reset comes before everything else a step does (R147). -/
theorem step_of_rst {s : State} (hl : s.cfg.legal = true) (hrst : s.rst = true) : step s = .next s.resetEdge := by
  simp [step, hl, hrst]

/-- Settles O39: the step is `resetEdge`, which leaves length 0 and keeps the host's side. -/
theorem resetWins : Obligations.ResetWins := by
  unfold Obligations.ResetWins
  intro s hl hrst
  exact ⟨s.resetEdge, step_of_rst hl hrst, rfl, row_of_length_eq_zero rfl, rfl, rfl, rfl, rfl, rfl, rfl, rfl, rfl⟩

/-- The empty Row fits every block (R13 to R15). -/
theorem emptyRow_fits (c : Config) : Row.Fits c { length := 0, words := [] } where
  count := (wordsFor_zero c.w).symm
  length_le := Nat.zero_le _
  words_lt := by simp

/-- Settles O38: every index is beyond the empty Row, NEXT is `row_stepped` on it, and `CONSTRUCT 0, 0, []` replays it. -/
theorem resetStateIsTheEmptyRow : Obligations.ResetStateIsTheEmptyRow := by
  unfold Obligations.ResetStateIsTheEmptyRow
  intro c hc
  have hempty : (State.resetWith c).row = { length := 0, words := [] } := row_of_length_eq_zero rfl
  have hcount : (State.resetWith c).wordCount = 0 := wordsFor_zero c.w
  obtain ⟨hw, _⟩ := (Config.legal_iff c).1 hc
  refine ⟨hempty, hcount, rfl, rfl, rfl, fun idx => ?_, fun i => ?_, fun rule gens hrule hcap => ?_, ?_⟩
  · rw [ask_of_raise (exec_getw_of_le (hcount ▸ Nat.zero_le idx))]
    rfl
  · rw [ask_of_raise (exec_getb_of_le (Nat.zero_le i))]
    rfl
  · have hok : nextStatus c 0 rule gens = .ok := (nextStatus_ok_iff _ _ _ _).2 ⟨hrule, by omega⟩
    refine ⟨_, exec_next_of_ok hok, rfl, ?_⟩
    rw [row_stepped (show 2 ≤ c.w by omega), hempty]
    rfl
  · rintro s rfl
    rw [hempty]
    exact exec_replay (Config.legal_w_pos hc) (emptyRow_fits s.cfg)

end Sys2Proof.Machine

/-! ## O41: a command is answered in two steps -/

namespace Sys2Proof.Machine

/-- Settles O41: one step executes the command, which under the invariant is answered, and one hands the response over. -/
theorem commandIsAnsweredInTwoSteps : Obligations.CommandIsAnsweredInTwoSteps := by
  unfold Obligations.CommandIsAnsweredInTwoSteps
  intro s i rest h hrst hready hrsp hbusy hdecode
  obtain ⟨t, r, he, _, hr⟩ := exec_answered (((inv_iff s).1 h).1.takeBeats rest) i
  obtain ⟨hcfg, hrst', hready', hcmd, hdel⟩ := exec_keeps i _ t he
  have hrun : step s = .next t := (step_of_decode h.legal hrst hrsp hbusy hdecode).trans he
  have hhand : step t = .next (t.deliver r) :=
    step_of_rsp (hcfg ▸ h.legal) (hrst'.trans hrst) hr (hready'.trans hready)
  have hnotReady : t.cmdReady = false := by simp [State.cmdReady, hr]
  exact ⟨t, t.deliver r, r, hrun, hr, hnotReady, hhand, congrArg (· ++ [r]) hdel, rfl, rfl, rfl, hcmd, row_deliver t r⟩

end Sys2Proof.Machine

/-! ## O44: a CONSTRUCT whose payload never comes -/

namespace Sys2Proof.Machine

section

variable {s : State}

/-- A run of payload words does not change the Row (R73). -/
theorem row_foldl_acceptPayload (p : List Word) (s : State) : (p.foldl State.acceptPayload s).row = s.row := by
  induction p generalizing s with
  | nil => rfl
  | cons v p ih => rw [List.foldl_cons, ih, row_acceptPayload]

/-- While payload is awaited and none is presented the block waits (R158). -/
theorem State.Receiving.step_wait (h : s.Receiving) : step (s.takeBeats []) = .next (s.takeBeats []) := by
  obtain ⟨hl, hrst, hrsp, hbusy, hawaits⟩ := h
  have hreceive : (s.takeBeats []).receive = s.takeBeats [] := by
    rcases receive_cases (s.takeBeats []) with ⟨h0, _⟩ | ⟨_, _, e⟩ | ⟨_, _, _, hcmd, _⟩ | ⟨_, _, _, hcmd, _⟩
    · exact absurd h0 hawaits.ne'
    · exact e
    · cases hcmd
    · cases hcmd
  simp [step, hl, hrst, hrsp, hbusy, hreceive]

/-- Steps of a block that is presented fewer beats than it awaits: a step takes a beat while there is one, and then the
block waits (R48, R158). -/
theorem State.Receiving.runSteps_short (h : s.Receiving) {beats : List Beat} (hshort : beats.length < s.payloadLeft)
    (k : Nat) :
    runSteps k (s.takeBeats beats) =
      .next ((((beats.take k).map (wLane s.cfg)).foldl State.acceptPayload s).takeBeats (beats.drop k)) := by
  induction k generalizing s beats with
  | zero => rfl
  | succ k ih =>
    cases beats with
    | nil => simpa [runSteps_succ_of_step h.step_wait] using ih h hshort
    | cons d rest =>
      have hmore : 1 < s.payloadLeft := (Nat.succ_le_succ (Nat.zero_le _)).trans_lt hshort
      have hcfg : (s.acceptPayload (wLane s.cfg d)).cfg = s.cfg := by rw [acceptPayload_eq]
      have hleft : (s.acceptPayload (wLane s.cfg d)).payloadLeft = s.payloadLeft - 1 := by rw [acceptPayload_eq]
      have hrest : rest.length < (s.acceptPayload (wLane s.cfg d)).payloadLeft := by
        rw [hleft]
        exact Nat.lt_sub_of_add_lt hshort
      have hstep := h.step_beat d rest
      rw [takePayload_not_last hmore] at hstep
      rw [runSteps_succ_of_step hstep, ih (h.acceptPayload hmore _) hrest, hcfg]
      rfl

theorem State.Idle.openConstruct_receiving (h : s.Idle) (hl : s.cfg.legal = true) {n : Nat} (hn : 0 < n) (len : Nat) :
    (s.openConstruct n len).Receiving := by
  obtain ⟨hrst, _, _, hrsp, _⟩ := h
  exact ⟨hl, hrst, hrsp, rfl, hn⟩

/-- A CONSTRUCT of which fewer payload beats are presented than its header asks for: the first step takes the header, and
the block then takes what payload there is. -/
theorem State.Idle.runSteps_short_construct (h : s.Idle) (hl : s.cfg.legal = true) {n len : Nat} (hn : n < 2 ^ s.cfg.aw)
    (hlen : len < 2 ^ s.cfg.aw) {beats : List Beat} (hshort : beats.length < n) (k : Nat) :
    runSteps (k + 1) (s.takeBeats (headerBeat s.cfg 0x1 n len :: beats)) =
      .next ((((beats.take k).map (wLane s.cfg)).foldl State.acceptPayload (s.openConstruct n len)).takeBeats
        (beats.drop k)) := by
  rw [runSteps_succ_of_step (h.step_header hl hn hlen hshort)]
  exact (h.openConstruct_receiving hl (Nat.zero_lt_of_lt hshort) len).runSteps_short hshort k

end

/-- Settles O44: before the header is taken nothing has happened, and afterwards `runSteps_short_construct` gives the
state, which awaits the words not presented. -/
theorem blockWaitsForMissingPayload : Obligations.BlockWaitsForMissingPayload := by
  unfold Obligations.BlockWaitsForMissingPayload
  intro n len p s m hl hidle hwf hm k
  simp only [WellFormed, fits, Bool.and_eq_true, decide_eq_true_eq] at hwf
  obtain ⟨⟨⟨hn, hlen⟩, hp⟩, _⟩ := hwf
  obtain ⟨_, _, _, hrsp, _⟩ := id hidle
  rw [hidle.present_eq, encode, List.take_succ_cons]
  generalize hbeats : (p.map (payloadBeat s.cfg)).take m = beats
  have hcount : beats.length = m := by rw [← hbeats, List.length_take, List.length_map]; omega
  cases k with
  | zero => exact ⟨_, rfl, hrsp, rfl, rfl, nofun⟩
  | succ k =>
    have hrun := hidle.runSteps_short_construct hl hn hlen (hcount ▸ hm) k
    generalize hwords : (beats.take k).map (wLane s.cfg) = words at hrun
    have htaken : words.length = min k m := by rw [← hwords, List.length_map, List.length_take, hcount]
    have hlt : words.length < n := by omega
    have hopen := hidle.openConstruct_receiving hl (Nat.zero_lt_of_lt hm) len
    have hwaits := hopen.foldl_acceptPayload hlt
    have hframe := foldl_acceptPayload_eq words (s.openConstruct n len)
    refine ⟨_, hrun, hwaits.rsp, ?_, row_foldl_acceptPayload words _, fun hk => ?_⟩
    · rw [hframe]; rfl
    · have hnone : beats.drop k = [] := List.drop_eq_nil_of_le (by omega)
      have hleft : n - words.length = n - m := by omega
      rw [hnone]
      refine ⟨hwaits.busy, ?_, rfl, hwaits.step_wait⟩
      rw [hframe]
      exact hleft

end Sys2Proof.Machine
